-- ==== Sys2Proof/Word.lean ====
section
/-! DEFINITION. The word types of the block and the truncations of `spec/00_scope.md` rule R10. -/

namespace Sys2Proof

/-- An 8-bit quantity: an input byte, an output byte, an adaptation state (R33, R38, R39). -/
abbrev Byte := BitVec 8

/-- A 16-bit quantity: `a`, `code`, `fence`, a command word (R25 to R27, R95). -/
abbrev Word16 := BitVec 16

/-- A 32-bit quantity: `buf`, `rp`, a host register (R24, R28, R31). -/
abbrev Word32 := BitVec 32

/-- `trunc16(v) = v mod 2^16` (R10). -/
def trunc16 (v : Nat) : Word16 := BitVec.ofNat 16 v

/-- `trunc32(v) = v mod 2^32` (R10). -/
def trunc32 (v : Nat) : Word32 := BitVec.ofNat 32 v

end Sys2Proof
end

