-- ==== Sys2Proof/Config.lean ====
section
/-! DEFINITION. What a configuration fixes: the constants of `spec/00_scope.md` rule R7, the named
parameters of `spec/92_eei_decisions.md` Part 2 as one record, and the open and unspecified values as
constants without a body. None of this is state (R20). -/

namespace Sys2Proof

/-- `MAXSIZE`, the largest legal block size in positions (R7): 4096 x 1024. -/
abbrev MAXSIZE : Nat := 4194304

/-- `NCTX`, the entries of the ContextTable (R7, R33). -/
abbrev NCTX : Nat := 300

/-- `NSYM`, the entries of the RankTable (R7, R38). -/
abbrev NSYM : Nat := 256

/-- `FREQMAX`, the frequency buckets of the rank model (R7, R36). -/
abbrev FREQMAX : Nat := 4

/-- `FENCEMAX`, the ceiling of `fence` (R7, R27). -/
abbrev FENCEMAX : Nat := 0x7FFF

/-- `CLAMPBASE`, the constant of the interval-reversion clamp (R7, R136). -/
abbrev CLAMPBASE : Nat := 0x6000

/-- The address spaces whose contents the spec leaves unspecified until they are written (R60, R63,
`spec/93_implementation_defined.md` U3). -/
inductive Space where
  | imem | omem | data | posn | count | mtf | freq
  deriving DecidableEq, Repr

/-- The adaptation tables `ZPTAB` (R46, R160 to R164). `pPred s` is `P[s] - 1`, so that every value of
the type, and no other, satisfies the well-formedness condition `1 <= P[s] <= 0x8000` of R165. -/
structure ZpTab where
  pPred : Byte → Fin 0x8000
  m : Byte → Word16
  up : Byte → Byte
  dn : Byte → Byte
  deriving Inhabited

/-- The interval increment `P[s]` (R161), in `1..0x8000` by construction (R165). -/
def ZpTab.p (t : ZpTab) (s : Byte) : Nat := (t.pPred s).val + 1

/-- The named parameters a model takes as arguments (R7; `spec/92_eei_decisions.md` Part 2). `OUT_CAP`
is unbounded (R44) and so is no field; `IN_CAP` is at most `2^32 - 1` by its type. -/
structure Params where
  zptab : ZpTab
  inCap : Word32
  /-- `GRACE`; 8 bits because `delay` has 8 (R30, D6). -/
  grace : BitVec 8
  ctxIds : Nat
  mtfnoInit : BitVec 9
  faddInit : Word32
  faddCeil : Word32
  fscale : Nat
  mpsAdaptGe : Bool
  fshiftUnary : Bool
  strictSingleMarker : Bool

/-- The ranges outside which a configuration is refused (`spec/93_implementation_defined.md` U7);
the condition on `P` (U1) is part of the type `ZpTab`. -/
abbrev Params.Wf (p : Params) : Prop :=
  7 ≤ p.grace.toNat ∧ 1 ≤ p.ctxIds ∧ p.ctxIds ≤ 23 ∧ p.fscale ≤ 31 ∧
    p.faddInit.toNat ≠ 0 ∧ p.mtfnoInit.toNat ≤ 256

/-- The codec's adaptation tables: an OPEN parameter, no value of which is in the spec (R166, D10). -/
opaque Config.zptab : ZpTab

/-- The capacity of the input memory in bytes: an OPEN parameter, at most `2^32 - 1` (R7, D4). -/
opaque Config.inCap : Word32

/-- The free value an entry of an address space holds before anything has written it (R51, U3):
of the space, of how many resets have made the space unspecified so far, and of the entry's index. -/
opaque Config.unspecified : Space → Nat → Nat → Word32

end Sys2Proof
end

