-- ==== Sys2Proof/Syntax.lean ====
section
/-! DEFINITION. The commands of the block: one constructor for each row of `spec/opcode_table.json`
(`spec/30_encoding.md` rules R95 to R97). An operand has the width of its field; the ranges of R99
are `Instr.wf`. -/

namespace Sys2Proof

/-- A command, in opcode order (R97). -/
inductive Instr where
  /-- `NOP` (R225). -/
  | nop
  /-- `SRESET` (R226). -/
  | sreset
  /-- `DINIT` (R114). -/
  | dinit
  /-- `PRELOAD` (R112). -/
  | preload
  /-- `ZPRAW` (R139). -/
  | zpraw
  /-- `ZPCTX c` (R135): `c` is the context index of format C. -/
  | zpctx (c : BitVec 9)
  /-- `RAWN n` (R140): `n` is the bit count of format N. -/
  | rawn (n : BitVec 5)
  /-- `BINN nb, B` (R141): the bit count and the context base of format B. -/
  | binn (nb : BitVec 3) (base : BitVec 9)
  /-- `BLKHDR` (R221). -/
  | blkhdr
  /-- `SYMDEC` (R182). -/
  | symdec
  /-- `IBWT` (R201). -/
  | ibwt
  /-- `EMIT` (R222). -/
  | emit
  /-- `BLOCK` (R223). -/
  | block
  /-- `RUN` (R224). -/
  | run
  deriving DecidableEq, Repr

end Sys2Proof
end

