-- ==== Sys2Proof/WellFormed.lean ====
section
/-! DEFINITION. The operand ranges of `spec/30_encoding.md` rules R96 and R99. -/

namespace Sys2Proof

/-- The operand of `ZPCTX` names an entry of the ContextTable: `c <= 299` (R99). -/
def wfCtx (c : BitVec 9) : Bool := decide (c.toNat < NCTX)

/-- The bit count of `RAWN`: `1 <= n <= 24` (R99). -/
def wfRawCount (n : BitVec 5) : Bool := decide (1 ≤ n.toNat ∧ n.toNat ≤ 24)

/-- The bit count of `BINN`: `1 <= nb <= 7` (R99). -/
def wfTreeBits (nb : BitVec 3) : Bool := decide (1 ≤ nb.toNat)

/-- The last context of the tree of `BINN` exists: `B + 2^nb - 2 <= 299` (R99). -/
def wfTreeBase (nb : BitVec 3) (base : BitVec 9) : Bool :=
  decide (base.toNat + 2 ^ nb.toNat - 2 < NCTX)

/-- A command whose operands are in range (R99). -/
def Instr.wf : Instr → Bool
  | .nop => true
  | .sreset => true
  | .dinit => true
  | .preload => true
  | .zpraw => true
  | .zpctx c => wfCtx c
  | .rawn n => wfRawCount n
  | .binn nb base => wfTreeBits nb && wfTreeBase nb base
  | .blkhdr => true
  | .symdec => true
  | .ibwt => true
  | .emit => true
  | .block => true
  | .run => true

end Sys2Proof
end

