-- ==== Sys2Proof/Decode.lean ====
section
/-! DEFINITION. The command decoder of `spec/30_encoding.md` rules R95 to R99, total on 16-bit words
and rejecting by name, then the encoder. As R97 says, the opcode and the must-be-zero fields are
matched first (`decode`), and the operand ranges of R99 are checked after the match
(`checkOperands`); a word that fails either is illegal (R98). -/

namespace Sys2Proof

/-- Why a command word is illegal (R98, R99). -/
inductive DecodeError where
  /-- `op` is 0xE or 0xF (R98). -/
  | reservedOpcode
  /-- A field its format says must be 0 is not 0 (R96, R98). -/
  | fieldNotZero
  /-- `ZPCTX c` with `c > 299` (R99). -/
  | contextOutOfRange
  /-- `RAWN n` with `n = 0` or `n > 24` (R99). -/
  | rawCountOutOfRange
  /-- `BINN nb, B` with `nb = 0` (R99). -/
  | treeBitsZero
  /-- `BINN nb, B` with `B + 2^nb - 2 > 299` (R99). -/
  | treeOutOfRange
  deriving DecidableEq, Repr

/-- Bits [15:12] of a command word (R95). -/
def opField (w : Word16) : BitVec 4 := w.extractLsb' 12 4

/-- Bits [11:9] of a command word (R95). -/
def nbField (w : Word16) : BitVec 3 := w.extractLsb' 9 3

/-- Bits [8:0] of a command word (R95). -/
def argField (w : Word16) : BitVec 9 := w.extractLsb' 0 9

/-- Bits [4:0] of `arg`, the bit count of format N (R96). -/
def rawCountField (w : Word16) : BitVec 5 := w.extractLsb' 0 5

/-- Bits [8:5] of `arg`, which format N keeps zero (R96). -/
def rawZeroField (w : Word16) : BitVec 4 := w.extractLsb' 5 4

/-- Format Z: `nb` and `arg` must be 0 (R96). -/
def formatZ (w : Word16) (i : Instr) : Except DecodeError Instr :=
  if nbField w = 0 ∧ argField w = 0 then .ok i else .error .fieldNotZero

/-- Format C: `nb` must be 0, `arg` is a context index (R96). -/
def formatC (w : Word16) (i : BitVec 9 → Instr) : Except DecodeError Instr :=
  if nbField w = 0 then .ok (i (argField w)) else .error .fieldNotZero

/-- Format N: `nb` and `arg[8:5]` must be 0, `arg[4:0]` is a bit count (R96). -/
def formatN (w : Word16) (i : BitVec 5 → Instr) : Except DecodeError Instr :=
  if nbField w = 0 ∧ rawZeroField w = 0 then .ok (i (rawCountField w)) else .error .fieldNotZero

/-- Format B: `nb` is a bit count and `arg` a context base (R96). -/
def formatB (w : Word16) (i : BitVec 3 → BitVec 9 → Instr) : Except DecodeError Instr :=
  .ok (i (nbField w) (argField w))

/-- The opcode map of R97. -/
def decode (w : Word16) : Except DecodeError Instr :=
  match (opField w).toNat with
  | 0x0 => formatZ w .nop
  | 0x1 => formatZ w .sreset
  | 0x2 => formatZ w .dinit
  | 0x3 => formatZ w .preload
  | 0x4 => formatZ w .zpraw
  | 0x5 => formatC w .zpctx
  | 0x6 => formatN w .rawn
  | 0x7 => formatB w .binn
  | 0x8 => formatZ w .blkhdr
  | 0x9 => formatZ w .symdec
  | 0xA => formatZ w .ibwt
  | 0xB => formatZ w .emit
  | 0xC => formatZ w .block
  | 0xD => formatZ w .run
  | _ => .error .reservedOpcode

/-- The operand range checks of R99, made after the match and before any state is changed. -/
def checkOperands (i : Instr) : Except DecodeError Unit :=
  match i with
  | .nop => .ok ()
  | .sreset => .ok ()
  | .dinit => .ok ()
  | .preload => .ok ()
  | .zpraw => .ok ()
  | .zpctx c => if c.toNat ≤ 299 then .ok () else .error .contextOutOfRange
  | .rawn n => if 1 ≤ n.toNat ∧ n.toNat ≤ 24 then .ok () else .error .rawCountOutOfRange
  | .binn nb base =>
    if nb.toNat = 0 then .error .treeBitsZero
    else if base.toNat + 2 ^ nb.toNat - 2 ≤ 299 then .ok () else .error .treeOutOfRange
  | .blkhdr => .ok ()
  | .symdec => .ok ()
  | .ibwt => .ok ()
  | .emit => .ok ()
  | .block => .ok ()
  | .run => .ok ()

/-- `word = (op << 12) | (nb << 9) | arg` (R100). -/
def encodeFields (op : BitVec 4) (nb : BitVec 3) (arg : BitVec 9) : Word16 := op ++ nb ++ arg

/-- The command word of a command (R97, R100). -/
def encode (i : Instr) : Word16 :=
  match i with
  | .nop => encodeFields 0x0 0 0
  | .sreset => encodeFields 0x1 0 0
  | .dinit => encodeFields 0x2 0 0
  | .preload => encodeFields 0x3 0 0
  | .zpraw => encodeFields 0x4 0 0
  | .zpctx c => encodeFields 0x5 0 c
  | .rawn n => encodeFields 0x6 0 (n.setWidth 9)
  | .binn nb base => encodeFields 0x7 nb base
  | .blkhdr => encodeFields 0x8 0 0
  | .symdec => encodeFields 0x9 0 0
  | .ibwt => encodeFields 0xA 0 0
  | .emit => encodeFields 0xB 0 0
  | .block => encodeFields 0xC 0 0
  | .run => encodeFields 0xD 0 0

/-- The instruction the decoder reads from `nbits` bits numbered as `spec/opcode_table.json` numbers
them. A command is one 16-bit word (R102); bits above `nbits` are 0. -/
def decodeTableWord (nbits w : Nat) : Option Instr :=
  match decode (BitVec.ofNat 16 (w % 2 ^ nbits)) with
  | .ok i => some i
  | .error _ => none

end Sys2Proof
end

