-- ==== Sys2Proof/Machine/State.lean ====
section
/-! DEFINITION. The state of the block (`spec/10_state.md` rules R20 to R45), grouped as the spec
groups it, the reasons a step can stop, and the state after power-on reset (R51). -/

namespace Sys2Proof.Machine

/-- A sparse memory of `w`-bit entries: (index, value) pairs, indices strictly rising. An index that is
not listed has never been written, so its contents are unspecified (R51, U3). -/
abbrev Memory (w : Nat) := List (Nat × BitVec w)

/-- The canonical form of a memory: indices strictly rise. An unlisted index holds no value of its own, so
no listed entry can equal what an unlisted one holds. -/
abbrev Memory.wf {w : Nat} (m : Memory w) : Prop := m.Pairwise fun x y => x.1 < y.1

/-- The sequencer state `st` (R21); the code 7 is never held and has no constructor (V5). -/
inductive SeqState where
  | reset | ready | block | ranked | recon | done | fault
  deriving DecidableEq, Repr

/-- The fault code `err` (R23, R250); the codes 6 and 7 are never written and have no constructor (V6). -/
inductive Err where
  | none | truncatedStream | blockTooLarge | corruptBlock | illegalCmd | seqError
  deriving DecidableEq, Repr

/-- The CoderState and the read pointer of the Bit Source (R25 to R31). -/
structure Coder where
  a : Word16
  code : Word16
  fence : Word16
  buf : Word32
  scount : BitVec 6
  delay : BitVec 8
  rp : Word32
  deriving DecidableEq, Repr

/-- The block registers and memories (R22, R34 to R42). -/
structure Block where
  i : BitVec 23
  size : BitVec 24
  fshift : BitVec 2
  fadd : Word32
  freq : Vector Word32 4
  mtfno : BitVec 9
  markerpos : BitVec 23
  mcount : BitVec 2
  mtf : Vector Byte 256
  data : List Host.Cell
  posn : Memory 32
  count : Vector Word32 256
  last : BitVec 23
  ptr : BitVec 23
  deriving DecidableEq, Repr

/-- What the outside can do to the block: a read or a write of a host register (R24; `bits` is the width of
the access, R69), or power-on reset (R267, R280). -/
inductive HostEvent where
  | read (offset bits : Nat)
  | write (offset bits : Nat) (value : Word32)
  | powerOn
  deriving DecidableEq, Repr

/-- The state of the block (R20). The last four fields are the model's own, not the spec's: what the last
host read returned, the host's events not yet performed (the oldest first), and how many resets have made
the working memories, and the input memory, unspecified. -/
structure State where
  st : SeqState
  err : Err
  einfo : Word32
  res : BitVec 24
  len : Word32
  iaddr : Word32
  oaddr : Word32
  olen : Word32
  coder : Coder
  ctx : Vector Byte 300
  blk : Block
  imem : List Host.Cell
  omem : List Host.Cell
  rdata : Word32
  pend : List HostEvent
  resetCount : Nat
  bootCount : Nat
  deriving DecidableEq, Repr

/-- The reasons a step ends in a fault of the machine. The faults of R250 are not here: taking one of them is a
next state with `st = FAULT` (R256). -/
inductive Fault where
  /-- An operation computed an index outside the address space (`IMEM` at or above `IN_CAP`; `data` or `posn`
  at or above `MAXSIZE`). Raised by `NEXTBYTE`, `SYMDEC`, `IBWT` and `EMIT`; no reachable state raises it
  (R70). Safe: the machine stops. -/
  | indexOutOfSpace (space : Space)
  deriving DecidableEq, Repr

/-- The reasons a step is refused: what the spec tells a model to refuse. -/
inductive Refusal where
  /-- An instruction without a meaning. Raised by `exec` alone. Safe: the machine stops. -/
  | notModelled (mnemonic : String)
  /-- A launch (`DINIT` or `RUN`) with `LEN > IN_CAP` (U2, R45, R283). Raised by `DINIT`. Safe: the machine stops. -/
  | lenExceedsInCap
  /-- The output would pass `2^32 - 1` bytes (U6, R44). Raised by `EMIT`. Safe: the machine stops. -/
  | outputTooLong
  /-- A host access of a width other than 32 bits or at no register's offset (V7, R69). Raised by the host
  port. Safe: the machine stops. -/
  | hostAccess (offset bits : Nat)
  deriving DecidableEq, Repr

/-- The coder after reset (R51). -/
def Coder.reset : Coder :=
  { a := 0, code := 0, fence := 0, buf := 0, scount := 0, delay := 0, rp := 0 }

/-- The block registers after power-on reset (R51). The spec leaves `freq`, `mtf` and `count` unspecified
and allows zero (U3): DESIGN CHOICE, log entry 1; `data` and `posn` list nothing. -/
def Block.reset : Block :=
  { i := 0, size := 0, fshift := 0, fadd := 0, freq := Vector.replicate 4 0, mtfno := 0,
    markerpos := 0, mcount := 0, mtf := Vector.replicate 256 0, data := [], posn := [],
    count := Vector.replicate 256 0, last := 0, ptr := 0 }

/-- The block after power-on reset (R51, R280): `st = RESET`, every register 0, `LEN = 0`, no memory entry
written. -/
def State.reset : State :=
  { st := .reset, err := .none, einfo := 0, res := 0, len := 0, iaddr := 0, oaddr := 0, olen := 0,
    coder := Coder.reset, ctx := Vector.replicate 300 0, blk := Block.reset, imem := [], omem := [],
    rdata := 0, pend := [], resetCount := 0, bootCount := 0 }

end Sys2Proof.Machine
end

