-- ==== Sys2Proof/Machine/Flags.lean ====
section
/-! DEFINITION. The status bits of the block. There are no condition codes and no arithmetic flags (R47):
the codes of `st` and `err`, `out_valid` and `busy` of `STATUS` (R24), and the counter `mcount` (R37). -/

namespace Sys2Proof.Machine

/-- The 3-bit code of `st` (R21). -/
def SeqState.code (st : SeqState) : BitVec 3 :=
  match st with
  | .reset => 0
  | .ready => 1
  | .block => 2
  | .ranked => 3
  | .recon => 4
  | .done => 5
  | .fault => 6

/-- The 3-bit code of `err` (R250). -/
def Err.code (e : Err) : BitVec 3 :=
  match e with
  | .none => 0
  | .truncatedStream => 1
  | .blockTooLarge => 2
  | .corruptBlock => 3
  | .illegalCmd => 4
  | .seqError => 5

/-- The terminal states, left only by reset (R15, R257). -/
def SeqState.terminal (st : SeqState) : Bool :=
  match st with
  | .done => true
  | .fault => true
  | .reset => false
  | .ready => false
  | .block => false
  | .ranked => false
  | .recon => false

/-- `out_valid`: 1 iff `st = DONE` (R24, R47). -/
def outValid (s : State) : BitVec 1 := if s.st = .done then 1 else 0

/-- `busy`: constant 0, because operations are atomic to the host (R24, R47). -/
def busy : BitVec 1 := 0

/-- The word `STATUS` reads (R24). -/
def statusWord (s : State) : Word32 :=
  ((0 : BitVec 24) ++ busy ++ outValid s ++ s.err.code ++ s.st.code : BitVec (24 + 1 + 1 + 3 + 3))

/-- One more marker: `min(mcount + 1, 2)` (R37, R182). -/
def countMarker (mcount : BitVec 2) : BitVec 2 := BitVec.ofNat 2 (min (mcount.toNat + 1) 2)

end Sys2Proof.Machine
end

