-- ==== Sys2Proof/Machine/Params.lean ====
section
/-! DEFINITION. The parameters the machine is built with: the defaults of `spec/00_scope.md` rule R7 and
`spec/92_eei_decisions.md` Part 2, the two OPEN ones left without a value (log entries 3 and 4). -/

namespace Sys2Proof.Machine

/-- The configuration `exec` runs (R7). DESIGN CHOICE: the named parameters at the defaults of the spec. -/
def params : Params :=
  { zptab := Config.zptab
    inCap := Config.inCap
    grace := 25
    ctxIds := 3
    mtfnoInit := 3
    faddInit := 4
    faddCeil := 0x10000000
    fscale := 24
    mpsAdaptGe := true
    fshiftUnary := true
    strictSingleMarker := true }

end Sys2Proof.Machine
end

