-- ==== Sys2Proof/Machine/Ops.lean ====
section
/-! DEFINITION. The named operations over memories and tables, the result of an operation, fault entry
(R256), reset (R226) and the command dispatcher (R227, R236). -/

namespace Sys2Proof.Machine

/-- The value written to index `k`, if any has been. -/
def Memory.lookup {w : Nat} (m : Memory w) (k : Nat) : Option (BitVec w) :=
  match m with
  | [] => none
  | (j, v) :: rest => if j = k then some v else Memory.lookup rest k

/-- `T[k] <- v` on a memory (R11): the entry is replaced, or inserted in index order. -/
def Memory.write {w : Nat} (m : Memory w) (k : Nat) (v : BitVec w) : Memory w :=
  match m with
  | [] => [(k, v)]
  | (j, u) :: rest =>
    if k < j then (k, v) :: (j, u) :: rest
    else if k = j then (k, v) :: rest
    else (j, u) :: Memory.write rest k v

/-- `T[k]` on a memory (R11): the value written, or the free value of an entry nothing has written (U3). -/
def Memory.read {w : Nat} (space : Space) (epoch : Nat) (m : Memory w) (k : Nat) : BitVec w :=
  match m.lookup k with
  | some v => v
  | none => (Config.unspecified space epoch k).setWidth w

/-- `T[k]` on a table (R11). -/
def tableGet {w n : Nat} (t : Vector (BitVec w) n) (k : Nat) : BitVec w := t.getD k 0

/-- `T[k] <- v` on a table (R11). -/
def tablePut {w n : Nat} (t : Vector (BitVec w) n) (k : Nat) (v : BitVec w) : Vector (BitVec w) n :=
  t.setIfInBounds k v

/-- `IMEM[k]` (R45); kept by `SRESET`, so unspecified since the last power-on. -/
def State.imemRead (s : State) (k : Nat) : Byte := Memory.read .imem s.bootCount s.imem k

/-- `OMEM[k]` (R44). -/
def State.omemRead (s : State) (k : Nat) : Byte := Memory.read .omem s.resetCount s.omem k

/-- `data[k]` (R39). -/
def State.dataRead (s : State) (k : Nat) : Byte := Memory.read .data s.resetCount s.blk.data k

/-- `posn[k]` (R40). -/
def State.posnRead (s : State) (k : Nat) : Word32 := Memory.read .posn s.resetCount s.blk.posn k

/-- The state with other coder registers. -/
def State.setCoder (s : State) (c : Coder) : State := { s with coder := c }

/-- The state with other block registers. -/
def State.setBlk (s : State) (b : Block) : State := { s with blk := b }

/-- The sequencer transfer `st <- S` (R11, R21). -/
def State.setSt (s : State) (st : SeqState) : State := { s with st := st }

/-- `res <- v` (R43). -/
def State.setRes (s : State) (v : BitVec 24) : State := { s with res := v }

/-- `ctx[c] <- v` (R33). -/
def State.setCtx (s : State) (c : Nat) (v : Byte) : State := { s with ctx := tablePut s.ctx c v }

/-- What an operation comes to: it returns a value, it raises a fault of R250, or it stops the machine. -/
inductive Res (α : Type) where
  | ok (v : α) (s : State)
  | raise (e : Err) (info : Word32) (s : State)
  | stop (r : Fault)
  | refuse (r : Refusal)

/-- `call`: what follows an operation runs only if the operation returned (R11, R12). -/
def Res.bind {α β : Type} (r : Res α) (k : α → State → Res β) : Res β :=
  match r with
  | .ok v s => k v s
  | .raise e info s => .raise e info s
  | .stop f => .stop f
  | .refuse f => .refuse f

/-- `FAULT_ENTRY(F, info)` (R256). No other register changes. -/
def faultEntry (e : Err) (info : Word32) (s : State) : State :=
  { s with err := e, einfo := info, olen := 0, st := .fault }

/-- The block registers when a reset leaves the work memories unspecified (R51, U3): free values for the
tables, nothing listed in the memories. -/
def Block.unspecified (epoch : Nat) : Block :=
  { Block.reset with
    freq := Vector.ofFn fun k => Config.unspecified .freq epoch k
    mtf := Vector.ofFn fun k => (Config.unspecified .mtf epoch k).setWidth 8
    count := Vector.ofFn fun k => Config.unspecified .count epoch k }

/-- `SRESET`, the one way out of `DONE` and `FAULT` (R226; the `SRESET` column of R51): `LEN` and `IMEM` are
kept, the work memories and `OMEM` become unspecified. -/
def softReset (s : State) : State :=
  { State.reset with
    len := s.len
    imem := s.imem
    blk := Block.unspecified (s.resetCount + 1)
    rdata := s.rdata
    pend := s.pend
    resetCount := s.resetCount + 1
    bootCount := s.bootCount }

/-- Power-on reset of a block that has run before (R280, R281): as `SRESET`, and `LEN` is 0 and `IMEM`
unspecified as well. -/
def powerOn (s : State) : State :=
  { softReset s with len := 0, imem := [], bootCount := s.bootCount + 1 }

/-- A command as the 32-bit information word of a fault (R250): the word, zero-extended. -/
def commandInfo (i : Instr) : Word32 := (encode i).setWidth 32

/-- The sequencer's table of accepted commands (R236) for the states that are not terminal. -/
def legalIn (i : Instr) (st : SeqState) : Bool :=
  match i with
  | .nop => true
  | .sreset => true
  | .dinit => st = .reset
  | .preload => st = .ready
  | .zpraw => st = .ready
  | .zpctx _ => st = .ready
  | .rawn _ => st = .ready
  | .binn _ _ => st = .ready
  | .blkhdr => st = .ready
  | .symdec => st = .block
  | .ibwt => st = .ranked
  | .emit => st = .recon
  | .block => st = .ready
  | .run => st = .reset

/-- How a command ends: with its own effect, in fault entry (R227: a `raise` anywhere inside performs it),
or stopped. -/
def finish (r : Res Unit) : Host.Outcome State Fault Refusal :=
  match r with
  | .ok _ s => .next s
  | .raise e info s => .next (faultEntry e info s)
  | .stop f => .fault f
  | .refuse f => .refused f

/-- The dispatcher (R227) for every command but `SRESET`, in its order: a terminal state ignores the command, an
operand out of range raises `IllegalCmd`, a command not legal in `st` raises `SeqError`, else it is
performed. -/
def dispatch (i : Instr) (s : State) (perform : Res Unit) : Host.Outcome State Fault Refusal :=
  if s.st.terminal then .next s
  else
    match checkOperands i with
    | .error _ => .next (faultEntry .illegalCmd (commandInfo i) s)
    | .ok _ =>
      if legalIn i s.st then finish perform
      else .next (faultEntry .seqError (commandInfo i) s)

/-- What the dispatcher does with a word that is no command at all (R98, R227). -/
def rejectWord (w : Word16) (s : State) : State :=
  if s.st.terminal then s else faultEntry .illegalCmd (w.setWidth 32) s

/-- The last line of the dispatcher (R227): `ZPRAW`, `ZPCTX`, `RAWN` and `BINN` return their value in `res`
(R43). -/
def storeRes (r : Res Nat) : Res Unit :=
  r.bind fun v s => .ok () (s.setRes (BitVec.ofNat 24 v))

end Sys2Proof.Machine
end

