-- ==== Sys2Proof/Machine/Operands.lean ====
section
/-! DEFINITION. The operand forms of the commands (`spec/30_encoding.md` R96: unsigned, nothing extended or
scaled) and the context indices the symbol model computes (R84 to R86). -/

namespace Sys2Proof.Machine

/-- The context index of format C (R96). -/
def ctxOperand (c : BitVec 9) : Nat := c.toNat

/-- The bit count of format N (R96). -/
def rawCountOperand (n : BitVec 5) : Nat := n.toNat

/-- The bit count of format B (R96). -/
def treeBitsOperand (nb : BitVec 3) : Nat := nb.toNat

/-- The context base of format B (R96). -/
def treeBaseOperand (base : BitVec 9) : Nat := base.toNat

/-- The context of the tree node with index `n` rooted at `base`: `B + n - 1` (R85, R141). -/
def treeContext (base n : Nat) : Nat := base + n - 1

/-- `BAND(j) = 2*CTXIDS + 2^j - 2`, the context of the band `j` decision (R86, R181). -/
def band (p : Params) (j : Nat) : Nat := 2 * p.ctxIds + 2 ^ j - 2

/-- `cid = min(CTXIDS - 1, mtfno)` (R84, R182). -/
def contextId (p : Params) (s : State) : Nat := min (p.ctxIds - 1) s.blk.mtfno.toNat

/-- The context of the rank-1 decision, `CTXIDS + cid` (R183). -/
def rank1Context (p : Params) (cid : Nat) : Nat := p.ctxIds + cid

end Sys2Proof.Machine
end

