-- ==== Sys2Proof/Machine/BitSource.lean ====
section
/-! DEFINITION. The Bit Source: `NEXTBYTE`, `PRELOAD`, `DINIT` (`spec/40_bit_source.md`), and `SETFENCE`
(`spec/41_zp_decoder.md` R133). -/

namespace Sys2Proof.Machine

/-- `NEXTBYTE(counted)` (R111). On naturals `delay - 1` stops at 0 (corner case c). -/
def nextByte (p : Params) (counted : Bool) (s : State) : Res Byte :=
  if s.coder.rp.toNat < s.len.toNat then
    if p.inCap.toNat ≤ s.coder.rp.toNat then .stop (.indexOutOfSpace .imem)
    else .ok (s.imemRead s.coder.rp.toNat) (s.setCoder { s.coder with rp := s.coder.rp + 1 })
  else if counted then
    if s.coder.delay.toNat - 1 < 1 then
      .raise .truncatedStream s.coder.rp (s.setCoder { s.coder with delay := 0 })
    else .ok 0xFF (s.setCoder { s.coder with delay := s.coder.delay - 1 })
  else .ok 0xFF s

/-- A byte enters the lookahead buffer at its low end (R64, R112). -/
def shiftInByte (b : Byte) (s : State) : State :=
  s.setCoder { s.coder with
    buf := trunc32 (s.coder.buf.toNat * 256 + b.toNat)
    scount := s.coder.scount + 8 }

/-- The loop of `PRELOAD` (R112), at most `n` times round. -/
def preloadLoop (p : Params) (n : Nat) (s : State) : Res Unit :=
  match n with
  | 0 => .ok () s
  | n + 1 =>
    if s.coder.scount.toNat ≤ 24 then
      (nextByte p true s).bind fun b s => preloadLoop p n (shiftInByte b s)
    else .ok () s

/-- `PRELOAD` (R112). Each round adds 8 to `scount`, so four rounds always end it. -/
def preload (p : Params) (s : State) : Res Unit := preloadLoop p 4 s

/-- `SETFENCE` (R133). -/
def setFence (s : State) : State :=
  s.setCoder { s.coder with fence := trunc16 (min s.coder.code.toNat FENCEMAX) }

/-- `DINIT` up to its `PRELOAD` (R114), the two priming bytes read. -/
def primed (p : Params) (b0 b1 : Byte) (s : State) : State :=
  s.setCoder { s.coder with
    code := trunc16 (b0.toNat * 256 + b1.toNat)
    delay := p.grace
    scount := 0
    buf := 0 }

/-- What `DINIT` clears first (R114). -/
def freshSession (s : State) : State :=
  { s with
    olen := 0
    ctx := Vector.replicate 300 0
    coder := { s.coder with rp := 0, a := 0 } }

/-- `DINIT` (R114). A launch with `LEN > IN_CAP` is refused (U2, R45, R283). -/
def dinit (p : Params) (s : State) : Res Unit :=
  if p.inCap.toNat < s.len.toNat then .refuse .lenExceedsInCap
  else
    (nextByte p false (freshSession s)).bind fun b0 s =>
    (nextByte p false s).bind fun b1 s =>
    (preload p (primed p b0 b1 s)).bind fun _ s =>
    .ok () ((setFence s).setSt .ready)

/-- `DINIT` as a command (R114, R227). -/
def execDinit (s : State) : Host.Outcome State Fault Refusal :=
  dispatch .dinit s (dinit params s)

/-- `PRELOAD` as a command (R112, R227). -/
def execPreload (s : State) : Host.Outcome State Fault Refusal :=
  dispatch .preload s (preload params s)

end Sys2Proof.Machine
end

