-- ==== Sys2Proof/Machine/ArithDecoder.lean ====
section
/-! DEFINITION. The Arithmetic Decoder Core (`spec/41_zp_decoder.md`): `FFZ`, the renormalisations, `ZPRAW`,
`ZPCTX`, `RAWN`, `BINN`. The raw path and the context path stay two behaviours (R143). -/

namespace Sys2Proof.Machine

/-- `FFZT[b]`, the number of leading one bits of a byte (R167). -/
def ffzt (b : Byte) : Nat :=
  if b.toNat ≤ 0x7F then 0
  else if b.toNat ≤ 0xBF then 1
  else if b.toNat ≤ 0xDF then 2
  else if b.toNat ≤ 0xEF then 3
  else if b.toNat ≤ 0xF7 then 4
  else if b.toNat ≤ 0xFB then 5
  else if b.toNat ≤ 0xFD then 6
  else if b.toNat ≤ 0xFE then 7
  else 8

/-- `FFZ(x)` (R131). -/
def ffz (x : Word16) : Nat :=
  if 0xFF00 ≤ x.toNat then ffzt (x.extractLsb' 0 8) + 8 else ffzt (x.extractLsb' 8 8)

/-- `n` bits of `buf` from bit `lo` up, as a number: `(buf >> lo) & ((1 << n) - 1)` (R132, R134). -/
def lookaheadBits (buf : Word32) (lo n : Nat) : Nat := buf.toNat / 2 ^ lo % 2 ^ n

/-- The registers a shift by `n` leaves, `a1` and `c1` being the values shifted (R132, R134): `n` bits
leave the lookahead buffer and enter `code` at its low end. -/
def shiftCoder (a1 c1 n : Nat) (s : State) : State :=
  s.setCoder { s.coder with
    scount := BitVec.ofNat 6 (s.coder.scount.toNat - n)
    a := trunc16 (a1 * 2 ^ n)
    code := trunc16 (c1 * 2 ^ n) |||
      trunc16 (lookaheadBits s.coder.buf (s.coder.scount.toNat - n) n) }

/-- The end of both renormalisations: `if scount < 16: call PRELOAD`, then `SETFENCE` (R113, R132, R134). -/
def refill (p : Params) (s : State) : Res Unit :=
  (if s.coder.scount.toNat < 16 then preload p s else .ok () s).bind fun _ s => .ok () (setFence s)

/-- `RENORM_LPS(z)` (R132). -/
def renormLps (p : Params) (z : Nat) (s : State) : Res Unit :=
  let zc := 0x10000 - z
  let a1 := s.coder.a.toNat + zc
  let c1 := s.coder.code.toNat + zc
  refill p (shiftCoder a1 c1 (ffz (trunc16 a1)) s)

/-- `RENORM_MPS(z)` (R134). -/
def renormMps (p : Params) (z : Nat) (s : State) : Res Unit :=
  refill p (shiftCoder z s.coder.code.toNat 1 s)

/-- `ZPRAW` (R139). -/
def zpraw (p : Params) (s : State) : Res Bool :=
  let z := 0x8000 + s.coder.a.toNat / 2
  if s.coder.code.toNat < z then (renormLps p z s).bind fun _ s => .ok true s
  else (renormMps p z s).bind fun _ s => .ok false s

/-- The interval-reversion clamp of the context path: `min(z, 0x6000 + ((z + a) >> 2))` (R136). -/
def clamp (a z : Nat) : Nat := min z (CLAMPBASE + (z + a) / 4)

/-- The bit `s[0]` of an adaptation state, its more probable symbol (R135, R168). -/
def mpsOf (q : Byte) : Bool := q.getLsbD 0

/-- Whether an MPS event moves the context up: `a >= M[s]`, or `a > M[s]` when `MPS_ADAPT_GE` is false
(R138). -/
def mpsAdapts (p : Params) (a : Nat) (q : Byte) : Bool :=
  if p.mpsAdaptGe then decide ((p.zptab.m q).toNat ≤ a) else decide ((p.zptab.m q).toNat < a)

/-- `ZPSUB`, LPS branch (R137). -/
def zpsubLps (p : Params) (c : Nat) (q : Byte) (z : Nat) (s : State) : Res Bool :=
  (renormLps p z (s.setCtx c (p.zptab.dn q))).bind fun _ s => .ok (!mpsOf q) s

/-- `ZPSUB`, MPS branch (R138); the comparison sees `a` as it was on entry. -/
def zpsubMps (p : Params) (c : Nat) (q : Byte) (z : Nat) (s : State) : Res Bool :=
  (renormMps p z (if mpsAdapts p s.coder.a.toNat q then s.setCtx c (p.zptab.up q) else s)).bind
    fun _ s => .ok (mpsOf q) s

/-- `ZPSUB(c, s, z)` (R136 to R138). -/
def zpsub (p : Params) (c : Nat) (q : Byte) (z : Nat) (s : State) : Res Bool :=
  let z := clamp s.coder.a.toNat z
  if s.coder.code.toNat < z then zpsubLps p c q z s else zpsubMps p c q z s

/-- `ZPCTX c` (R135). -/
def zpctx (p : Params) (c : Nat) (s : State) : Res Bool :=
  let q := tableGet s.ctx c
  let z := s.coder.a.toNat + p.zptab.p q
  if z ≤ s.coder.fence.toNat then
    .ok (mpsOf q) (s.setCoder { s.coder with a := trunc16 z })
  else zpsub p c q z s

/-- The loop of `RAWN` (R82, R140): `n` more raw bits below the accumulator `v`. -/
def rawLoop (p : Params) (n v : Nat) (s : State) : Res Nat :=
  match n with
  | 0 => .ok v s
  | n + 1 => (zpraw p s).bind fun b s => rawLoop p n (2 * v + b.toNat) s

/-- `RAWN n` (R140). -/
def rawn (p : Params) (n : Nat) (s : State) : Res Nat :=
  (rawLoop p n 1 s).bind fun v s => .ok (v - 2 ^ n) s

/-- The loop of `BINN` (R85, R141): `nb` more tree decisions from the node `n`. -/
def treeLoop (p : Params) (base nb n : Nat) (s : State) : Res Nat :=
  match nb with
  | 0 => .ok n s
  | nb + 1 => (zpctx p (treeContext base n) s).bind fun b s => treeLoop p base nb (2 * n + b.toNat) s

/-- `BINN nb, B` (R141). -/
def binn (p : Params) (nb base : Nat) (s : State) : Res Nat :=
  (treeLoop p base nb 1 s).bind fun n s => .ok (n - 2 ^ nb) s

/-- A decoded bit as the number a command returns (R43). -/
def bitValue (r : Res Bool) : Res Nat := r.bind fun b s => .ok b.toNat s

/-- `ZPRAW` as a command (R139, R227). -/
def execZpraw (s : State) : Host.Outcome State Fault Refusal :=
  dispatch .zpraw s (storeRes (bitValue (zpraw params s)))

/-- `ZPCTX c` as a command (R135, R227). -/
def execZpctx (c : BitVec 9) (s : State) : Host.Outcome State Fault Refusal :=
  dispatch (.zpctx c) s (storeRes (bitValue (zpctx params (ctxOperand c) s)))

/-- `RAWN n` as a command (R140, R227). -/
def execRawn (n : BitVec 5) (s : State) : Host.Outcome State Fault Refusal :=
  dispatch (.rawn n) s (storeRes (rawn params (rawCountOperand n) s))

/-- `BINN nb, B` as a command (R141, R227). -/
def execBinn (nb : BitVec 3) (base : BitVec 9) (s : State) : Host.Outcome State Fault Refusal :=
  dispatch (.binn nb base) s
    (storeRes (binn params (treeBitsOperand nb) (treeBaseOperand base) s))

end Sys2Proof.Machine
end

