-- ==== Sys2Proof/Machine/SymbolModel.lean ====
section
/-! DEFINITION. The quasi-MTF symbol model (`spec/43_symbol_model.md`): `RANKDEC`, `MTFROT`, `SYMDEC`. -/

namespace Sys2Proof.Machine

/-- The ladder of bands of `RANKDEC` (R183): `left` bands from band `j` on; the marker's rank 256 when none
is taken. -/
def bandLadder (p : Params) (left j : Nat) (s : State) : Res Nat :=
  match left with
  | 0 => .ok 256 s
  | left + 1 =>
    (zpctx p (band p j) s).bind fun b s =>
      if b then (binn p j (band p j + 1) s).bind fun t s => .ok (2 ^ j + t) s
      else bandLadder p left (j + 1) s

/-- `RANKDEC(cid)` (R183). -/
def rankdec (p : Params) (cid : Nat) (s : State) : Res Nat :=
  (zpctx p cid s).bind fun b s =>
    if b then .ok 0 s
    else
      (zpctx p (rank1Context p cid) s).bind fun b s =>
        if b then .ok 1 s else bandLadder p 7 1 s

/-- The first loop of `MTFROT` (R185): ranks 4 and above, a plain shift. It leaves `k = min(r, 3)`. -/
def mtfShift (k : Nat) (mtf : Vector Byte 256) : Vector Byte 256 :=
  match k with
  | 0 => mtf
  | k + 1 => if FREQMAX ≤ k + 1 then mtfShift k (tablePut mtf (k + 1) (tableGet mtf k)) else mtf

/-- The second loop of `MTFROT` (R185): the walk ordered by frequency, with the tie-break `>=` (R187). It
returns the place found. -/
def mtfWalk (fc : Word32) (k : Nat) (mtf : Vector Byte 256) (freq : Vector Word32 4) :
    Nat × Vector Byte 256 × Vector Word32 4 :=
  match k with
  | 0 => (0, mtf, freq)
  | k + 1 =>
    if (tableGet freq k).toNat ≤ fc.toNat then
      mtfWalk fc k (tablePut mtf (k + 1) (tableGet mtf k)) (tablePut freq (k + 1) (tableGet freq k))
    else (k + 1, mtf, freq)

/-- The increment and the rescaling of `MTFROT` (R185, R189): the new `fadd` and `freq`. -/
def rescale (p : Params) (b : Block) : Word32 × Vector Word32 4 :=
  let fadd := trunc32 (b.fadd.toNat + b.fadd.toNat / 2 ^ b.fshift.toNat)
  if p.faddCeil.toNat < fadd.toNat then (fadd >>> p.fscale, b.freq.map fun f : Word32 => f >>> p.fscale)
  else (fadd, b.freq)

/-- The new estimate `fc` of `MTFROT` (R185): `fadd`, and for ranks below 4 the old estimate added. -/
def newEstimate (r : Nat) (fadd : Word32) (freq : Vector Word32 4) : Word32 :=
  if r < FREQMAX then trunc32 (fadd.toNat + (tableGet freq r).toNat) else fadd

/-- `MTFROT(r, c)` (R185). -/
def mtfrot (p : Params) (r : Nat) (c : Byte) (b : Block) : Block :=
  let (fadd, freq) := rescale p b
  let fc := newEstimate r fadd freq
  let (k, mtf, freq) := mtfWalk fc (min r 3) (mtfShift r b.mtf) freq
  { b with fadd := fadd, mtf := tablePut mtf k c, freq := tablePut freq k fc }

/-- The marker's part of `SYMDEC` (R184). -/
def markPosition (b : Block) : Block :=
  { b with
    data := Memory.write b.data b.i.toNat (tableGet b.mtf 0)
    markerpos := b.i
    mcount := countMarker b.mcount }

/-- The part of `SYMDEC` for a rank below 256 (R182). -/
def placeSymbol (p : Params) (r : Nat) (b : Block) : Block :=
  let c := tableGet b.mtf r
  mtfrot p r c { b with data := Memory.write b.data b.i.toNat c }

/-- `SYMDEC` once the rank is decoded (R182), up to `i <- i + 1`. -/
def takeRank (p : Params) (r : Nat) (b : Block) : Block :=
  let b := { b with mtfno := BitVec.ofNat 9 r }
  let b := if r = 256 then markPosition b else placeSymbol p r b
  { b with i := b.i + 1 }

/-- `SYMDEC` (R182). -/
def symdec (p : Params) (s : State) : Res Unit :=
  (rankdec p (contextId p s) s).bind fun r s =>
    if MAXSIZE ≤ s.blk.i.toNat then .stop (.indexOutOfSpace .data)
    else
      let b := takeRank p r s.blk
      .ok () ((s.setBlk b).setSt (if b.i.toNat = b.size.toNat then .ranked else s.st))

/-- `SYMDEC` as a command (R182, R227). -/
def execSymdec (s : State) : Host.Outcome State Fault Refusal :=
  dispatch .symdec s (symdec params s)

end Sys2Proof.Machine
end

