-- ==== Sys2Proof/Machine/InverseBwt.lean ====
section
/-! DEFINITION. The inverse-BWT reconstructor (`spec/44_inverse_bwt.md`): the five passes of `IBWT`. -/

namespace Sys2Proof.Machine

/-- The zero fill of pass 2 (R203): `posn[0..n-1] <- 0`. -/
def zeroFill (n : Nat) (posn : Memory 32) : Memory 32 :=
  match n with
  | 0 => posn
  | n + 1 => Memory.write (zeroFill n posn) n 0

/-- The packed value of a position (R201, R203): the byte in bits 31:24, its running count below. -/
def packed (c : Byte) (running : Word32) : Word32 :=
  trunc32 (c.toNat * 2 ^ 24 + running.toNat % 2 ^ 24)

/-- The byte of a packed value, bits 31:24 (R40, R205). -/
def packedByte (n : Word32) : Byte := n.extractLsb' 24 8

/-- The running count of a packed value, bits 23:0 (R40, R205). -/
def packedCount (n : Word32) : Nat := n.toNat % 2 ^ 24

/-- Pass 2 at one position (R203); `data` is read through `byteAt`. -/
def countPosition (byteAt : Nat → Byte) (marker k : Nat) (t : Memory 32 × Vector Word32 256) :
    Memory 32 × Vector Word32 256 :=
  if k = marker then t
  else
    let c := byteAt k
    let seen := tableGet t.2 c.toNat
    (Memory.write t.1 k (packed c seen), tablePut t.2 c.toNat (seen + 1))

/-- Pass 2 over the positions `0..n-1` in ascending order, the marker's skipped (R203). -/
def countPass (byteAt : Nat → Byte) (marker n : Nat) (t : Memory 32 × Vector Word32 256) :
    Memory 32 × Vector Word32 256 :=
  match n with
  | 0 => t
  | n + 1 => countPosition byteAt marker n (countPass byteAt marker n t)

/-- Pass 3 over the byte values `0..n-1` (R204): the table and the running offset `last`. -/
def prefixPass (n : Nat) (t : Vector Word32 256 × Nat) : Vector Word32 256 × Nat :=
  match n with
  | 0 => t
  | n + 1 =>
    let u := prefixPass n t
    (tablePut u.1 n (trunc32 u.2), u.2 + (tableGet u.1 n).toNat)

/-- Pass 4, the undo walk (R205): `last` bytes are still to be stored; the final pointer and `data`. -/
def undoWalk (packedAt : Nat → Word32) (base : Vector Word32 256) (last ptr : Nat)
    (data : List Host.Cell) : Nat × List Host.Cell :=
  match last with
  | 0 => (ptr, data)
  | last + 1 =>
    let n := packedAt ptr
    let c := packedByte n
    undoWalk packedAt base last ((tableGet base c.toNat).toNat + packedCount n)
      (Memory.write data last c)

/-- Passes 2 to 4 (R203 to R205) on the block registers. -/
def reconstruct (s : State) : State :=
  let size := s.blk.size.toNat
  let t := countPass s.dataRead s.blk.markerpos.toNat size
    (zeroFill size s.blk.posn, Vector.replicate 256 0)
  let base := (prefixPass 256 (t.2, 1)).1
  let u := undoWalk (Memory.read .posn s.resetCount t.1) base (size - 1) 0 s.blk.data
  s.setBlk { s.blk with
    posn := t.1
    count := base
    data := u.2
    last := 0
    ptr := BitVec.ofNat 23 u.1 }

/-- Pass 1, the first test (R202): the marker count is not exactly 1. -/
def markerCountBad (p : Params) (b : Block) : Bool := p.strictSingleMarker && b.mcount != 1

/-- Pass 1, the second test (R202): `markerpos` is not in `[1, size)`. -/
def markerPlaceBad (b : Block) : Bool :=
  decide (b.markerpos.toNat < 1 ∨ b.size.toNat ≤ b.markerpos.toNat)

/-- `IBWT` (R201). -/
def ibwt (p : Params) (s : State) : Res Unit :=
  if markerCountBad p s.blk then .raise .corruptBlock 1 s
  else if markerPlaceBad s.blk then .raise .corruptBlock 2 s
  else if MAXSIZE < s.blk.size.toNat then .stop (.indexOutOfSpace .posn)
  else
    let t := reconstruct s
    if t.blk.ptr != t.blk.markerpos then .raise .corruptBlock 3 t
    else .ok () (t.setSt .recon)

/-- `IBWT` as a command (R201, R227). -/
def execIbwt (s : State) : Host.Outcome State Fault Refusal :=
  dispatch .ibwt s (ibwt params s)

end Sys2Proof.Machine
end

