-- ==== Sys2Proof/Machine/Orchestrator.lean ====
section
/-! DEFINITION. The block-stream orchestrator (`spec/45_orchestrator.md`): `BLKHDR`, `EMIT`, `BLOCK`, `RUN`,
`NOP`, `SRESET`. -/

namespace Sys2Proof.Machine

/-- The unary estimation-speed field (R83, R221). -/
def fshiftUnary (p : Params) (s : State) : Res Nat :=
  (zpraw p s).bind fun b s =>
    if b then (zpraw p s).bind fun b s => .ok (1 + b.toNat) s else .ok 0 s

/-- The estimation-speed field (R83, R221). -/
def fshiftField (p : Params) (s : State) : Res Nat :=
  if p.fshiftUnary then fshiftUnary p s else rawn p 2 s

/-- The identity RankTable (R38, R221). -/
def identityMtf : Vector Byte 256 := Vector.ofFn fun k => BitVec.ofNat 8 k

/-- The block registers `BLKHDR` initialises (R221). -/
def freshBlock (p : Params) (f : Nat) (b : Block) : Block :=
  { b with
    fshift := BitVec.ofNat 2 f
    mtf := identityMtf
    freq := Vector.replicate 4 0
    fadd := p.faddInit
    mtfno := p.mtfnoInit
    markerpos := 0
    mcount := 0
    i := 0 }

/-- `BLKHDR` (R221). -/
def blkhdr (p : Params) (s : State) : Res Unit :=
  (rawn p 24 s).bind fun v s =>
    let s := s.setBlk { s.blk with size := BitVec.ofNat 24 v }
    if v = 0 then .ok () (s.setSt .done)
    else if MAXSIZE < v then .raise .blockTooLarge (BitVec.ofNat 32 v) s
    else
      (fshiftField p s).bind fun f s =>
        .ok () ((s.setBlk (freshBlock p f s.blk)).setSt .block)

/-- The loop of `EMIT` (R222): `n` bytes `data[0..n-1]` appended at `olen`. -/
def appendBytes (byteAt : Nat → Byte) (n olen : Nat) (omem : List Host.Cell) : List Host.Cell :=
  match n with
  | 0 => omem
  | n + 1 => Memory.write (appendBytes byteAt n olen omem) (olen + n) (byteAt n)

/-- `EMIT` (R222). An output that would pass `2^32 - 1` bytes is refused (U6, R44). -/
def emit (s : State) : Res Unit :=
  let n := s.blk.size.toNat - 1
  if MAXSIZE < n then .stop (.indexOutOfSpace .data)
  else if 2 ^ 32 ≤ s.olen.toNat + n then .refuse .outputTooLong
  else
    .ok () { s with
      omem := appendBytes s.dataRead n s.olen.toNat s.omem
      olen := BitVec.ofNat 32 (s.olen.toNat + n)
      st := .ready }

/-- The loop `while st = BLOCK: call SYMDEC` of `BLOCK` (R223), at most `n` times round. -/
def symdecLoop (p : Params) (n : Nat) (s : State) : Res Unit :=
  match n with
  | 0 => .ok () s
  | n + 1 =>
    if s.st = .block then (symdec p s).bind fun _ s => symdecLoop p n s else .ok () s

/-- `BLOCK` (R223): after `BLKHDR` with `size > 0`, exactly `size` positions. -/
def block (p : Params) (s : State) : Res Unit :=
  (blkhdr p s).bind fun _ s =>
    if s.st = .done then .ok () s
    else
      (symdecLoop p s.blk.size.toNat s).bind fun _ s =>
      (ibwt p s).bind fun _ s => emit s

/-- The loop `while st = READY: call BLOCK` of `RUN` (R224), at most `n` times round. -/
def blockLoop (p : Params) (n : Nat) (s : State) : Res Unit :=
  match n with
  | 0 => .ok () s
  | n + 1 =>
    if s.st = .ready then (block p s).bind fun _ s => blockLoop p n s else .ok () s

/-- How often the loop of `RUN` can go round at most (R237): each block header takes at least 24 of the
`8 * (LEN + GRACE + 1)` bits a session can be given, so after this many rounds `st` is not `READY`. -/
def blockBound (p : Params) (s : State) : Nat := 8 * (s.len.toNat + p.grace.toNat + 1) / 24 + 1

/-- `RUN` (R224). -/
def run (p : Params) (s : State) : Res Unit :=
  (dinit p s).bind fun _ s => blockLoop p (blockBound p s) s

/-- `NOP` (R225): it changes nothing in any state. -/
def execNop (s : State) : Host.Outcome State Fault Refusal := .next s

/-- `SRESET` as a command (R226): legal in every state, `DONE` and `FAULT` included. -/
def execSreset (s : State) : Host.Outcome State Fault Refusal := .next (softReset s)

/-- `BLKHDR` as a command (R221, R227). -/
def execBlkhdr (s : State) : Host.Outcome State Fault Refusal :=
  dispatch .blkhdr s (blkhdr params s)

/-- `EMIT` as a command (R222, R227). -/
def execEmit (s : State) : Host.Outcome State Fault Refusal :=
  dispatch .emit s (emit s)

/-- `BLOCK` as a command (R223, R227). -/
def execBlock (s : State) : Host.Outcome State Fault Refusal :=
  dispatch .block s (block params s)

/-- `RUN` as a command (R224, R227). -/
def execRun (s : State) : Host.Outcome State Fault Refusal :=
  dispatch .run s (run params s)

end Sys2Proof.Machine
end

