-- ==== Sys2Proof/Machine/Dispatch.lean ====
section
/-! DEFINITION. The meaning of every command, one arm each (`spec/30_encoding.md` rule R97). -/

namespace Sys2Proof.Machine

def exec (i : Instr) (s : State) : Host.Outcome State Fault Refusal :=
  match i with
  | .nop => Sys2Proof.Machine.execNop s
  | .sreset => Sys2Proof.Machine.execSreset s
  | .dinit => Sys2Proof.Machine.execDinit s
  | .preload => Sys2Proof.Machine.execPreload s
  | .zpraw => Sys2Proof.Machine.execZpraw s
  | .zpctx c => Sys2Proof.Machine.execZpctx c s
  | .rawn n => Sys2Proof.Machine.execRawn n s
  | .binn nb base => Sys2Proof.Machine.execBinn nb base s
  | .blkhdr => Sys2Proof.Machine.execBlkhdr s
  | .symdec => Sys2Proof.Machine.execSymdec s
  | .ibwt => Sys2Proof.Machine.execIbwt s
  | .emit => Sys2Proof.Machine.execEmit s
  | .block => Sys2Proof.Machine.execBlock s
  | .run => Sys2Proof.Machine.execRun s

end Sys2Proof.Machine
end

