-- ==== Sys2Proof/Machine/HostPort.lean ====
section
/-! DEFINITION. The host port: the ten host registers of `spec/10_state.md` rule R24 and what an access to
each does (R69, R72, R74, V4, V7, V8). -/

namespace Sys2Proof.Machine

/-- The host registers (R24). -/
inductive HostReg where
  | cmd | status | einfo | len | olen | res | iaddr | idata | oaddr | odata
  deriving DecidableEq, Repr

/-- The byte offset of a host register (R24). -/
def HostReg.offset (r : HostReg) : Nat :=
  match r with
  | .cmd => 0x00
  | .status => 0x04
  | .einfo => 0x08
  | .len => 0x0C
  | .olen => 0x10
  | .res => 0x14
  | .iaddr => 0x18
  | .idata => 0x1C
  | .oaddr => 0x20
  | .odata => 0x24

/-- The host register at a byte offset, if there is one (R24). -/
def hostRegAt (offset : Nat) : Option HostReg :=
  match offset with
  | 0x00 => some .cmd
  | 0x04 => some .status
  | 0x08 => some .einfo
  | 0x0C => some .len
  | 0x10 => some .olen
  | 0x14 => some .res
  | 0x18 => some .iaddr
  | 0x1C => some .idata
  | 0x20 => some .oaddr
  | 0x24 => some .odata
  | _ => none

/-- The register an access reaches: 32 bits wide, at the offset of a register (R69). -/
def hostTarget (offset bits : Nat) : Option HostReg := if bits = 32 then hostRegAt offset else none

/-- What a read of a host register returns (R24). -/
def hostValue (r : HostReg) (s : State) : Word32 :=
  match r with
  | .cmd => 0
  | .status => statusWord s
  | .einfo => s.einfo
  | .len => s.len
  | .olen => if s.st = .done then s.olen else 0
  | .res => s.res.setWidth 32
  | .iaddr => s.iaddr
  | .idata => 0
  | .oaddr => s.oaddr
  | .odata =>
    if s.st = .done ∧ s.oaddr.toNat < s.olen.toNat then (s.omemRead s.oaddr.toNat).setWidth 32 else 0

/-- A read of a host register (R24, R72): only `ODATA` has a side effect. -/
def hostRead (r : HostReg) (s : State) : State :=
  { s with
    rdata := hostValue r s
    oaddr := if r = .odata then s.oaddr + 1 else s.oaddr }

/-- A write of `IDATA` (R24): only while `st = RESET`; at or above `IN_CAP` the byte is dropped and `IADDR`
still moves. -/
def writeIdata (p : Params) (v : Word32) (s : State) : State :=
  if s.st = .reset then
    { s with
      imem := if s.iaddr.toNat < p.inCap.toNat then Memory.write s.imem s.iaddr.toNat (v.setWidth 8)
        else s.imem
      iaddr := s.iaddr + 1 }
  else s

/-- A write of a host register other than `CMD` (R24, V8): a read-only register ignores it. -/
def hostWrite (p : Params) (r : HostReg) (v : Word32) (s : State) : State :=
  match r with
  | .cmd => s
  | .status => s
  | .einfo => s
  | .len => if s.st = .reset then { s with len := v } else s
  | .olen => s
  | .res => s
  | .iaddr => { s with iaddr := v }
  | .idata => writeIdata p v s
  | .oaddr => { s with oaddr := v }
  | .odata => s

/-- What the next event of the host asks of the block. -/
inductive Fetched where
  /-- The host has written a command word to `CMD`. -/
  | command (w : Word16) (s : State)
  /-- Anything else: what it comes to. -/
  | other (o : Host.Outcome State Fault Refusal)

/-- Perform one event of the host (R24, R69, R72), a write of `CMD` only as far as the command word:
bits 31:16 are ignored (V4). -/
def hostEvent (p : Params) (e : HostEvent) (s : State) : Fetched :=
  match e with
  | .read offset bits =>
    match hostTarget offset bits with
    | some r => .other (.next (hostRead r s))
    | none => .other (.refused (.hostAccess offset bits))
  | .write offset bits v =>
    match hostTarget offset bits with
    | some .cmd => .command (v.setWidth 16) s
    | some r => .other (.next (hostWrite p r v s))
    | none => .other (.refused (.hostAccess offset bits))
  | .powerOn => .other (.next (powerOn s))

/-- Take the host's next event; with none, the block waits and nothing changes (R76, R264). -/
def fetch (p : Params) (s : State) : Fetched :=
  match s.pend with
  | [] => .other (.next s)
  | e :: rest => hostEvent p e { s with pend := rest }

/-- The state whose next event is a write of the word `w` to `CMD`. -/
def placeCommand (w : Word16) (s : State) : State :=
  { s with pend := .write 0x00 32 (w.setWidth 32) :: s.pend }

end Sys2Proof.Machine
end

