-- ==== Sys2Proof/Machine/Step.lean ====
section
/-! DEFINITION. One step of the machine: the host's next event, performed to completion
(`spec/10_state.md` rule R24, `spec/20_memory.md` rule R76). -/

namespace Sys2Proof.Machine

/-- One step. A write of `CMD` dispatches its word (R227): a word the opcode map rejects is illegal, any other
is executed. -/
def step (s : State) : Host.Outcome State Fault Refusal :=
  match fetch params s with
  | .other o => o
  | .command w t =>
    match decode w with
    | .ok i => exec i t
    | .error _ => .next (rejectWord w t)

/-- The state in which the host's next event is a write to `CMD` of the command whose `nbits` bits are `w`
(bits above are 0); the events already pending follow it. -/
def State.withFetchWord (s : State) (nbits w : Nat) : State :=
  placeCommand (BitVec.ofNat 16 (w % 2 ^ nbits)) s

end Sys2Proof.Machine
end

