-- ==== Sys2Proof/Safety.lean ====
section
/-! DEFINITION. The terms in which claims about the machine are made: the invariants the spec gives
(`spec/10_state.md` rule R32, `spec/70_reset_and_hazards.md` rule R282), the input stream as the Bit Source
delivers it, and the notions of `spec/44_inverse_bwt.md` that do not mention the machine. -/

namespace Sys2Proof.Machine

/-- The states of a decode session between operations (R32): `READY`, `BLOCK`, `RANKED`, `RECON`. -/
abbrev InSession (st : SeqState) : Prop := st = .ready ∨ st = .block ∨ st = .ranked ∨ st = .recon

/-- The states in which a block is being decoded: its header has been read and it is not yet appended. -/
abbrev InBlock (st : SeqState) : Prop := st = .block ∨ st = .ranked ∨ st = .recon

/-- The invariants of the coder between operations of a session (R32). -/
abbrev CoderInv (s : State) : Prop :=
  s.coder.a.toNat < 0x8000 ∧ s.coder.fence.toNat = min s.coder.code.toNat 0x7FFF ∧
    16 ≤ s.coder.scount.toNat ∧ s.coder.scount.toNat ≤ 32 ∧
    s.coder.rp.toNat ≤ s.len.toNat ∧ 1 ≤ s.coder.delay.toNat

/-- The RankTable holds no byte value twice, so it is a permutation of 0..255 (R38, R191). -/
abbrev MtfPermutes (b : Block) : Prop :=
  ∀ j < 256, ∀ k < 256, tableGet b.mtf j = tableGet b.mtf k → j = k

/-- Entry `k` of a memory has been written (R282). -/
abbrev Written {w : Nat} (m : Memory w) (k : Nat) : Prop := (m.lookup k).isSome

/-- What holds of every reachable state between steps. -/
structure Inv (s : State) : Prop where
  /-- Every memory has its canonical form and lists existing entries only (R60). -/
  imem_wf : Memory.wf s.imem
  omem_wf : Memory.wf s.omem
  data_wf : Memory.wf s.blk.data
  posn_wf : Memory.wf s.blk.posn
  imem_exists : ∀ e ∈ s.imem, e.1 < params.inCap.toNat
  data_exists : ∀ e ∈ s.blk.data, e.1 < MAXSIZE
  posn_exists : ∀ e ∈ s.blk.posn, e.1 < MAXSIZE
  /-- The coder in a session (R32), on an input that fits the input memory (R45). -/
  coder : InSession s.st → CoderInv s
  launched : InSession s.st → s.len.toNat ≤ params.inCap.toNat
  /-- A fault code is held exactly in `FAULT` (R23, R250, R256), and no output then (R256). -/
  err_iff : s.st = .fault ↔ s.err ≠ .none
  fault_olen : s.st = .fault → s.olen = 0
  /-- The positions of the block (R21, R22, R34). -/
  size_le : InBlock s.st → s.blk.size.toNat ≤ MAXSIZE
  block_pos : s.st = .block → s.blk.i.toNat < s.blk.size.toNat
  ranked_pos : s.st = .ranked → 0 < s.blk.size.toNat ∧ s.blk.i.toNat = s.blk.size.toNat
  /-- A reconstructed block has one marker, in `[1, size)`, and the walk ended on it (R202, R206). -/
  recon_marker : s.st = .recon → s.blk.mcount.toNat = 1 ∧ 1 ≤ s.blk.markerpos.toNat ∧
    s.blk.markerpos.toNat < s.blk.size.toNat ∧ s.blk.ptr = s.blk.markerpos
  /-- The ranges of the block registers (R35, R37) and the RankTable (R191). -/
  fshift_le : s.blk.fshift.toNat ≤ 2
  mtfno_le : s.blk.mtfno.toNat ≤ 256
  mcount_le : s.blk.mcount.toNat ≤ 2
  mtf_permutes : InBlock s.st → MtfPermutes s.blk
  /-- Entries are written before they are read (R282). -/
  data_written : InBlock s.st → ∀ k < s.blk.i.toNat, Written s.blk.data k
  recon_written : s.st = .recon → s.blk.i.toNat = s.blk.size.toNat
  omem_written : ∀ k < s.olen.toNat, Written s.omem k

/-- The byte the Bit Source delivers for position `k` of the input: a real byte below `LEN`, a phantom 0xFF at
or past it (R111). -/
def streamByte (s : State) (k : Nat) : Byte := if k < s.len.toNat then s.imemRead k else 0xFF

/-- The Bit Source can deliver `n` more counted bytes without running out (R111, R115), on an input that fits
the input memory. -/
abbrev Supplied (p : Params) (n : Nat) (s : State) : Prop :=
  s.coder.rp.toNat ≤ s.len.toNat ∧ s.len.toNat ≤ p.inCap.toNat ∧
    n < s.len.toNat - s.coder.rp.toNat + s.coder.delay.toNat

/-- A 32-bit register after `n` bytes, `f 0` first, have been shifted in at its low end (R112). -/
def shiftedIn (v : Word32) (f : Nat → Byte) (n : Nat) : Word32 :=
  match n with
  | 0 => v
  | n + 1 => BitVec.ofNat 32 ((shiftedIn v f n).toNat * 256 + (f n).toNat)

/-- The coder registers `c` of state `s` after `n` counted bytes (R111, R112): the real ones move `rp`, the
phantom ones count `delay` down. -/
def pulled (s : State) (c : Coder) (n : Nat) : Coder :=
  let real := min n (s.len.toNat - c.rp.toNat)
  { c with
    buf := shiftedIn c.buf (fun k => streamByte s (c.rp.toNat + k)) n
    scount := BitVec.ofNat 6 (c.scount.toNat + 8 * n)
    rp := BitVec.ofNat 32 (c.rp.toNat + real)
    delay := BitVec.ofNat 8 (c.delay.toNat - (n - real)) }

/-- How many bytes `PRELOAD` pulls (R112): until more than 24 bits are valid. -/
def refillBytes (scount : Nat) : Nat := if scount ≤ 24 then (32 - scount) / 8 else 0

/-- The coder registers after a renormalisation has left them as `c` (R132, R134): refilled if fewer than 16
bits are valid, and `fence` recomputed. -/
def settled (s : State) (c : Coder) : Coder :=
  let d := if c.scount.toNat < 16 then pulled s c (refillBytes c.scount.toNat) else c
  { d with fence := BitVec.ofNat 16 (min c.code.toNat 0x7FFF) }

/-- The coder registers a renormalisation by `n` bits makes of `c` before the refill (R132, R134): `a1` and `c1`
are shifted left, and the next `n` bits of the lookahead buffer enter `code`. -/
def shifted (c : Coder) (a1 c1 n : Nat) : Coder :=
  { c with
    a := BitVec.ofNat 16 (a1 * 2 ^ n)
    code := BitVec.ofNat 16 (c1 * 2 ^ n + c.buf.toNat / 2 ^ (c.scount.toNat - n) % 2 ^ n)
    scount := BitVec.ofNat 6 (c.scount.toNat - n) }

/-- The bit scan `FFZ` must match (R131): the least `n` such that `n = 16` or bit `15 - n` of `x` is 0. -/
def leadingOnes (x : Word16) : Nat :=
  ((List.range 16).find? fun n => x.getLsbD (15 - n) = false).getD 16

/-- Counted bytes and bits: eight times the bytes the Bit Source delivered from `s` to `t`, plus what the
lookahead buffer lost: the input bits consumed (R144). -/
def bitsConsumed (s t : State) : Int :=
  8 * (((t.coder.rp.toNat : Int) - s.coder.rp.toNat) + ((s.coder.delay.toNat : Int) - t.coder.delay.toNat)) +
    ((s.coder.scount.toNat : Int) - t.coder.scount.toNat)

/-- Perform commands one after the other, each on the state the one before left; stop at the first that
does not answer a next state. -/
def execAll (is : List Instr) (s : State) : Host.Outcome State Fault Refusal :=
  match is with
  | [] => .next s
  | i :: rest =>
    match exec i s with
    | .next t => execAll rest t
    | .fault f => .fault f
    | .refused r => .refused r

/-- The outcome of a command, with `res` at `v`. -/
def withRes (v : BitVec 24) (o : Host.Outcome State Fault Refusal) : Host.Outcome State Fault Refusal :=
  match o with
  | .next t => .next { t with res := v }
  | .fault f => .fault f
  | .refused r => .refused r

/-- What a decision command came to: the value it left in `res` and the state, or, where it did not leave `READY`
behind (a fault was taken, the machine stopped), its outcome as it is. -/
def decisionOutcome (o : Host.Outcome State Fault Refusal) :
    Except (Host.Outcome State Fault Refusal) (Nat × State) :=
  match o with
  | .next t => if t.st = .ready then .ok (t.res.toNat, t) else .error o
  | .fault _ => .error o
  | .refused _ => .error o

/-- Perform `ZPRAW` as a command `n` times and collect the bits below `v`, the first the most significant (R67,
R82); where a command ends the sequence, its outcome. -/
def rawCommands (n v : Nat) (s : State) : Except (Host.Outcome State Fault Refusal) (Nat × State) :=
  match n with
  | 0 => .ok (v, s)
  | n + 1 =>
    match decisionOutcome (exec .zpraw s) with
    | .ok (b, t) => rawCommands n (2 * v + b) t
    | .error o => .error o

/-- Perform `ZPCTX` as a command `nb` times along the tree rooted at context `base` (R85), from the node `n`; where a
command ends the walk, its outcome. -/
def treeCommands (base nb n : Nat) (s : State) : Except (Host.Outcome State Fault Refusal) (Nat × State) :=
  match nb with
  | 0 => .ok (n, s)
  | nb + 1 =>
    match decisionOutcome (exec (.zpctx (BitVec.ofNat 9 (base + n - 1))) s) with
    | .ok (b, t) => treeCommands base nb (2 * n + b) t
    | .error o => .error o

/-- The estimation-speed field (R83, R221) as `ZPRAW` commands: 0, 10 or 11 for 0, 1 or 2. -/
def speedCommands (s : State) : Except (Host.Outcome State Fault Refusal) (Nat × State) :=
  match rawCommands 1 0 s with
  | .error o => .error o
  | .ok (b, t) =>
    if b = 1 then
      match rawCommands 1 0 t with
      | .error o => .error o
      | .ok (c, u) => .ok (1 + c, u)
    else .ok (0, t)

/-- The next block of the stream would take the output past `2^32 - 1` bytes (U6, R44): its header, its positions and
its reconstruction complete, and `olen` cannot hold `size - 1` bytes more. -/
def NextBlockOverflows (s : State) : Prop :=
  ∃ t, execAll (.blkhdr :: (List.replicate t.blk.size.toNat .symdec ++ [.ibwt])) s = .next t ∧
    t.st = .recon ∧ t.olen = s.olen ∧ t.blk.size.toNat ≤ 4194304 ∧
    2 ^ 32 ≤ s.olen.toNat + (t.blk.size.toNat - 1)

/-- How many of the positions `0..n-1` other than the marker's satisfy `q` (R203, R204). -/
def countPositions (marker n : Nat) (q : Nat → Bool) : Nat :=
  (List.range n).countP fun k => decide (k ≠ marker) && q k

/-- Where the undo walk goes from position `k` (R203 to R206), from the data alone: `1 +` the positions holding a
smaller byte `+` the earlier positions holding the same byte; the marker's slot counts as byte 0, count 0. -/
def walkNext (byteAt : Nat → Byte) (marker size k : Nat) : Nat :=
  if k = marker then 1
  else
    1 + countPositions marker size (fun j => decide ((byteAt j).toNat < (byteAt k).toNat)) +
      countPositions marker k (fun j => decide (byteAt j = byteAt k))

/-- The position the walk has reached after `n` steps from position 0 (R205). -/
def walkAt (byteAt : Nat → Byte) (marker size n : Nat) : Nat :=
  match n with
  | 0 => 0
  | n + 1 => walkNext byteAt marker size (walkAt byteAt marker size n)

/-- The byte the walk emits at position `k` (R205, R206). -/
def walkByte (byteAt : Nat → Byte) (marker k : Nat) : Byte := if k = marker then 0 else byteAt k

/-- `data` and `marker` are the Burrows-Wheeler transform of the bytes `x` (R210): the suffixes of `x`, the empty
one among them, stand in the order of their bytes, a suffix before every longer one it begins (the
end-of-block symbol sorts lowest); row `k` of the order holds the byte before its suffix; the whole of `x`,
which has none, stands at row `marker`. `start k` is where the suffix of row `k` begins. -/
def IsTransform (x : List Byte) (byteAt : Nat → Byte) (marker : Nat) : Prop :=
  ∃ start : Nat → Nat,
    (∀ k ≤ x.length, start k ≤ x.length) ∧
    (∀ j ≤ x.length, ∀ k ≤ x.length, j < k →
      List.Lex (fun u v : Byte => u.toNat < v.toNat) (x.drop (start j)) (x.drop (start k))) ∧
    marker ≤ x.length ∧ start marker = 0 ∧
    (∀ k ≤ x.length, k ≠ marker → byteAt k = x.getD (start k - 1) 0)

/-- The states, other than `DONE` and `FAULT`, in which the sequencer accepts a command (R236). -/
def acceptedStates (i : Instr) : List SeqState :=
  match i with
  | .nop => [.reset, .ready, .block, .ranked, .recon]
  | .sreset => [.reset, .ready, .block, .ranked, .recon, .done, .fault]
  | .dinit => [.reset]
  | .preload => [.ready]
  | .zpraw => [.ready]
  | .zpctx _ => [.ready]
  | .rawn _ => [.ready]
  | .binn _ _ => [.ready]
  | .blkhdr => [.ready]
  | .symdec => [.block]
  | .ibwt => [.ranked]
  | .emit => [.recon]
  | .block => [.ready]
  | .run => [.reset]

/-- The commands that return a value in `res` (R43, R227). -/
def returnsValue (i : Instr) : Bool :=
  match i with
  | .zpraw => true
  | .zpctx _ => true
  | .rawn _ => true
  | .binn _ _ => true
  | _ => false

/-- The commands that read the stream (R251), and so may raise `TruncatedStream`. -/
def readsStream (i : Instr) : Bool :=
  match i with
  | .nop => false
  | .sreset => false
  | .ibwt => false
  | .emit => false
  | _ => true

/-- The commands that write block registers (R34 to R42). -/
def writesBlock (i : Instr) : Bool :=
  match i with
  | .blkhdr => true
  | .symdec => true
  | .ibwt => true
  | .block => true
  | .run => true
  | _ => false

/-- The commands that append to the output (R44). -/
def appendsOutput (i : Instr) : Bool :=
  match i with
  | .emit => true
  | .block => true
  | .run => true
  | _ => false

/-- The commands that set the output length (R44): the start of a session and those that append. -/
def writesOlen (i : Instr) : Bool :=
  match i with
  | .dinit => true
  | .emit => true
  | .block => true
  | .run => true
  | _ => false

/-- The row of `spec/opcode_table.json` of a command: match and mask (R97). -/
def tableRow (i : Instr) : Word16 × Word16 :=
  match i with
  | .nop => (0x0000, 0xFFFF)
  | .sreset => (0x1000, 0xFFFF)
  | .dinit => (0x2000, 0xFFFF)
  | .preload => (0x3000, 0xFFFF)
  | .zpraw => (0x4000, 0xFFFF)
  | .zpctx _ => (0x5000, 0xFE00)
  | .rawn _ => (0x6000, 0xFFE0)
  | .binn _ _ => (0x7000, 0xF000)
  | .blkhdr => (0x8000, 0xFFFF)
  | .symdec => (0x9000, 0xFFFF)
  | .ibwt => (0xA000, 0xFFFF)
  | .emit => (0xB000, 0xFFFF)
  | .block => (0xC000, 0xFFFF)
  | .run => (0xD000, 0xFFFF)

/-- A command word that is illegal (R98), by the arithmetic of its fields: the reserved opcodes, a field that
must be 0 and is not, an operand out of the range of R99. -/
abbrev IllegalWord (w : Nat) : Prop :=
  let op := w / 4096
  let nb := w / 512 % 8
  let arg := w % 512
  14 ≤ op ∨
  ((op ≤ 4 ∨ 8 ≤ op) ∧ (nb ≠ 0 ∨ arg ≠ 0)) ∨
  (op = 5 ∧ (nb ≠ 0 ∨ 299 < arg)) ∨
  (op = 6 ∧ (nb ≠ 0 ∨ arg / 32 ≠ 0 ∨ arg % 32 = 0 ∨ 24 < arg % 32)) ∨
  (op = 7 ∧ (nb = 0 ∨ 299 < arg + 2 ^ nb - 2))

/-- The decisions of a rank, in order, each with its context and the bit that is decoded (R84, R85, R86, with
three context ids): two decisions selected by `cid`, one for each band up to the rank's, then the tree. -/
def rankPath (cid r : Nat) : List (Nat × Bool) :=
  if r = 0 then [(cid, true)]
  else if r = 1 then [(cid, false), (3 + cid, true)]
  else if r = 256 then
    (cid, false) :: (3 + cid, false) :: [6, 8, 12, 20, 36, 68, 132].map fun c => (c, false)
  else
    let j := Nat.log2 r
    (cid, false) :: (3 + cid, false) ::
      ((List.range (j - 1)).map fun k => (4 + 2 ^ (k + 1), false)) ++
      (4 + 2 ^ j, true) ::
      (List.range j).map fun k => (4 + 2 ^ j + r / 2 ^ (j - k), r.testBit (j - 1 - k))

/-- Decode the decisions of a path with `ZPCTX` (R135); none where a decision has another bit than the path's. -/
def decisionsAlong (p : Params) (path : List (Nat × Bool)) (s : State) : Option State :=
  match path with
  | [] => some s
  | (c, b) :: rest =>
    match zpctx p c s with
    | .ok x t => if x = b then decisionsAlong p rest t else none
    | .raise _ _ _ => none
    | .stop _ => none
    | .refuse _ => none

/-- What a read of the host register at a byte offset returns (R24). -/
def registerReads (offset : Nat) (s : State) : Option Word32 :=
  match offset with
  | 0x00 => some 0
  | 0x04 => some (BitVec.ofNat 32
      (s.st.code.toNat + 8 * s.err.code.toNat + 64 * (if s.st = .done then 1 else 0)))
  | 0x08 => some s.einfo
  | 0x0C => some s.len
  | 0x10 => some (if s.st = .done then s.olen else 0)
  | 0x14 => some (BitVec.ofNat 32 s.res.toNat)
  | 0x18 => some s.iaddr
  | 0x1C => some 0
  | 0x20 => some s.oaddr
  | 0x24 => some (if s.st = .done ∧ s.oaddr.toNat < s.olen.toNat then
      BitVec.ofNat 32 (s.omemRead s.oaddr.toNat).toNat else 0)
  | _ => none

end Sys2Proof.Machine
end

