-- ==== Sys2Proof/Certificates/Slice0/Obligations.lean ====
section
/-! DEFINITION. The statements for the provers. Each docstring names the rule of the spec a statement
formalises; `spec/` is the only authority, and a clause that rests on a choice of the model names its log
entry. The parameters of `exec` and `step` are the defaults of `spec/00_scope.md` rule R7 (log entry 3), the
tables and `IN_CAP` are open (log entry 4). -/

open Sys2Proof Sys2Proof.Machine

/-! ### Encoding -/

/-- Decode and encode agree (R95, R97, R100): the decoder reads every command, with every operand its fields
can hold, back from its word. -/
def Obligations.DecodeInvertsEncode : Prop :=
  ∀ i : Instr, decode (encode i) = .ok i

/-- No bit of a command word is dropped (R95, R97): a word the decoder accepts is the word of the command
it reads. -/
def Obligations.EncodeInvertsDecode : Prop :=
  ∀ (w : Word16) (i : Instr), decode w = .ok i → encode i = w

/-- The opcode map (R97): the decoder accepts a word exactly when a row's match and mask do, and reads a command
of that row. -/
def Obligations.DecodeFollowsTheOpcodeTable : Prop :=
  (∀ (w : Word16) (i : Instr), decode w = .ok i → w &&& (tableRow i).2 = (tableRow i).1) ∧
  (∀ (w : Word16) (i : Instr), w &&& (tableRow i).2 = (tableRow i).1 →
    ∃ j, decode w = .ok j ∧ tableRow j = tableRow i)

/-- Words the spec itself writes out (R99, R100, R254, `spec/95_test_vectors.md` T86) decode to the commands it
says, or are refused by name. -/
def Obligations.WordsWrittenInTheSpecDecode : Prop :=
  decode 0x5005 = .ok (.zpctx 5) ∧ decode 0x6018 = .ok (.rawn 24) ∧ decode 0x760D = .ok (.binn 3 13) ∧
  decode 0xD000 = .ok .run ∧ decode 0x1000 = .ok .sreset ∧ decode 0x7C45 = .ok (.binn 6 69) ∧
  decode 0xE000 = .error .reservedOpcode ∧ decode 0xF123 = .error .reservedOpcode ∧
  decode 0x4001 = .error .fieldNotZero ∧ checkOperands (.zpctx 300) = .error .contextOutOfRange ∧
  checkOperands (.rawn 25) = .error .rawCountOutOfRange ∧
  checkOperands (.binn 7 174) = .error .treeOutOfRange ∧ checkOperands (.binn 7 133) = .ok ()

/-- Illegal command words (R98, R254): written in a state that is not terminal such a word raises `IllegalCmd`
with `einfo` = the word and changes nothing else; a word that is not illegal is a command with its operands
in range, whose dispatch never raises `IllegalCmd`. The write is an event of the model's queue (log entry 2). -/
def Obligations.IllegalWordsAloneRaiseIllegalCmd : Prop :=
  (∀ (s : State) (v : Word32) (rest : List HostEvent),
    s.pend = .write 0x00 32 v :: rest → s.st ≠ .done → s.st ≠ .fault →
    IllegalWord (v.setWidth 16 : Word16).toNat →
    step s = .next { s with
      pend := rest, err := .illegalCmd, einfo := (v.setWidth 16 : Word16).setWidth 32, olen := 0,
      st := .fault }) ∧
  (∀ w : Word16, ¬ IllegalWord w.toNat → ∃ i, decode w = .ok i ∧ i.wf = true ∧
    ∀ s t : State, s.err ≠ .illegalCmd → exec i s = .next t → t.err ≠ .illegalCmd)

/-! ### Dispatch and sequencing -/

/-- A step runs the decoded command: when the host's next event writes a word to `CMD` and the word decodes to
`i`, the step is `exec i` on the state without that event. Bits 31:16 of the write are ignored (R24, V4). That the host's
events stand in a queue is the model's choice (log entry 2). -/
def Obligations.StepRunsTheDecodedCommand : Prop :=
  ∀ (s : State) (v : Word32) (rest : List HostEvent) (i : Instr),
    s.pend = .write 0x00 32 v :: rest → decode (v.setWidth 16) = .ok i →
    step s = exec i { s with pend := rest }

/-- Terminal states (R257): in `DONE` and `FAULT` every command word other than `SRESET`, a command or not, is ignored:
nothing changes, the first fault stays; `SRESET` starts over. The host's event is used up (log entry 2). -/
def Obligations.TerminalStatesIgnoreCommands : Prop :=
  ∀ s : State, (s.st = .done ∨ s.st = .fault) →
    (∀ i : Instr, i ≠ .sreset → exec i s = .next s) ∧
    (∀ (v : Word32) (rest : List HostEvent), s.pend = .write 0x00 32 v :: rest →
      (v.setWidth 16 : Word16) ≠ 0x1000 → step s = .next { s with pend := rest }) ∧
    exec .sreset s = .next (softReset s) ∧ (softReset s).st = .reset ∧ (softReset s).err = .none

/-- `SeqError` (R255): a command in range, written in a state that does not accept it, enters `FAULT` with the
word as information and changes nothing else. -/
def Obligations.OutOfSequenceRaisesSeqError : Prop :=
  ∀ (i : Instr) (s : State), i.wf = true → s.st ≠ .done → s.st ≠ .fault → s.st ∉ acceptedStates i →
    exec i s = .next { s with
      err := .seqError, einfo := (encode i).setWidth 32, olen := 0, st := .fault }

/-- `IllegalCmd` comes first (R254, R258): a command whose operand is out of range raises it whatever the
state accepts, before anything changes. -/
def Obligations.OutOfRangeRaisesIllegalCmd : Prop :=
  ∀ (i : Instr) (s : State), i.wf = false → s.st ≠ .done → s.st ≠ .fault →
    exec i s = .next { s with
      err := .illegalCmd, einfo := (encode i).setWidth 32, olen := 0, st := .fault }

/-- The sequencer (R236): the state an accepted command leaves, for every command but `RUN`
(`RunAlwaysEnds`). Stated where the position counter has its range (R22). -/
def Obligations.SequencerTable : Prop :=
  ∀ (i : Instr) (s t : State), Inv s → s.st ∈ acceptedStates i → exec i s = .next t → t.st ≠ .fault →
    match i with
    | .nop => t = s
    | .sreset => t.st = .reset
    | .dinit => t.st = .ready
    | .preload => t.st = .ready
    | .zpraw => t.st = .ready
    | .zpctx _ => t.st = .ready
    | .rawn _ => t.st = .ready
    | .binn _ _ => t.st = .ready
    | .blkhdr => (0 < t.blk.size.toNat ∧ t.st = .block) ∨ (t.blk.size.toNat = 0 ∧ t.st = .done)
    | .symdec => (t.blk.i.toNat < t.blk.size.toNat ∧ t.st = .block) ∨
        (t.blk.i.toNat = t.blk.size.toNat ∧ t.st = .ranked)
    | .ibwt => t.st = .recon
    | .emit => t.st = .ready
    | .block => t.st = .ready ∨ t.st = .done
    | .run => True

/-- What a fault leaves for the host to read (R250, R251, R252, R253): the information word of each fault code and
the commands that raise it; no output is visible. -/
def Obligations.FaultInformation : Prop :=
  ∀ (i : Instr) (s t : State), Inv s → s.st ≠ .fault → exec i s = .next t → t.st = .fault →
    t.olen = 0 ∧
    match t.err with
    | .none => False
    | .truncatedStream => t.einfo = t.coder.rp ∧ t.coder.rp = t.len ∧ t.coder.delay = 0 ∧ readsStream i = true
    | .blockTooLarge => t.einfo.toNat = t.blk.size.toNat ∧ 4194305 ≤ t.einfo.toNat ∧
        t.einfo.toNat ≤ 16777215 ∧ (i = .blkhdr ∨ i = .block ∨ i = .run)
    | .corruptBlock => (t.einfo = 1 ∨ t.einfo = 2 ∨ t.einfo = 3) ∧ (i = .ibwt ∨ i = .block ∨ i = .run)
    | .illegalCmd => t.einfo = (encode i).setWidth 32 ∧ i.wf = false
    | .seqError => t.einfo = (encode i).setWidth 32 ∧ i.wf = true ∧ s.st ∉ acceptedStates i

/-- Fault entry (R256): it writes `err`, `einfo`, `olen` and `st`, and nothing else. -/
def Obligations.FaultEntryWritesFourRegisters : Prop :=
  ∀ (e : Err) (info : Word32) (s : State),
    faultEntry e info s = { s with err := e, einfo := info, olen := 0, st := .fault }

/-- Every register and memory of the spec has its writers and no other command writes it (R23, R24, R43 to R45, R50,
R61): the input memory and `LEN` are written by no command, `IADDR` and `OADDR` by `SRESET` alone; `err` and
`einfo` only where a fault is entered; `res` by the four primitives; the coder by the commands that read the
stream (`PRELOAD`: the Bit Source's registers alone), which may write the contexts too
(`ContextsAreWrittenAtTheirIndex`); `olen` by `DINIT` and `EMIT`, on its own or in `BLOCK` and `RUN`, or by a
fault; the output memory by `EMIT`; each block register and memory by `BLKHDR`, `SYMDEC` or `IBWT` as listed.
`rdata`, `pend`, `bootCount` and `resetCount` are the model's own fields (log entries 2 and 5): no command but
`SRESET` moves one of them. -/
def Obligations.RegistersHaveTheirWriters : Prop :=
  ∀ (i : Instr) (s t : State), exec i s = .next t →
    t.imem = s.imem ∧ t.len = s.len ∧ t.rdata = s.rdata ∧ t.pend = s.pend ∧ t.bootCount = s.bootCount ∧
    (i ≠ .sreset →
      t.iaddr = s.iaddr ∧ t.oaddr = s.oaddr ∧ t.resetCount = s.resetCount ∧
      (t.st ≠ .fault → t.err = s.err ∧ t.einfo = s.einfo) ∧
      (t.st = .fault → t = s ∨ t.olen = 0) ∧
      (t.st ≠ .fault → writesOlen i = false → t.olen = s.olen) ∧
      (returnsValue i = false → t.res = s.res) ∧
      (readsStream i = false → t.coder = s.coder ∧ t.ctx = s.ctx) ∧
      (i = .preload → t.coder = { s.coder with
        buf := t.coder.buf, scount := t.coder.scount, delay := t.coder.delay, rp := t.coder.rp }) ∧
      (appendsOutput i = false → t.omem = s.omem) ∧
      (writesBlock i = false → t.blk = s.blk) ∧
      (i = .blkhdr → t.blk = { s.blk with
        size := t.blk.size, fshift := t.blk.fshift, fadd := t.blk.fadd, freq := t.blk.freq, mtf := t.blk.mtf,
        mtfno := t.blk.mtfno, markerpos := t.blk.markerpos, mcount := t.blk.mcount, i := t.blk.i }) ∧
      (i = .symdec → t.blk = { s.blk with
        fadd := t.blk.fadd, freq := t.blk.freq, mtf := t.blk.mtf, mtfno := t.blk.mtfno,
        markerpos := t.blk.markerpos, mcount := t.blk.mcount, i := t.blk.i, data := t.blk.data }) ∧
      (i = .ibwt → t.blk = { s.blk with
        data := t.blk.data, posn := t.blk.posn, count := t.blk.count, last := t.blk.last,
        ptr := t.blk.ptr }))

/-- The ContextTable (R33, R168): a decode under `c` touches no other entry, `BINN` only its tree's, and the
symbol model never an entry from 260 on. `BLKHDR`, `PRELOAD` and the raw decisions touch none. -/
def Obligations.ContextsAreWrittenAtTheirIndex : Prop :=
  ∀ (s t : State),
    (∀ c, exec (.zpctx c) s = .next t → ∀ k, k ≠ c.toNat → tableGet t.ctx k = tableGet s.ctx k) ∧
    (∀ nb base, exec (.binn nb base) s = .next t →
      ∀ k, k < base.toNat ∨ base.toNat + 2 ^ nb.toNat - 2 < k → tableGet t.ctx k = tableGet s.ctx k) ∧
    (exec .symdec s = .next t → ∀ k, 260 ≤ k → tableGet t.ctx k = tableGet s.ctx k) ∧
    (exec .block s = .next t → ∀ k, 260 ≤ k → tableGet t.ctx k = tableGet s.ctx k) ∧
    (∀ i, (i = .blkhdr ∨ i = .preload ∨ i = .zpraw ∨ ∃ n, i = .rawn n) → exec i s = .next t →
      t.ctx = s.ctx)

/-! ### Housekeeping and reset -/

/-- `NOP` (R225) changes nothing in any state. -/
def Obligations.NopChangesNothing : Prop :=
  ∀ s : State, exec .nop s = .next s

/-- `SRESET` (R226; the `SRESET` column of R51) from every state: every register of the column at its value, `LEN`
and `IMEM` kept, nothing else decided. The host's pending events and last read are not the block's state and
stay (log entry 2). -/
def Obligations.SresetGivesTheResetColumn : Prop :=
  ∀ s : State, ∃ t, exec .sreset s = .next t ∧
    t.st = .reset ∧ t.err = .none ∧ t.einfo = 0 ∧ t.res = 0 ∧
    t.blk.i = 0 ∧ t.blk.size = 0 ∧ t.blk.fshift = 0 ∧ t.blk.fadd = 0 ∧ t.blk.mtfno = 0 ∧
    t.blk.markerpos = 0 ∧ t.blk.mcount = 0 ∧ t.blk.last = 0 ∧ t.blk.ptr = 0 ∧
    t.coder = { a := 0, code := 0, fence := 0, buf := 0, scount := 0, delay := 0, rp := 0 } ∧
    (∀ k < 300, tableGet t.ctx k = 0) ∧ t.olen = 0 ∧ t.iaddr = 0 ∧ t.oaddr = 0 ∧
    t.len = s.len ∧ t.imem = s.imem ∧ (∀ k, t.imemRead k = s.imemRead k) ∧
    t.pend = s.pend ∧ t.rdata = s.rdata

/-- Power-on reset (R51, R280, R281): the state after it has every register of the column at its value; a
power-on reset of a block that has run gives the same, and `IMEM` lists nothing. That power-on is an event of
the host is the model's choice (log entry 12). -/
def Obligations.PowerOnGivesTheResetColumn : Prop :=
  ∀ (s : State) (rest : List HostEvent), s.pend = .powerOn :: rest → ∃ t, step s = .next t ∧ ∀ r,
    (r = t ∨ r = State.reset) →
    r.st = .reset ∧ r.err = .none ∧ r.einfo = 0 ∧ r.res = 0 ∧
    r.blk.i = 0 ∧ r.blk.size = 0 ∧ r.blk.fshift = 0 ∧ r.blk.fadd = 0 ∧ r.blk.mtfno = 0 ∧
    r.blk.markerpos = 0 ∧ r.blk.mcount = 0 ∧ r.blk.last = 0 ∧ r.blk.ptr = 0 ∧
    r.coder = { a := 0, code := 0, fence := 0, buf := 0, scount := 0, delay := 0, rp := 0 } ∧
    (∀ k < 300, tableGet r.ctx k = 0) ∧ r.olen = 0 ∧ r.iaddr = 0 ∧ r.oaddr = 0 ∧ r.len = 0 ∧ r.imem = []

/-- The stopped states (R15, R257, R267): a step leaves `DONE` or `FAULT` only when the host writes `SRESET` to
`CMD` or the block is powered on (an event of the host: log entry 12). -/
def Obligations.StoppedStatesAreLeftOnlyByReset : Prop :=
  ∀ s t : State, (s.st = .done ∨ s.st = .fault) → step s = .next t → t.st ≠ s.st →
    t.st = .reset ∧ ∃ rest,
      (∃ v : Word32, s.pend = .write 0x00 32 v :: rest ∧ (v.setWidth 16 : Word16) = 0x1000) ∨
      s.pend = .powerOn :: rest

/-! ### The Bit Source -/

/-- `DINIT` (R114) on an input that fits the input memory, whatever its length: the coder primed from the first two
bytes of the stream, the lookahead filled with the next four, the countdown armed and charged with the
phantom bytes among those four, the contexts zero. `GRACE` is the default 25 (log entry 3). -/
def Obligations.DinitPrimesTheCoder : Prop :=
  ∀ s : State, s.st = .reset → s.len.toNat ≤ params.inCap.toNat →
    exec .dinit s = .next { s with
      st := .ready
      olen := 0
      ctx := Vector.replicate 300 0
      coder :=
        { a := 0
          code := BitVec.ofNat 16 ((streamByte s 0).toNat * 256 + (streamByte s 1).toNat)
          fence := BitVec.ofNat 16 (min ((streamByte s 0).toNat * 256 + (streamByte s 1).toNat) 0x7FFF)
          buf := shiftedIn 0 (fun k => streamByte s (2 + k)) 4
          scount := 32
          delay := BitVec.ofNat 8 (25 - (4 - min 4 (s.len.toNat - 2)))
          rp := BitVec.ofNat 32 (min s.len.toNat 6) } }

/-- A launch with `LEN > IN_CAP` is refused (R45, R283, U2), whatever the configuration. -/
def Obligations.LaunchBeyondTheInputMemoryIsRefused : Prop :=
  ∀ (p : Params) (s : State), p.inCap.toNat < s.len.toNat →
    dinit p s = .refuse .lenExceedsInCap ∧ run p s = .refuse .lenExceedsInCap

/-- `PRELOAD` (R112), where the Bit Source can deliver: bytes enter the lookahead buffer until more than 24 bits are
valid, and nothing else changes. -/
def Obligations.PreloadFillsTheLookahead : Prop :=
  ∀ s : State, s.st = .ready → Supplied params (refillBytes s.coder.scount.toNat) s →
    exec .preload s = .next { s with coder := pulled s s.coder (refillBytes s.coder.scount.toNat) }

/-- The end-of-data detector (R111, R251): a refill that needs more phantom bytes than the countdown grants raises
`TruncatedStream`, with the countdown at 0; the bytes shifted in before it stay. -/
def Obligations.PreloadPastTheGraceRaises : Prop :=
  ∀ s : State, s.st = .ready → s.coder.rp.toNat ≤ s.len.toNat → s.len.toNat ≤ params.inCap.toNat →
    1 ≤ s.coder.delay.toNat →
    s.len.toNat - s.coder.rp.toNat + s.coder.delay.toNat ≤ refillBytes s.coder.scount.toNat →
    exec .preload s = .next { s with
      st := .fault
      err := .truncatedStream
      einfo := s.len
      olen := 0
      coder := { pulled s s.coder (s.len.toNat - s.coder.rp.toNat + (s.coder.delay.toNat - 1)) with
        delay := 0 } }

/-! ### The arithmetic decoder -/

/-- `FFZ` (R131) matches a bit scan for every 16-bit value. -/
def Obligations.FfzMatchesTheBitScan : Prop :=
  ∀ x : Word16, ffz x = leadingOnes x

/-- `SETFENCE` (R133). -/
def Obligations.SetFenceTakesTheMinimum : Prop :=
  ∀ s : State, setFence s = { s with coder := { s.coder with
    fence := BitVec.ofNat 16 (min s.coder.code.toNat 0x7FFF) } }

/-- `ZPRAW` (R139, with R132, R133, R134): the bit, and the coder registers after it. Nothing else but `res`
changes. -/
def Obligations.ZprawDecodesOneRawBit : Prop :=
  ∀ s : State, s.st = .ready → CoderInv s → Supplied params 2 s →
    let z := 0x8000 + s.coder.a.toNat / 2
    let a1 := s.coder.a.toNat + (0x10000 - z)
    let c1 := s.coder.code.toNat + (0x10000 - z)
    exec .zpraw s =
      if s.coder.code.toNat < z then
        .next { s with
          res := 1
          coder := settled s (shifted s.coder a1 c1 (leadingOnes (BitVec.ofNat 16 a1))) }
      else
        .next { s with
          res := 0
          coder := settled s (shifted s.coder z s.coder.code.toNat 1) }

/-- `ZPCTX`, fast path (R135): only `a` changes, and `res` is the low bit of the context's state. -/
def Obligations.ZpctxFastPathMovesOnlyA : Prop :=
  ∀ (c : BitVec 9) (s : State), c.toNat ≤ 299 → s.st = .ready →
    s.coder.a.toNat + params.zptab.p (tableGet s.ctx c.toNat) ≤ s.coder.fence.toNat →
    exec (.zpctx c) s = .next { s with
      res := if (tableGet s.ctx c.toNat).getLsbD 0 then 1 else 0
      coder := { s.coder with
        a := BitVec.ofNat 16 (s.coder.a.toNat + params.zptab.p (tableGet s.ctx c.toNat)) } }

/-- `ZPCTX`, slow path, less probable symbol (R136, R137, with R132): the clamp, the complement of the low bit, the
context moved down, the coder renormalised. -/
def Obligations.ZpctxLessProbableSymbol : Prop :=
  ∀ (c : BitVec 9) (s : State), c.toNat ≤ 299 → s.st = .ready → CoderInv s → Supplied params 4 s →
    let q := tableGet s.ctx c.toNat
    let z0 := s.coder.a.toNat + params.zptab.p q
    let z := min z0 (0x6000 + (z0 + s.coder.a.toNat) / 4)
    let a1 := s.coder.a.toNat + (0x10000 - z)
    let c1 := s.coder.code.toNat + (0x10000 - z)
    s.coder.fence.toNat < z0 → s.coder.code.toNat < z →
    exec (.zpctx c) s = .next { s with
      res := if q.getLsbD 0 then 0 else 1
      ctx := tablePut s.ctx c.toNat (params.zptab.dn q)
      coder := settled s (shifted s.coder a1 c1 (leadingOnes (BitVec.ofNat 16 a1))) }

/-- `ZPCTX`, slow path, more probable symbol (R136, R138, with R134): the low bit; the context moves up only if `a`,
before the decode, has reached the state's threshold (`MPS_ADAPT_GE`, D11). -/
def Obligations.ZpctxMoreProbableSymbol : Prop :=
  ∀ (c : BitVec 9) (s : State), c.toNat ≤ 299 → s.st = .ready → CoderInv s → Supplied params 4 s →
    let q := tableGet s.ctx c.toNat
    let z0 := s.coder.a.toNat + params.zptab.p q
    let z := min z0 (0x6000 + (z0 + s.coder.a.toNat) / 4)
    s.coder.fence.toNat < z0 → z ≤ s.coder.code.toNat →
    exec (.zpctx c) s = .next { s with
      res := if q.getLsbD 0 then 1 else 0
      ctx := if (params.zptab.m q).toNat ≤ s.coder.a.toNat
        then tablePut s.ctx c.toNat (params.zptab.up q) else s.ctx
      coder := settled s (shifted s.coder z s.coder.code.toNat 1) }

/-- `RAWN n` (R82, R140), in every state of `READY`: what `n` commands `ZPRAW` do, with the bits, most significant
first, as one number in `res`; where one of them ends the sequence (a fault), `RAWN` ends as it does, and `res`
is not written. It completes wherever four more bytes can be delivered: it consumes at most 25 bits (R144). -/
def Obligations.RawnIsRepeatedZpraw : Prop :=
  ∀ (n : BitVec 5) (s : State), 1 ≤ n.toNat → n.toNat ≤ 24 → s.st = .ready →
    (match rawCommands n.toNat 0 s with
      | .ok (v, t) => v < 2 ^ n.toNat ∧ exec (.rawn n) s = .next { t with res := BitVec.ofNat 24 v }
      | .error o => exec (.rawn n) s = withRes s.res o) ∧
    (CoderInv s → Supplied params 4 s → ∃ v t, rawCommands n.toNat 0 s = .ok (v, t) ∧
      exec (.rawn n) s = .next { t with res := BitVec.ofNat 24 v })

/-- `BINN nb, B` (R85, R141), in every state of `READY`: what `nb` commands `ZPCTX` do along the tree rooted at
context `B`, with the bits as one number in `res`; where one of them ends the walk (a fault), `BINN` ends as it
does, and `res` is not written. It completes wherever `2 * nb + 2` more bytes can be delivered: it consumes at
most `16 * nb` bits (R144). -/
def Obligations.BinnIsATreeWalk : Prop :=
  ∀ (nb : BitVec 3) (base : BitVec 9) (s : State), 1 ≤ nb.toNat →
    base.toNat + 2 ^ nb.toNat - 2 ≤ 299 → s.st = .ready →
    (match treeCommands base.toNat nb.toNat 1 s with
      | .ok (n, t) => 2 ^ nb.toNat ≤ n ∧ n < 2 * 2 ^ nb.toNat ∧
        exec (.binn nb base) s = .next { t with res := BitVec.ofNat 24 (n - 2 ^ nb.toNat) }
      | .error o => exec (.binn nb base) s = withRes s.res o) ∧
    (CoderInv s → Supplied params (2 * nb.toNat + 2) s →
      ∃ n t, treeCommands base.toNat nb.toNat 1 s = .ok (n, t) ∧
        exec (.binn nb base) s = .next { t with res := BitVec.ofNat 24 (n - 2 ^ nb.toNat) })

/-- The invariants of the coder (R32, R142): every decision that returns keeps them, for every configuration. -/
def Obligations.DecisionsKeepTheCoderInvariants : Prop :=
  ∀ (p : Params) (s t : State) (b : Bool), CoderInv s →
    (zpraw p s = .ok b t → CoderInv t) ∧ (∀ c, zpctx p c s = .ok b t → CoderInv t)

/-- The input bits a decision consumes (R144). -/
def Obligations.DecisionsConsumeTheirBits : Prop :=
  ∀ (p : Params) (s t : State) (b : Bool), CoderInv s →
    (zpraw p s = .ok b t →
      bitsConsumed s t = if b = true ∧ s.coder.a.toNat = 0x7FFF then 2 else 1) ∧
    (∀ c, zpctx p c s = .ok b t →
      let q := tableGet s.ctx c
      let z0 := s.coder.a.toNat + p.zptab.p q
      let z := min z0 (0x6000 + (z0 + s.coder.a.toNat) / 4)
      let n := leadingOnes (BitVec.ofNat 16 (s.coder.a.toNat + (0x10000 - z)))
      if z0 ≤ s.coder.fence.toNat then bitsConsumed s t = 0
      else if z ≤ s.coder.code.toNat then bitsConsumed s t = 1
      else bitsConsumed s t = n ∧ 1 ≤ n ∧ n ≤ 16)

/-! ### The symbol model -/

/-- The rank code of a position (R84, R85, R86, R183): where the decisions under the contexts of a rank's path, in
order, have the path's bits, `RANKDEC` returns that rank. -/
def Obligations.RankdecFollowsTheLadder : Prop :=
  ∀ (cid r : Nat) (s t : State), cid ≤ 2 → r ≤ 256 → decisionsAlong params (rankPath cid r) s = some t →
    rankdec params cid s = .ok r t

/-- `SYMDEC` (R182, R184), in every state of `BLOCK` with its position inside the block. Where `RANKDEC`, under the
context id the last rank gives, returns: the rank is recorded; the position receives the rank's byte, or the
table's head for the marker, and no other byte of `data` changes; a marker is counted and leaves the rank model
as it was, any other rank rotates it. Where `RANKDEC` raises `TruncatedStream`: fault entry, the decisions
already made kept and nothing of the block changed. `RANKDEC` returns wherever 34 more bytes can be delivered:
at most 16 decisions of at most 16 bits (R144, R183). -/
def Obligations.SymdecDecodesOnePosition : Prop :=
  ∀ s : State, s.st = .block → s.blk.i.toNat < s.blk.size.toNat → s.blk.size.toNat ≤ 4194304 →
    (match rankdec params (min 2 s.blk.mtfno.toNat) s with
      | .ok r u => r ≤ 256 ∧ ∃ t, exec .symdec s = .next t ∧
        t = { s with coder := u.coder, ctx := u.ctx, blk := t.blk, st := t.st } ∧
        t.st = (if s.blk.i.toNat + 1 = s.blk.size.toNat then .ranked else .block) ∧
        t.blk.i.toNat = s.blk.i.toNat + 1 ∧ t.blk.mtfno.toNat = r ∧
        (∀ k, t.dataRead k =
          if k = s.blk.i.toNat then tableGet s.blk.mtf (if r = 256 then 0 else r) else s.dataRead k) ∧
        (r = 256 → t.blk.markerpos = s.blk.i ∧ t.blk.mcount.toNat = min (s.blk.mcount.toNat + 1) 2 ∧
          t.blk.mtf = s.blk.mtf ∧ t.blk.freq = s.blk.freq ∧ t.blk.fadd = s.blk.fadd) ∧
        (r ≠ 256 → t.blk.markerpos = s.blk.markerpos ∧ t.blk.mcount = s.blk.mcount ∧
          t.blk.mtf = (mtfrot params r (tableGet s.blk.mtf r) s.blk).mtf ∧
          t.blk.freq = (mtfrot params r (tableGet s.blk.mtf r) s.blk).freq ∧
          t.blk.fadd = (mtfrot params r (tableGet s.blk.mtf r) s.blk).fadd) ∧
        t.blk.size = s.blk.size ∧ t.blk.fshift = s.blk.fshift ∧ t.blk.posn = s.blk.posn ∧
        t.blk.count = s.blk.count ∧ t.blk.last = s.blk.last ∧ t.blk.ptr = s.blk.ptr
      | .raise e info u => e = .truncatedStream ∧ info = u.coder.rp ∧
        exec .symdec s = .next { s with
          coder := u.coder, ctx := u.ctx, st := .fault, err := .truncatedStream, einfo := info, olen := 0 }
      | .stop f => exec .symdec s = .fault f
      | .refuse _ => False) ∧
    (CoderInv s → Supplied params 34 s →
      ∃ r u t, rankdec params (min 2 s.blk.mtfno.toNat) s = .ok r u ∧ exec .symdec s = .next t ∧ t.st ≠ .fault)

/-- `MTFROT` (R185): the increment and the rescaling; the place `k` the walk finds, where every estimate passed is
at most the new one (the tie passes, R187) and the one before it is greater; the byte and its estimate at
`k`, those between shifted up by one, the others kept; no other block register changes. -/
def Obligations.MtfrotPromotesByFrequency : Prop :=
  ∀ (p : Params) (r : Nat) (b : Block), r < 256 →
    let grown := (b.fadd.toNat + b.fadd.toNat / 2 ^ b.fshift.toNat) % 2 ^ 32
    let big := decide (p.faddCeil.toNat < grown)
    let fadd := if big then grown / 2 ^ p.fscale else grown
    let f := fun k => if big then (tableGet b.freq k).toNat / 2 ^ p.fscale else (tableGet b.freq k).toNat
    let fc := if r < 4 then (fadd + f r) % 2 ^ 32 else fadd
    let t := mtfrot p r (tableGet b.mtf r) b
    t = { b with fadd := t.fadd, mtf := t.mtf, freq := t.freq } ∧
    t.fadd.toNat = fadd ∧
    ∃ k, k ≤ min r 3 ∧ (∀ j, k ≤ j → j < min r 3 → f j ≤ fc) ∧ (k = 0 ∨ fc < f (k - 1)) ∧
      (∀ j < 256, tableGet t.mtf j =
        if j = k then tableGet b.mtf r
        else if k < j ∧ j ≤ r then tableGet b.mtf (j - 1) else tableGet b.mtf j) ∧
      (∀ j < 4, (tableGet t.freq j).toNat =
        if j = k then fc else if k < j ∧ j ≤ min r 3 then f (j - 1) else f j)

/-- The RankTable stays a permutation (R38, R191): a rotation of a byte from its own rank keeps every byte value at
exactly one rank. -/
def Obligations.MtfrotKeepsThePermutation : Prop :=
  ∀ (p : Params) (r : Nat) (b : Block), r < 256 → MtfPermutes b →
    MtfPermutes (mtfrot p r (tableGet b.mtf r) b) ∧
    ∀ v : Byte, ∃ k < 256, tableGet (mtfrot p r (tableGet b.mtf r) b).mtf k = v

/-! ### The reconstructor -/

/-- The marker checks of `IBWT` (R202, R253), in their order and before anything is written: the count first, then
the place. -/
def Obligations.IbwtChecksTheMarkerFirst : Prop :=
  ∀ s : State, s.st = .ranked →
    (s.blk.mcount.toNat ≠ 1 → exec .ibwt s = .next { s with
      st := .fault, err := .corruptBlock, einfo := 1, olen := 0 }) ∧
    (s.blk.mcount.toNat = 1 → (s.blk.markerpos.toNat < 1 ∨ s.blk.size.toNat ≤ s.blk.markerpos.toNat) →
      exec .ibwt s = .next { s with st := .fault, err := .corruptBlock, einfo := 2, olen := 0 })

/-- `IBWT` past its checks (R203 to R206, R208): the packed values, the base offsets and the plaintext are those of the
walk defined from the data alone; it ends in `RECON` exactly when the walk ends on the marker, else in
`CorruptBlock` with `einfo` 3. Bytes of `data` from `size - 1` on and entries of `posn` from `size` on are kept. -/
def Obligations.IbwtIsTheStableWalk : Prop :=
  ∀ s : State, s.st = .ranked → s.blk.mcount.toNat = 1 → 1 ≤ s.blk.markerpos.toNat →
    s.blk.markerpos.toNat < s.blk.size.toNat → s.blk.size.toNat ≤ 4194304 →
    let m := s.blk.markerpos.toNat
    let n := s.blk.size.toNat
    let last := walkAt s.dataRead m n (n - 1)
    ∃ t, exec .ibwt s = .next t ∧
      t = { s with
        st := if last = m then .recon else .fault
        err := if last = m then s.err else .corruptBlock
        einfo := if last = m then s.einfo else 3
        olen := if last = m then s.olen else 0
        blk := { s.blk with
          data := t.blk.data, posn := t.blk.posn, count := t.blk.count, last := 0, ptr := t.blk.ptr } } ∧
      t.blk.ptr.toNat = last ∧
      (∀ k, t.dataRead k =
        if k < n - 1 then walkByte s.dataRead m (walkAt s.dataRead m n (n - 2 - k)) else s.dataRead k) ∧
      (∀ k, (t.posnRead k).toNat =
        if k = m then 0
        else if k < n then (s.dataRead k).toNat * 2 ^ 24 +
          countPositions m k (fun j => decide (s.dataRead j = s.dataRead k))
        else (s.posnRead k).toNat) ∧
      (∀ c < 256, (tableGet t.blk.count c).toNat =
        1 + countPositions m n (fun j => decide ((s.dataRead j).toNat < c)))

/-- The correctness of the reconstruction (R210): on the Burrows-Wheeler transform of a string `IBWT` succeeds and
leaves the string in `data`. -/
def Obligations.IbwtInvertsTheTransform : Prop :=
  ∀ (s : State) (x : List Byte), s.st = .ranked → s.blk.mcount.toNat = 1 → 1 ≤ x.length →
    s.blk.size.toNat = x.length + 1 → s.blk.size.toNat ≤ 4194304 →
    IsTransform x s.dataRead s.blk.markerpos.toNat →
    ∃ t, exec .ibwt s = .next t ∧ t.st = .recon ∧ ∀ k < x.length, t.dataRead k = x.getD k 0

/-! ### The orchestrator -/

/-- `BLKHDR` (R221, R83), in every state of `READY`: the 24 raw bits of the size, as 24 commands `ZPRAW` decode
them; size 0 ends the stream; a size above the ceiling raises `BlockTooLarge` before any further decision; else
one or two more raw bits give the speed field, and the block registers are initialised. Where one of these raw
decisions faults, `BLKHDR` ends as it does, the size written if it was whole. `res`, `data` and the contexts are
not touched. A header takes at most 27 bits (R144), so four more bytes are enough for it to be read. -/
def Obligations.BlkhdrReadsTheHeader : Prop :=
  ∀ s : State, s.st = .ready →
    (match rawCommands 24 0 s with
      | .error o => exec .blkhdr s = withRes s.res o
      | .ok (v, u) => v < 2 ^ 24 ∧
        (v = 0 → exec .blkhdr s = .next { s with
          coder := u.coder, blk := { s.blk with size := 0 }, st := .done }) ∧
        (4194304 < v → exec .blkhdr s = .next { s with
          coder := u.coder, blk := { s.blk with size := BitVec.ofNat 24 v },
          st := .fault, err := .blockTooLarge, einfo := BitVec.ofNat 32 v, olen := 0 }) ∧
        (1 ≤ v → v ≤ 4194304 →
          match speedCommands { u with blk := { s.blk with size := BitVec.ofNat 24 v } } with
          | .error o => exec .blkhdr s = withRes s.res o
          | .ok (f, y) => f ≤ 2 ∧ exec .blkhdr s = .next { s with
            coder := y.coder
            blk := { s.blk with
              size := BitVec.ofNat 24 v
              fshift := BitVec.ofNat 2 f
              mtf := Vector.ofFn fun k => BitVec.ofNat 8 k
              freq := Vector.replicate 4 0
              fadd := 4
              mtfno := 3
              markerpos := 0
              mcount := 0
              i := 0 }
            st := .block })) ∧
    (CoderInv s → Supplied params 4 s → ∃ v u t, rawCommands 24 0 s = .ok (v, u) ∧ exec .blkhdr s = .next t ∧
      ((v = 0 ∧ t.st = .done) ∨ (1 ≤ v ∧ v ≤ 4194304 ∧ t.st = .block) ∨
        (4194304 < v ∧ t.st = .fault ∧ t.err = .blockTooLarge)))

/-- `EMIT` (R222): the `size - 1` bytes of the block are appended in order and no other byte of the output
changes. -/
def Obligations.EmitAppendsTheBlock : Prop :=
  ∀ s : State, s.st = .recon → s.blk.size.toNat - 1 ≤ 4194304 →
    s.olen.toNat + (s.blk.size.toNat - 1) < 2 ^ 32 →
    ∃ t, exec .emit s = .next t ∧
      t = { s with st := .ready, omem := t.omem, olen := t.olen } ∧
      t.olen.toNat = s.olen.toNat + (s.blk.size.toNat - 1) ∧
      (∀ k < s.blk.size.toNat - 1, t.omemRead (s.olen.toNat + k) = s.dataRead k) ∧
      (∀ k, k < s.olen.toNat ∨ s.olen.toNat + (s.blk.size.toNat - 1) ≤ k → t.omemRead k = s.omemRead k)

/-- The output is append-only (R44, R62): no command but the two that start a new session changes a byte already
output, and none of them takes one back except by a fault. -/
def Obligations.OutputIsAppendOnly : Prop :=
  ∀ (i : Instr) (s t : State), i ≠ .sreset → i ≠ .run → exec i s = .next t →
    (∀ k < s.olen.toNat, t.omemRead k = s.omemRead k) ∧
    (i ≠ .dinit → t.st ≠ .fault → s.olen.toNat ≤ t.olen.toNat)

/-- `BLOCK` (R223) is the command sequence `BLKHDR; SYMDEC x size; IBWT; EMIT`. -/
def Obligations.BlockIsItsCommandSequence : Prop :=
  ∀ s t : State, s.st = .ready → exec .blkhdr s = .next t →
    exec .block s =
      execAll (List.replicate t.blk.size.toNat .symdec ++ [.ibwt, .emit]) t

/-- `BLOCK` on a terminator (R223, R87): where the stream goes on in ones, as a stream that has ended does, the next
header is of size 0, and `BLOCK` ends the stream. -/
def Obligations.BlockReadsTheTerminator : Prop :=
  ∀ s : State, s.st = .ready → s.coder.a = 0 → s.coder.code = 0xFFFF → s.coder.fence = 0x7FFF →
    s.coder.buf = 0xFFFFFFFF → 16 ≤ s.coder.scount.toNat → s.coder.scount.toNat ≤ 32 →
    s.coder.rp = s.len → s.len.toNat ≤ params.inCap.toNat → 8 ≤ s.coder.delay.toNat →
    ∃ t, exec .block s = .next t ∧
      t = { s with st := .done, blk := { s.blk with size := 0 }, coder := t.coder } ∧
      t.coder.a = 0 ∧ t.coder.code = 0xFFFF ∧ t.coder.buf = 0xFFFFFFFF ∧ t.coder.rp = s.len

/-- `RUN` (R224, R237) is `DINIT` and then `BLOCK` over and over until the state is not `READY`: from the number of
rounds R237 gives on, however many `BLOCK` commands are issued, they come to what `RUN` comes to, and `RUN` does
not end in `READY`. `GRACE` is the default 25 (log entry 3). -/
def Obligations.RunIsItsCommandSequence : Prop :=
  ∀ s t : State, s.st = .reset → exec .dinit s = .next t →
    (∀ n, 8 * (s.len.toNat + 25 + 1) / 24 + 1 ≤ n → exec .run s = execAll (List.replicate n .block) t) ∧
    ∀ u, exec .run s = .next u → u.st ≠ .ready

/-- Termination of one block (R223, R237): in a session on an input that fits the input memory `BLOCK` always
ends, in `READY`, `DONE` or `FAULT`; or it is refused (log entry 11), and then the block it has decoded would take
the output past `2^32 - 1` bytes (U6). -/
def Obligations.BlockAlwaysEnds : Prop :=
  ∀ s : State, s.st = .ready → CoderInv s → s.len.toNat ≤ params.inCap.toNat →
    (∃ t, exec .block s = .next t ∧ (t.st = .ready ∨ t.st = .done ∨ t.st = .fault)) ∨
      (exec .block s = .refused .outputTooLong ∧ NextBlockOverflows s)

/-- Termination (R224, R237): on an input that fits the input memory `RUN` always ends in `DONE` or `FAULT`; or it is
refused (log entry 11), and then, after some number of its blocks, the next would take the output past `2^32 - 1`
bytes (U6). -/
def Obligations.RunAlwaysEnds : Prop :=
  ∀ s : State, s.st = .reset → s.len.toNat ≤ params.inCap.toNat →
    (∃ t, exec .run s = .next t ∧ (t.st = .done ∨ t.st = .fault)) ∨
      (exec .run s = .refused .outputTooLong ∧ ∃ t n u, exec .dinit s = .next t ∧
        execAll (List.replicate n .block) t = .next u ∧ u.st = .ready ∧ NextBlockOverflows u)

/-- Empty input (R239): `RUN` decodes it as an immediate terminator and an empty output. -/
def Obligations.RunOfAnEmptyInput : Prop :=
  ∀ s : State, s.st = .reset → s.len = 0 →
    exec .run s = .next { s with
      st := .done
      olen := 0
      ctx := Vector.replicate 300 0
      coder := { a := 0, code := 0xFFFF, fence := 0x7FFF, buf := 0xFFFFFFFF, scount := 24, delay := 19, rp := 0 }
      blk := { s.blk with size := 0 } }

/-- Determinism (R240, R282): what `RUN` comes to depends on the input alone. Two blocks in `RESET` with the same
`LEN`, the same bytes below it and the same fault registers, whatever their input memories beyond `LEN`, work
memories, tables, output memory and coder hold, end in the same state, with the same fault, and with the same
output. -/
def Obligations.RunDependsOnTheInputAlone : Prop :=
  ∀ s u : State, s.st = .reset → u.st = .reset → s.len = u.len →
    (∀ k < s.len.toNat, s.imemRead k = u.imemRead k) → s.err = u.err → s.einfo = u.einfo →
    match exec .run s with
    | .next t => ∃ v, exec .run u = .next v ∧ t.st = v.st ∧ t.err = v.err ∧ t.einfo = v.einfo ∧
        t.olen = v.olen ∧ t.coder = v.coder ∧ t.ctx = v.ctx ∧
        ∀ k < t.olen.toNat, t.omemRead k = v.omemRead k
    | .fault f => exec .run u = .fault f
    | .refused r => exec .run u = .refused r

/-! ### The host port -/

/-- Reads of the host registers (R24, R72): each register's value goes to the host; a read of `ODATA` moves
`OADDR` on, and no other read changes anything. `rdata` is the model's own field (log entry 2). -/
def Obligations.HostReadsTheRegisterMap : Prop :=
  ∀ (s : State) (offset : Nat) (v : Word32) (rest : List HostEvent),
    s.pend = .read offset 32 :: rest → registerReads offset s = some v →
    step s = .next { s with
      pend := rest, rdata := v, oaddr := if offset = 0x24 then s.oaddr + 1 else s.oaddr }

/-- Writes of the host registers other than `CMD` (R24, R74, V8): `LEN` and `IDATA` only in `RESET`, `IADDR` and
`OADDR` always, the read-only registers never; a write of `IDATA` at or above `IN_CAP` is dropped and still moves
`IADDR`. That one outside `RESET` leaves `IADDR` alone is how the model reads R24 (log entry 6). -/
def Obligations.HostWritesTheRegisterMap : Prop :=
  ∀ (s : State) (v : Word32) (rest : List HostEvent),
    (s.pend = .write 0x0C 32 v :: rest →
      step s = .next { s with pend := rest, len := if s.st = .reset then v else s.len }) ∧
    (s.pend = .write 0x18 32 v :: rest → step s = .next { s with pend := rest, iaddr := v }) ∧
    (s.pend = .write 0x20 32 v :: rest → step s = .next { s with pend := rest, oaddr := v }) ∧
    (s.pend = .write 0x1C 32 v :: rest → s.st ≠ .reset → step s = .next { s with pend := rest }) ∧
    (s.pend = .write 0x1C 32 v :: rest → s.st = .reset → ∃ t, step s = .next t ∧
      t = { s with pend := rest, iaddr := s.iaddr + 1, imem := t.imem } ∧
      ∀ k, t.imemRead k = if k = s.iaddr.toNat ∧ k < params.inCap.toNat then BitVec.ofNat 8 v.toNat
        else s.imemRead k) ∧
    (∀ offset ∈ [0x04, 0x08, 0x10, 0x14, 0x24], s.pend = .write offset 32 v :: rest →
      step s = .next { s with pend := rest })

/-- A host access of another width, or at no register's offset, is refused by name (R69, V7). -/
def Obligations.HostAccessOffTheMapIsRefused : Prop :=
  ∀ (s : State) (offset bits : Nat) (rest : List HostEvent),
    (bits ≠ 32 ∨ registerReads offset s = none) →
    (s.pend = .read offset bits :: rest ∨ ∃ v, s.pend = .write offset bits v :: rest) →
    step s = .refused (.hostAccess offset bits)

/-! ### The whole machine -/

/-- The invariant of the machine (R21 to R45, R191, R282) holds after reset. -/
def Obligations.ResetSatisfiesTheInvariant : Prop :=
  Inv State.reset

/-- Every step keeps the invariant of the machine: the canonical memories, the ranges of R32 and R35 to R37, the
positions of R21 and R22, the permutation of R191, the marker of R202 and R206, and that entries are written
before they are read (R282). -/
def Obligations.StepKeepsTheInvariant : Prop :=
  ∀ s t : State, Inv s → step s = .next t → Inv t

/-- The bounds checks never fire (R70, log entry 8): a state that satisfies the invariant never stops with a fault of
the machine. The checks are those of log entry 8: a read of the input memory, the position `SYMDEC` writes, and
the size of the block in `IBWT` and `EMIT`. The indices without a check are `IndicesStayInTheirSpaces`. -/
def Obligations.InvariantStatesNeverStop : Prop :=
  ∀ (s : State) (f : Fault), Inv s → step s ≠ .fault f

/-- The indices without a check (R70): the context of every node of a tree `BINN` accepts is at most 299 (R99); a
rank `RANKDEC` returns is at most 256, and the contexts it was decoded under, those of the rank's path, are at
most 259 (R181, R183); every pointer of the undo walk is below `size` (R207). The places `MTFROT` touches are in
`MtfrotPromotesByFrequency`. -/
def Obligations.IndicesStayInTheirSpaces : Prop :=
  (∀ (nb : BitVec 3) (base : BitVec 9) (n : Nat), (Instr.binn nb base).wf = true → 1 ≤ n → n < 2 ^ nb.toNat →
    treeContext base.toNat n ≤ 299) ∧
  (∀ (cid r : Nat) (s t : State), cid ≤ 2 → rankdec params cid s = .ok r t →
    r ≤ 256 ∧ decisionsAlong params (rankPath cid r) s = some t ∧ ∀ e ∈ rankPath cid r, e.1 ≤ 259) ∧
  (∀ (s : State) (n : Nat), 1 ≤ s.blk.markerpos.toNat → s.blk.markerpos.toNat < s.blk.size.toNat →
    walkAt s.dataRead s.blk.markerpos.toNat s.blk.size.toNat n < s.blk.size.toNat)
end

