-- ==== Sys2Proof/Laws/Memory.lean ====
section
/-! SUPPORT. The laws of the sparse memories and of the tables: what a read gives after a write, and that
every memory operation keeps the canonical form. -/

namespace Sys2Proof.Machine

section Lookup

variable {w : Nat} (m : Memory w)

@[simp] theorem lookup_nil (k : Nat) : Memory.lookup ([] : Memory w) k = none := rfl

theorem lookup_cons (j k : Nat) (v : BitVec w) :
    Memory.lookup ((j, v) :: m) k = if j = k then some v else Memory.lookup m k := rfl

/-- A write is seen at its own index, and at no other. -/
theorem lookup_write (k j : Nat) (v : BitVec w) :
    (m.write k v).lookup j = if k = j then some v else m.lookup j := by
  induction m with
  | nil => simp [Memory.write, Memory.lookup]
  | cons e m ih =>
    obtain ⟨i, u⟩ := e
    simp only [Memory.write]
    split
    · simp [Memory.lookup]
    · split
      · next h => subst h; simp only [Memory.lookup]; split <;> simp_all
      · simp only [Memory.lookup, ih]; split <;> simp_all

@[simp] theorem lookup_write_same (k : Nat) (v : BitVec w) : (m.write k v).lookup k = some v := by
  simp [lookup_write]

theorem lookup_write_other {k j : Nat} (v : BitVec w) (h : k ≠ j) :
    (m.write k v).lookup j = m.lookup j := by
  simp [lookup_write, h]

/-- What one read sees after one write. -/
theorem read_write (sp : Space) (ep k j : Nat) (v : BitVec w) :
    Memory.read sp ep (m.write k v) j = if k = j then v else Memory.read sp ep m j := by
  unfold Memory.read
  rw [lookup_write]
  by_cases h : k = j <;> simp [h]

@[simp] theorem read_write_same (sp : Space) (ep k : Nat) (v : BitVec w) :
    Memory.read sp ep (m.write k v) k = v := by
  simp [read_write]

theorem read_write_other (sp : Space) (ep : Nat) {k j : Nat} (v : BitVec w) (h : k ≠ j) :
    Memory.read sp ep (m.write k v) j = Memory.read sp ep m j := by
  simp [read_write, h]

end Lookup

section Canonical

variable {w : Nat} {m : Memory w}

theorem wf_nil : Memory.wf ([] : Memory w) := List.Pairwise.nil

/-- An entry after a write is the one written or one that was there. -/
theorem mem_write {k : Nat} {v : BitVec w} {e : Nat × BitVec w} (h : e ∈ m.write k v) :
    e = (k, v) ∨ e ∈ m := by
  induction m with
  | nil => simpa [Memory.write] using h
  | cons d m ih =>
    obtain ⟨j, u⟩ := d
    simp only [Memory.write] at h
    split at h
    · simpa using h
    · split at h
      · rcases List.mem_cons.1 h with h | h
        · exact .inl h
        · exact .inr (List.mem_cons_of_mem _ h)
      · rcases List.mem_cons.1 h with h | h
        · exact .inr (h ▸ List.mem_cons_self)
        · exact (ih h).imp_right (List.mem_cons_of_mem _)

/-- A write keeps the canonical form. -/
theorem write_wf (k : Nat) (v : BitVec w) (h : m.wf) : (m.write k v).wf := by
  induction m with
  | nil => simp [Memory.write, Memory.wf]
  | cons e m ih =>
    obtain ⟨j, u⟩ := e
    have hm : Memory.wf m := List.Pairwise.of_cons h
    have hj : ∀ y ∈ m, j < y.1 := (List.pairwise_cons.1 h).1
    simp only [Memory.write]
    split
    · next hk =>
      refine List.pairwise_cons.2 ⟨?_, h⟩
      intro y hy
      rcases List.mem_cons.1 hy with rfl | hy
      · exact hk
      · exact hk.trans (hj y hy)
    · split
      · next hk => subst hk; exact List.pairwise_cons.2 ⟨hj, hm⟩
      · next h1 h2 =>
        refine List.pairwise_cons.2 ⟨?_, ih hm⟩
        intro y hy
        rcases mem_write hy with rfl | hy
        · exact Nat.lt_of_le_of_ne (Nat.le_of_not_lt h1) (Ne.symm h2)
        · exact hj y hy

/-- A written index is at most the ones already listed or the one written. -/
theorem write_bound {k n : Nat} {v : BitVec w} (hk : k < n) (h : ∀ e ∈ m, e.1 < n) :
    ∀ e ∈ m.write k v, e.1 < n := by
  intro e he
  rcases mem_write he with rfl | he
  · exact hk
  · exact h e he

end Canonical

section Tables

variable {w n : Nat} (t : Vector (BitVec w) n)

theorem tableGet_of_lt {k : Nat} (h : k < n) : tableGet t k = t[k] := by
  unfold tableGet
  simp [Vector.getD, h]

theorem tableGet_of_ge {k : Nat} (h : n ≤ k) : tableGet t k = 0 := by
  unfold tableGet
  simp [Vector.getD, Nat.not_lt.2 h]

/-- What one read of a table sees after one write. -/
theorem tableGet_put (k j : Nat) (v : BitVec w) :
    tableGet (tablePut t k v) j = if k = j ∧ k < n then v else tableGet t j := by
  by_cases hj : j < n
  · rw [tableGet_of_lt _ hj, tableGet_of_lt _ hj, tablePut, Vector.getElem_setIfInBounds]
    by_cases h : k = j
    · subst h; simp [hj]
    · simp [h]
  · have hj := Nat.le_of_not_lt hj
    rw [tableGet_of_ge _ hj, tableGet_of_ge _ hj]
    split
    · omega
    · rfl

theorem tableGet_put_same {k : Nat} (v : BitVec w) (h : k < n) :
    tableGet (tablePut t k v) k = v := by
  simp [tableGet_put, h]

theorem tableGet_put_other {k j : Nat} (v : BitVec w) (h : k ≠ j) :
    tableGet (tablePut t k v) j = tableGet t j := by
  simp [tableGet_put, h]

/-- Two tables that read alike are equal. -/
theorem table_ext {t u : Vector (BitVec w) n} (h : ∀ k < n, tableGet t k = tableGet u k) : t = u := by
  apply Vector.ext
  intro k hk
  simpa [tableGet_of_lt _ hk] using h k hk

theorem tableGet_replicate (v : BitVec w) {k : Nat} (h : k < n) :
    tableGet (Vector.replicate n v) k = v := by
  simp [tableGet_of_lt _ h]

theorem tableGet_ofFn (f : Fin n → BitVec w) {k : Nat} (h : k < n) :
    tableGet (Vector.ofFn f) k = f ⟨k, h⟩ := by
  simp [tableGet_of_lt _ h]

end Tables

section Passes

/-- The zero fill (R203) writes 0 to `0..n-1` and nothing else. -/
theorem lookup_zeroFill (n k : Nat) (m : Memory 32) :
    (zeroFill n m).lookup k = if k < n then some 0 else m.lookup k := by
  induction n with
  | zero => simp [zeroFill]
  | succ n ih =>
    rw [zeroFill, lookup_write, ih]
    by_cases h : n = k
    · simp [h]
    · simp only [if_neg h]; congr 1; simp only [eq_iff_iff]; omega

theorem zeroFill_wf (n : Nat) {m : Memory 32} (h : m.wf) : (zeroFill n m).wf := by
  induction n with
  | zero => exact h
  | succ n ih => exact write_wf _ _ ih

theorem countPosition_wf (f : Nat → Byte) (mk k : Nat) {t : Memory 32 × Vector Word32 256} (h : t.1.wf) :
    (countPosition f mk k t).1.wf := by
  unfold countPosition
  split
  · exact h
  · exact write_wf _ _ h

theorem countPass_wf (f : Nat → Byte) (mk n : Nat) {t : Memory 32 × Vector Word32 256} (h : t.1.wf) :
    (countPass f mk n t).1.wf := by
  induction n with
  | zero => exact h
  | succ n ih => exact countPosition_wf _ _ _ ih

theorem undoWalk_wf (f : Nat → Word32) (b : Vector Word32 256) (n ptr : Nat) {d : Memory 8} (h : d.wf) :
    Memory.wf (undoWalk f b n ptr d).2 := by
  induction n generalizing ptr d with
  | zero => exact h
  | succ n ih => exact ih _ (write_wf _ _ h)

/-- The undo walk stores to `data[0..last-1]` and nowhere else (R205, R207). -/
theorem lookup_undoWalk_other (f : Nat → Word32) (b : Vector Word32 256) (n ptr : Nat) (d : Memory 8)
    {k : Nat} (h : n ≤ k) : Memory.lookup (undoWalk f b n ptr d).2 k = d.lookup k := by
  induction n generalizing ptr d with
  | zero => rfl
  | succ n ih =>
    rw [undoWalk, ih _ _ (by omega)]
    exact lookup_write_other _ _ (by omega)

/-- `EMIT`'s loop (R222) writes `n` bytes from `olen` up and nothing else. -/
theorem lookup_appendBytes (f : Nat → Byte) (n o : Nat) (m : Memory 8) (k : Nat) :
    Memory.lookup (appendBytes f n o m) k =
      if o ≤ k ∧ k < o + n then some (f (k - o)) else m.lookup k := by
  induction n with
  | zero => rw [appendBytes, if_neg (by omega)]
  | succ n ih =>
    rw [appendBytes]
    refine (lookup_write _ _ _ _).trans ?_
    rw [ih]
    by_cases h : o + n = k
    · subst h; simp
    · simp only [if_neg h]; congr 1; simp only [eq_iff_iff]; omega

theorem appendBytes_wf (f : Nat → Byte) (n o : Nat) {m : Memory 8} (h : m.wf) :
    Memory.wf (appendBytes f n o m) := by
  induction n with
  | zero => exact h
  | succ n ih => exact write_wf _ _ ih

end Passes

/-- The memories of the reset state have the canonical form. -/
theorem reset_memories_wf : Memory.wf State.reset.imem ∧ Memory.wf State.reset.omem ∧
    Memory.wf State.reset.blk.data ∧ Memory.wf State.reset.blk.posn :=
  ⟨wf_nil, wf_nil, wf_nil, wf_nil⟩

end Sys2Proof.Machine
end

