-- ==== Sys2Proof/Laws/State.lean ====
section
/-! SUPPORT. What each update of `State` leaves in each field, one lemma per field per update, true by
`rfl`, so that no later proof unfolds a record update. -/

namespace Sys2Proof.Machine

variable (s : State)

/-! ### `setCoder` -/

@[simp] theorem setCoder_st (c : Coder) : (s.setCoder c).st = s.st := rfl
@[simp] theorem setCoder_err (c : Coder) : (s.setCoder c).err = s.err := rfl
@[simp] theorem setCoder_einfo (c : Coder) : (s.setCoder c).einfo = s.einfo := rfl
@[simp] theorem setCoder_res (c : Coder) : (s.setCoder c).res = s.res := rfl
@[simp] theorem setCoder_len (c : Coder) : (s.setCoder c).len = s.len := rfl
@[simp] theorem setCoder_iaddr (c : Coder) : (s.setCoder c).iaddr = s.iaddr := rfl
@[simp] theorem setCoder_oaddr (c : Coder) : (s.setCoder c).oaddr = s.oaddr := rfl
@[simp] theorem setCoder_olen (c : Coder) : (s.setCoder c).olen = s.olen := rfl
@[simp] theorem setCoder_coder (c : Coder) : (s.setCoder c).coder = c := rfl
@[simp] theorem setCoder_ctx (c : Coder) : (s.setCoder c).ctx = s.ctx := rfl
@[simp] theorem setCoder_blk (c : Coder) : (s.setCoder c).blk = s.blk := rfl
@[simp] theorem setCoder_imem (c : Coder) : (s.setCoder c).imem = s.imem := rfl
@[simp] theorem setCoder_omem (c : Coder) : (s.setCoder c).omem = s.omem := rfl
@[simp] theorem setCoder_rdata (c : Coder) : (s.setCoder c).rdata = s.rdata := rfl
@[simp] theorem setCoder_pend (c : Coder) : (s.setCoder c).pend = s.pend := rfl
@[simp] theorem setCoder_resetCount (c : Coder) : (s.setCoder c).resetCount = s.resetCount := rfl
@[simp] theorem setCoder_bootCount (c : Coder) : (s.setCoder c).bootCount = s.bootCount := rfl

/-! ### `setBlk` -/

@[simp] theorem setBlk_st (b : Block) : (s.setBlk b).st = s.st := rfl
@[simp] theorem setBlk_err (b : Block) : (s.setBlk b).err = s.err := rfl
@[simp] theorem setBlk_einfo (b : Block) : (s.setBlk b).einfo = s.einfo := rfl
@[simp] theorem setBlk_res (b : Block) : (s.setBlk b).res = s.res := rfl
@[simp] theorem setBlk_len (b : Block) : (s.setBlk b).len = s.len := rfl
@[simp] theorem setBlk_iaddr (b : Block) : (s.setBlk b).iaddr = s.iaddr := rfl
@[simp] theorem setBlk_oaddr (b : Block) : (s.setBlk b).oaddr = s.oaddr := rfl
@[simp] theorem setBlk_olen (b : Block) : (s.setBlk b).olen = s.olen := rfl
@[simp] theorem setBlk_coder (b : Block) : (s.setBlk b).coder = s.coder := rfl
@[simp] theorem setBlk_ctx (b : Block) : (s.setBlk b).ctx = s.ctx := rfl
@[simp] theorem setBlk_blk (b : Block) : (s.setBlk b).blk = b := rfl
@[simp] theorem setBlk_imem (b : Block) : (s.setBlk b).imem = s.imem := rfl
@[simp] theorem setBlk_omem (b : Block) : (s.setBlk b).omem = s.omem := rfl
@[simp] theorem setBlk_rdata (b : Block) : (s.setBlk b).rdata = s.rdata := rfl
@[simp] theorem setBlk_pend (b : Block) : (s.setBlk b).pend = s.pend := rfl
@[simp] theorem setBlk_resetCount (b : Block) : (s.setBlk b).resetCount = s.resetCount := rfl
@[simp] theorem setBlk_bootCount (b : Block) : (s.setBlk b).bootCount = s.bootCount := rfl

/-! ### `setSt` -/

@[simp] theorem setSt_st (x : SeqState) : (s.setSt x).st = x := rfl
@[simp] theorem setSt_err (x : SeqState) : (s.setSt x).err = s.err := rfl
@[simp] theorem setSt_einfo (x : SeqState) : (s.setSt x).einfo = s.einfo := rfl
@[simp] theorem setSt_res (x : SeqState) : (s.setSt x).res = s.res := rfl
@[simp] theorem setSt_len (x : SeqState) : (s.setSt x).len = s.len := rfl
@[simp] theorem setSt_iaddr (x : SeqState) : (s.setSt x).iaddr = s.iaddr := rfl
@[simp] theorem setSt_oaddr (x : SeqState) : (s.setSt x).oaddr = s.oaddr := rfl
@[simp] theorem setSt_olen (x : SeqState) : (s.setSt x).olen = s.olen := rfl
@[simp] theorem setSt_coder (x : SeqState) : (s.setSt x).coder = s.coder := rfl
@[simp] theorem setSt_ctx (x : SeqState) : (s.setSt x).ctx = s.ctx := rfl
@[simp] theorem setSt_blk (x : SeqState) : (s.setSt x).blk = s.blk := rfl
@[simp] theorem setSt_imem (x : SeqState) : (s.setSt x).imem = s.imem := rfl
@[simp] theorem setSt_omem (x : SeqState) : (s.setSt x).omem = s.omem := rfl
@[simp] theorem setSt_rdata (x : SeqState) : (s.setSt x).rdata = s.rdata := rfl
@[simp] theorem setSt_pend (x : SeqState) : (s.setSt x).pend = s.pend := rfl
@[simp] theorem setSt_resetCount (x : SeqState) : (s.setSt x).resetCount = s.resetCount := rfl
@[simp] theorem setSt_bootCount (x : SeqState) : (s.setSt x).bootCount = s.bootCount := rfl

/-! ### `setRes` -/

@[simp] theorem setRes_st (v : BitVec 24) : (s.setRes v).st = s.st := rfl
@[simp] theorem setRes_err (v : BitVec 24) : (s.setRes v).err = s.err := rfl
@[simp] theorem setRes_einfo (v : BitVec 24) : (s.setRes v).einfo = s.einfo := rfl
@[simp] theorem setRes_res (v : BitVec 24) : (s.setRes v).res = v := rfl
@[simp] theorem setRes_len (v : BitVec 24) : (s.setRes v).len = s.len := rfl
@[simp] theorem setRes_iaddr (v : BitVec 24) : (s.setRes v).iaddr = s.iaddr := rfl
@[simp] theorem setRes_oaddr (v : BitVec 24) : (s.setRes v).oaddr = s.oaddr := rfl
@[simp] theorem setRes_olen (v : BitVec 24) : (s.setRes v).olen = s.olen := rfl
@[simp] theorem setRes_coder (v : BitVec 24) : (s.setRes v).coder = s.coder := rfl
@[simp] theorem setRes_ctx (v : BitVec 24) : (s.setRes v).ctx = s.ctx := rfl
@[simp] theorem setRes_blk (v : BitVec 24) : (s.setRes v).blk = s.blk := rfl
@[simp] theorem setRes_imem (v : BitVec 24) : (s.setRes v).imem = s.imem := rfl
@[simp] theorem setRes_omem (v : BitVec 24) : (s.setRes v).omem = s.omem := rfl
@[simp] theorem setRes_rdata (v : BitVec 24) : (s.setRes v).rdata = s.rdata := rfl
@[simp] theorem setRes_pend (v : BitVec 24) : (s.setRes v).pend = s.pend := rfl
@[simp] theorem setRes_resetCount (v : BitVec 24) : (s.setRes v).resetCount = s.resetCount := rfl
@[simp] theorem setRes_bootCount (v : BitVec 24) : (s.setRes v).bootCount = s.bootCount := rfl

/-! ### `setCtx` -/

@[simp] theorem setCtx_st (c : Nat) (v : Byte) : (s.setCtx c v).st = s.st := rfl
@[simp] theorem setCtx_err (c : Nat) (v : Byte) : (s.setCtx c v).err = s.err := rfl
@[simp] theorem setCtx_einfo (c : Nat) (v : Byte) : (s.setCtx c v).einfo = s.einfo := rfl
@[simp] theorem setCtx_res (c : Nat) (v : Byte) : (s.setCtx c v).res = s.res := rfl
@[simp] theorem setCtx_len (c : Nat) (v : Byte) : (s.setCtx c v).len = s.len := rfl
@[simp] theorem setCtx_iaddr (c : Nat) (v : Byte) : (s.setCtx c v).iaddr = s.iaddr := rfl
@[simp] theorem setCtx_oaddr (c : Nat) (v : Byte) : (s.setCtx c v).oaddr = s.oaddr := rfl
@[simp] theorem setCtx_olen (c : Nat) (v : Byte) : (s.setCtx c v).olen = s.olen := rfl
@[simp] theorem setCtx_coder (c : Nat) (v : Byte) : (s.setCtx c v).coder = s.coder := rfl
@[simp] theorem setCtx_ctx (c : Nat) (v : Byte) : (s.setCtx c v).ctx = tablePut s.ctx c v := rfl
@[simp] theorem setCtx_blk (c : Nat) (v : Byte) : (s.setCtx c v).blk = s.blk := rfl
@[simp] theorem setCtx_imem (c : Nat) (v : Byte) : (s.setCtx c v).imem = s.imem := rfl
@[simp] theorem setCtx_omem (c : Nat) (v : Byte) : (s.setCtx c v).omem = s.omem := rfl
@[simp] theorem setCtx_rdata (c : Nat) (v : Byte) : (s.setCtx c v).rdata = s.rdata := rfl
@[simp] theorem setCtx_pend (c : Nat) (v : Byte) : (s.setCtx c v).pend = s.pend := rfl
@[simp] theorem setCtx_resetCount (c : Nat) (v : Byte) : (s.setCtx c v).resetCount = s.resetCount := rfl
@[simp] theorem setCtx_bootCount (c : Nat) (v : Byte) : (s.setCtx c v).bootCount = s.bootCount := rfl

/-! ### `faultEntry` (R256) -/

@[simp] theorem faultEntry_st (e : Err) (info : Word32) : (faultEntry e info s).st = .fault := rfl
@[simp] theorem faultEntry_err (e : Err) (info : Word32) : (faultEntry e info s).err = e := rfl
@[simp] theorem faultEntry_einfo (e : Err) (info : Word32) : (faultEntry e info s).einfo = info := rfl
@[simp] theorem faultEntry_res (e : Err) (info : Word32) : (faultEntry e info s).res = s.res := rfl
@[simp] theorem faultEntry_len (e : Err) (info : Word32) : (faultEntry e info s).len = s.len := rfl
@[simp] theorem faultEntry_iaddr (e : Err) (info : Word32) : (faultEntry e info s).iaddr = s.iaddr := rfl
@[simp] theorem faultEntry_oaddr (e : Err) (info : Word32) : (faultEntry e info s).oaddr = s.oaddr := rfl
@[simp] theorem faultEntry_olen (e : Err) (info : Word32) : (faultEntry e info s).olen = 0 := rfl
@[simp] theorem faultEntry_coder (e : Err) (info : Word32) : (faultEntry e info s).coder = s.coder := rfl
@[simp] theorem faultEntry_ctx (e : Err) (info : Word32) : (faultEntry e info s).ctx = s.ctx := rfl
@[simp] theorem faultEntry_blk (e : Err) (info : Word32) : (faultEntry e info s).blk = s.blk := rfl
@[simp] theorem faultEntry_imem (e : Err) (info : Word32) : (faultEntry e info s).imem = s.imem := rfl
@[simp] theorem faultEntry_omem (e : Err) (info : Word32) : (faultEntry e info s).omem = s.omem := rfl
@[simp] theorem faultEntry_rdata (e : Err) (info : Word32) : (faultEntry e info s).rdata = s.rdata := rfl
@[simp] theorem faultEntry_pend (e : Err) (info : Word32) : (faultEntry e info s).pend = s.pend := rfl
@[simp] theorem faultEntry_resetCount (e : Err) (info : Word32) : (faultEntry e info s).resetCount = s.resetCount := rfl
@[simp] theorem faultEntry_bootCount (e : Err) (info : Word32) : (faultEntry e info s).bootCount = s.bootCount := rfl

/-! ### `softReset` (R51, R226) -/

@[simp] theorem softReset_st : (softReset s).st = .reset := rfl
@[simp] theorem softReset_err : (softReset s).err = .none := rfl
@[simp] theorem softReset_einfo : (softReset s).einfo = 0 := rfl
@[simp] theorem softReset_res : (softReset s).res = 0 := rfl
@[simp] theorem softReset_len : (softReset s).len = s.len := rfl
@[simp] theorem softReset_iaddr : (softReset s).iaddr = 0 := rfl
@[simp] theorem softReset_oaddr : (softReset s).oaddr = 0 := rfl
@[simp] theorem softReset_olen : (softReset s).olen = 0 := rfl
@[simp] theorem softReset_coder : (softReset s).coder = Coder.reset := rfl
@[simp] theorem softReset_ctx : (softReset s).ctx = Vector.replicate 300 0 := rfl
@[simp] theorem softReset_blk : (softReset s).blk = Block.unspecified (s.resetCount + 1) := rfl
@[simp] theorem softReset_imem : (softReset s).imem = s.imem := rfl
@[simp] theorem softReset_omem : (softReset s).omem = [] := rfl
@[simp] theorem softReset_rdata : (softReset s).rdata = s.rdata := rfl
@[simp] theorem softReset_pend : (softReset s).pend = s.pend := rfl
@[simp] theorem softReset_resetCount : (softReset s).resetCount = s.resetCount + 1 := rfl
@[simp] theorem softReset_bootCount : (softReset s).bootCount = s.bootCount := rfl

/-! ### `powerOn` (R280, R281) -/

@[simp] theorem powerOn_st : (powerOn s).st = .reset := rfl
@[simp] theorem powerOn_err : (powerOn s).err = .none := rfl
@[simp] theorem powerOn_einfo : (powerOn s).einfo = 0 := rfl
@[simp] theorem powerOn_res : (powerOn s).res = 0 := rfl
@[simp] theorem powerOn_len : (powerOn s).len = 0 := rfl
@[simp] theorem powerOn_iaddr : (powerOn s).iaddr = 0 := rfl
@[simp] theorem powerOn_oaddr : (powerOn s).oaddr = 0 := rfl
@[simp] theorem powerOn_olen : (powerOn s).olen = 0 := rfl
@[simp] theorem powerOn_coder : (powerOn s).coder = Coder.reset := rfl
@[simp] theorem powerOn_ctx : (powerOn s).ctx = Vector.replicate 300 0 := rfl
@[simp] theorem powerOn_blk : (powerOn s).blk = Block.unspecified (s.resetCount + 1) := rfl
@[simp] theorem powerOn_imem : (powerOn s).imem = [] := rfl
@[simp] theorem powerOn_omem : (powerOn s).omem = [] := rfl
@[simp] theorem powerOn_rdata : (powerOn s).rdata = s.rdata := rfl
@[simp] theorem powerOn_pend : (powerOn s).pend = s.pend := rfl
@[simp] theorem powerOn_resetCount : (powerOn s).resetCount = s.resetCount + 1 := rfl
@[simp] theorem powerOn_bootCount : (powerOn s).bootCount = s.bootCount + 1 := rfl

/-! ### Two updates of one group -/

@[simp] theorem setCoder_setCoder (c d : Coder) : (s.setCoder c).setCoder d = s.setCoder d := rfl
@[simp] theorem setBlk_setBlk (b d : Block) : (s.setBlk b).setBlk d = s.setBlk d := rfl
@[simp] theorem setSt_setSt (x y : SeqState) : (s.setSt x).setSt y = s.setSt y := rfl
@[simp] theorem setRes_setRes (v w : BitVec 24) : (s.setRes v).setRes w = s.setRes w := rfl
@[simp] theorem setCoder_self : s.setCoder s.coder = s := rfl
@[simp] theorem setBlk_self : s.setBlk s.blk = s := rfl
@[simp] theorem setSt_self : s.setSt s.st = s := rfl
@[simp] theorem setRes_self : s.setRes s.res = s := rfl

end Sys2Proof.Machine
end

