-- ==== Sys2Proof/Laws/Res.lean ====
section
/-! SUPPORT. The outcomes of an operation as one predicate, its rule for `call`, and what the dispatcher can
answer. -/

namespace Sys2Proof.Machine

/-- What holds of an operation's outcome, one predicate for each way it can end. -/
def Res.All {α : Type} (r : Res α) (returned : α → State → Prop) (raised : Err → Word32 → State → Prop)
    (stopped : Fault → Prop) (refused : Refusal → Prop) : Prop :=
  match r with
  | .ok v s => returned v s
  | .raise e info s => raised e info s
  | .stop f => stopped f
  | .refuse f => refused f

section Bind

variable {α β : Type}

@[simp] theorem bind_ok (v : α) (s : State) (k : α → State → Res β) : (Res.ok v s).bind k = k v s := rfl
@[simp] theorem bind_raise (e : Err) (i : Word32) (s : State) (k : α → State → Res β) :
    (Res.raise e i s : Res α).bind k = .raise e i s := rfl
@[simp] theorem bind_stop (f : Fault) (k : α → State → Res β) : (Res.stop f : Res α).bind k = .stop f := rfl
@[simp] theorem bind_refuse (f : Refusal) (k : α → State → Res β) :
    (Res.refuse f : Res α).bind k = .refuse f := rfl

theorem bind_assoc {γ : Type} (r : Res α) (k : α → State → Res β) (l : β → State → Res γ) :
    (r.bind k).bind l = r.bind fun v s => (k v s).bind l := by
  cases r <;> rfl

variable {R : Err → Word32 → State → Prop} {F : Fault → Prop} {U : Refusal → Prop}

/-- A sequence of two operations ends as its first part allows, or, after a return, as its second part does. -/
theorem all_bind {r : Res α} {k : α → State → Res β} {P : α → State → Prop} {Q : β → State → Prop}
    (h : r.All P R F U) (hk : ∀ v s, P v s → (k v s).All Q R F U) : (r.bind k).All Q R F U := by
  cases r with
  | ok v s => exact hk v s h
  | raise e i s => exact h
  | stop f => exact h
  | refuse f => exact h

/-- Weaker predicates hold of the same outcome. -/
theorem all_mono {r : Res α} {P Q : α → State → Prop} {R' : Err → Word32 → State → Prop} {F' : Fault → Prop}
    {U' : Refusal → Prop} (h : r.All P R F U) (hP : ∀ v s, P v s → Q v s)
    (hR : ∀ e i s, R e i s → R' e i s) (hF : ∀ f, F f → F' f) (hU : ∀ f, U f → U' f) :
    r.All Q R' F' U' := by
  cases r with
  | ok v s => exact hP v s h
  | raise e i s => exact hR e i s h
  | stop f => exact hF f h
  | refuse f => exact hU f h

theorem all_ok {r : Res α} {P : α → State → Prop} {v : α} {s : State} (h : r.All P R F U)
    (hr : r = .ok v s) : P v s := by
  subst hr; exact h

theorem all_raise {r : Res α} {P : α → State → Prop} {e : Err} {i : Word32} {s : State}
    (h : r.All P R F U) (hr : r = .raise e i s) : R e i s := by
  subst hr; exact h

end Bind

section Dispatch

/-- What a command's end is a next state of. -/
theorem finish_next {r : Res Unit} {t : State} (h : finish r = .next t) :
    r = .ok () t ∨ ∃ e i u, r = .raise e i u ∧ t = faultEntry e i u := by
  cases r with
  | ok v s => left; cases h; rfl
  | raise e i u => right; cases h; exact ⟨e, i, u, rfl, rfl⟩
  | stop f => cases h
  | refuse f => cases h

/-- The four ways the dispatcher answers a next state (R227): the command is ignored, it is illegal, it is out
of sequence, or it is performed. -/
theorem dispatch_next {i : Instr} {s t : State} {r : Res Unit} (h : dispatch i s r = .next t) :
    (s.st.terminal = true ∧ t = s) ∨
    (s.st.terminal = false ∧ (∃ e, checkOperands i = .error e) ∧
      t = faultEntry .illegalCmd (commandInfo i) s) ∨
    (s.st.terminal = false ∧ checkOperands i = .ok () ∧ legalIn i s.st = false ∧
      t = faultEntry .seqError (commandInfo i) s) ∨
    (s.st.terminal = false ∧ checkOperands i = .ok () ∧ legalIn i s.st = true ∧ finish r = .next t) := by
  unfold dispatch at h
  split at h
  · next h1 => cases h; exact .inl ⟨h1, rfl⟩
  · next h1 =>
    have h1 : s.st.terminal = false := by simpa using h1
    split at h
    · next e he => cases h; exact .inr (.inl ⟨h1, ⟨e, he⟩, rfl⟩)
    · next he =>
      split at h
      · next hl => exact .inr (.inr (.inr ⟨h1, he, hl, h⟩))
      · next hl =>
        cases h
        exact .inr (.inr (.inl ⟨h1, he, by simpa using hl, rfl⟩))

/-- A terminal state ignores the command. -/
theorem dispatch_terminal {i : Instr} {s : State} (r : Res Unit) (h : s.st.terminal = true) :
    dispatch i s r = .next s := by
  simp [dispatch, h]

/-- A command in range and in sequence is performed. -/
theorem dispatch_accepted {i : Instr} {s : State} (r : Res Unit) (h : s.st.terminal = false)
    (hc : checkOperands i = .ok ()) (hl : legalIn i s.st = true) : dispatch i s r = finish r := by
  simp [dispatch, h, hc, hl]

/-- A command out of sequence raises `SeqError` (R255). -/
theorem dispatch_sequence {i : Instr} {s : State} (r : Res Unit) (h : s.st.terminal = false)
    (hc : checkOperands i = .ok ()) (hl : legalIn i s.st = false) :
    dispatch i s r = .next (faultEntry .seqError (commandInfo i) s) := by
  simp [dispatch, h, hc, hl]

/-- An operand out of range raises `IllegalCmd` (R254). -/
theorem dispatch_illegal {i : Instr} {s : State} (r : Res Unit) {e : DecodeError}
    (h : s.st.terminal = false) (hc : checkOperands i = .error e) :
    dispatch i s r = .next (faultEntry .illegalCmd (commandInfo i) s) := by
  simp [dispatch, h, hc]

end Dispatch

end Sys2Proof.Machine
end

