-- ==== Sys2Proof/Laws/Coder.lean ====
section
/-! SUPPORT. What the operations of the Bit Source and of the arithmetic decoder can do: they change nothing
but the coder registers and the ContextTable, the one fault they raise is `TruncatedStream`, and they stop
only on an input longer than the input memory. -/

namespace Sys2Proof.Machine

/-- `t` differs from `s` at most in the coder registers and the ContextTable. -/
def CoderFrame (s t : State) : Prop := t = { s with coder := t.coder, ctx := t.ctx }

theorem coderFrame_refl (s : State) : CoderFrame s s := rfl

theorem coderFrame_trans {s t u : State} (h : CoderFrame s t) (k : CoderFrame t u) : CoderFrame s u := by
  unfold CoderFrame at *
  rw [k, h]

theorem coderFrame_setCoder (s : State) (c : Coder) : CoderFrame s (s.setCoder c) := rfl

theorem coderFrame_setCtx (s : State) (c : Nat) (v : Byte) : CoderFrame s (s.setCtx c v) := rfl

section Fields

variable {s t : State} (h : CoderFrame s t)
include h

theorem coderFrame_st : t.st = s.st := by rw [h]
theorem coderFrame_err : t.err = s.err := by rw [h]
theorem coderFrame_einfo : t.einfo = s.einfo := by rw [h]
theorem coderFrame_res : t.res = s.res := by rw [h]
theorem coderFrame_len : t.len = s.len := by rw [h]
theorem coderFrame_iaddr : t.iaddr = s.iaddr := by rw [h]
theorem coderFrame_oaddr : t.oaddr = s.oaddr := by rw [h]
theorem coderFrame_olen : t.olen = s.olen := by rw [h]
theorem coderFrame_blk : t.blk = s.blk := by rw [h]
theorem coderFrame_imem : t.imem = s.imem := by rw [h]
theorem coderFrame_omem : t.omem = s.omem := by rw [h]
theorem coderFrame_rdata : t.rdata = s.rdata := by rw [h]
theorem coderFrame_pend : t.pend = s.pend := by rw [h]
theorem coderFrame_resetCount : t.resetCount = s.resetCount := by rw [h]
theorem coderFrame_bootCount : t.bootCount = s.bootCount := by rw [h]

end Fields

/-- How `TruncatedStream` is raised out of a coder operation begun in `s` (R111, R251): at the end of the
input, `delay` counted down to 0. -/
def RaisesTruncated (s : State) (e : Err) (info : Word32) (t : State) : Prop :=
  e = .truncatedStream ∧ info = t.coder.rp ∧ t.len.toNat ≤ t.coder.rp.toNat ∧ t.coder.delay = 0 ∧
    CoderFrame s t

/-- A coder operation begun in `s`: if it returns it has changed only the coder and the contexts and its value
satisfies `P`; it raises only `TruncatedStream`; it stops only when `LEN > IN_CAP`; it refuses nothing. -/
def CoderOp {α : Type} (p : Params) (s : State) (r : Res α) (P : α → State → Prop) : Prop :=
  r.All (fun v t => CoderFrame s t ∧ P v t) (RaisesTruncated s)
    (fun f => f = .indexOutOfSpace .imem ∧ p.inCap.toNat < s.len.toNat) (fun _ => False)

section Rules

variable {α β : Type} {p : Params} {s : State}

theorem coderOp_ok {v : α} {t : State} {P : α → State → Prop} (h : CoderFrame s t) (hv : P v t) :
    CoderOp p s (.ok v t) P := ⟨h, hv⟩

theorem coderOp_mono {r : Res α} {P Q : α → State → Prop} (h : CoderOp p s r P)
    (hPQ : ∀ v t, P v t → Q v t) : CoderOp p s r Q :=
  all_mono h (fun v t hp => ⟨hp.1, hPQ v t hp.2⟩) (fun _ _ _ h => h) (fun _ h => h) (fun _ h => h)

/-- A coder operation begun after another has changed only the coder and the contexts. -/
theorem coderOp_after {t : State} {r : Res α} {P : α → State → Prop} (h : CoderFrame s t)
    (hr : CoderOp p t r P) : CoderOp p s r P :=
  all_mono hr (fun _ _ hp => ⟨coderFrame_trans h hp.1, hp.2⟩)
    (fun _ _ _ ⟨h1, h2, h3, h4, h5⟩ => ⟨h1, h2, h3, h4, coderFrame_trans h h5⟩)
    (fun _ hf => ⟨hf.1, coderFrame_len h ▸ hf.2⟩) (fun _ h => h)

/-- `call` of a coder operation. -/
theorem coderOp_bind {r : Res α} {k : α → State → Res β} {P : α → State → Prop} {Q : β → State → Prop}
    (h : CoderOp p s r P) (hk : ∀ v t, P v t → CoderOp p t (k v t) Q) : CoderOp p s (r.bind k) Q :=
  all_bind h fun v t ht => coderOp_after ht.1 (hk v t ht.2)

end Rules

section BitSource

variable (p : Params) (s : State)

/-- `NEXTBYTE` (R111). -/
theorem nextByte_coderOp (counted : Bool) : CoderOp p s (nextByte p counted s) fun _ _ => True := by
  unfold nextByte
  split
  · next h1 =>
    split
    · next h2 => exact ⟨rfl, by omega⟩
    · exact ⟨coderFrame_setCoder _ _, trivial⟩
  · next h1 =>
    split
    · split
      · exact ⟨rfl, rfl, by simpa using h1, rfl, coderFrame_setCoder _ _⟩
      · exact ⟨coderFrame_setCoder _ _, trivial⟩
    · exact ⟨coderFrame_refl _, trivial⟩

theorem preloadLoop_coderOp (n : Nat) : CoderOp p s (preloadLoop p n s) fun _ _ => True := by
  induction n generalizing s with
  | zero => exact ⟨coderFrame_refl _, trivial⟩
  | succ n ih =>
    unfold preloadLoop
    split
    · exact coderOp_bind (nextByte_coderOp p s true)
        fun b t _ => coderOp_after (coderFrame_setCoder _ _) (ih _)
    · exact ⟨coderFrame_refl _, trivial⟩

/-- `PRELOAD` (R112). -/
theorem preload_coderOp : CoderOp p s (preload p s) fun _ _ => True := preloadLoop_coderOp p s 4

/-- The end of a renormalisation (R113, R133). -/
theorem refill_coderOp : CoderOp p s (refill p s) fun _ _ => True := by
  unfold refill
  refine coderOp_bind (P := fun _ _ => True) ?_ fun _ t _ => ⟨coderFrame_setCoder _ _, trivial⟩
  split
  · exact preload_coderOp p s
  · exact ⟨coderFrame_refl _, trivial⟩

/-- `DINIT` (R114): it is refused exactly when `LEN > IN_CAP`; it leaves a session in `READY`. -/
theorem dinit_all : (dinit p s).All
    (fun _ t => t = { s with coder := t.coder, ctx := t.ctx, olen := 0, st := .ready } ∧
      s.len.toNat ≤ p.inCap.toNat)
    (fun e info t => RaisesTruncated (freshSession s) e info t) (fun _ => False)
    (fun r => r = .lenExceedsInCap ∧ p.inCap.toNat < s.len.toNat) := by
  unfold dinit
  split
  · next h => exact ⟨rfl, h⟩
  · next h =>
    have hs : ¬ p.inCap.toNat < (freshSession s).len.toNat := h
    have key : CoderOp p (freshSession s)
        ((nextByte p false (freshSession s)).bind fun b0 s =>
          (nextByte p false s).bind fun b1 s => preload p (primed p b0 b1 s)) fun _ _ => True :=
      coderOp_bind (nextByte_coderOp _ _ _) fun b0 t _ =>
        coderOp_bind (nextByte_coderOp _ _ _) fun b1 t _ =>
          coderOp_after (coderFrame_setCoder _ _) (preload_coderOp _ _)
    have e : ((nextByte p false (freshSession s)).bind fun b0 s =>
          (nextByte p false s).bind fun b1 s =>
          (preload p (primed p b0 b1 s)).bind fun _ s => Res.ok () ((setFence s).setSt .ready)) =
        ((nextByte p false (freshSession s)).bind fun b0 s =>
          (nextByte p false s).bind fun b1 s => preload p (primed p b0 b1 s)).bind
          fun _ s => Res.ok () ((setFence s).setSt .ready) := by
      simp only [bind_assoc]
    rw [e]
    refine all_bind (P := fun _ t => CoderFrame (freshSession s) t)
      (all_mono key (fun _ _ h => h.1) (fun _ _ _ h => h) (fun _ hf => (hs hf.2).elim)
        (fun _ h => h.elim)) ?_
    intro _ t ht
    refine ⟨?_, Nat.le_of_not_lt h⟩
    rw [ht]
    rfl

end BitSource

section Decoder

variable (p : Params) (s : State)

/-- `RENORM_LPS` (R132). -/
theorem renormLps_coderOp (z : Nat) : CoderOp p s (renormLps p z s) fun _ _ => True :=
  coderOp_after (coderFrame_setCoder _ _) (refill_coderOp _ _)

/-- `RENORM_MPS` (R134). -/
theorem renormMps_coderOp (z : Nat) : CoderOp p s (renormMps p z s) fun _ _ => True :=
  coderOp_after (coderFrame_setCoder _ _) (refill_coderOp _ _)

/-- `ZPRAW` (R139). -/
theorem zpraw_coderOp : CoderOp p s (zpraw p s) fun _ _ => True := by
  unfold zpraw
  dsimp only
  split
  · exact coderOp_bind (renormLps_coderOp _ _ _) fun _ _ _ => ⟨coderFrame_refl _, trivial⟩
  · exact coderOp_bind (renormMps_coderOp _ _ _) fun _ _ _ => ⟨coderFrame_refl _, trivial⟩

/-- `ZPSUB` (R136 to R138). -/
theorem zpsub_coderOp (c : Nat) (q : Byte) (z : Nat) :
    CoderOp p s (zpsub p c q z s) fun _ _ => True := by
  unfold zpsub
  dsimp only
  split
  · exact coderOp_after (coderFrame_setCtx _ _ _)
      (coderOp_bind (renormLps_coderOp _ _ _) fun _ _ _ => ⟨coderFrame_refl _, trivial⟩)
  · unfold zpsubMps
    refine coderOp_bind (P := fun _ _ => True) ?_ fun _ _ _ => ⟨coderFrame_refl _, trivial⟩
    split
    · exact coderOp_after (coderFrame_setCtx _ _ _) (renormMps_coderOp _ _ _)
    · exact renormMps_coderOp _ _ _

/-- `ZPCTX` (R135). -/
theorem zpctx_coderOp (c : Nat) : CoderOp p s (zpctx p c s) fun _ _ => True := by
  unfold zpctx
  dsimp only
  split
  · exact ⟨coderFrame_setCoder _ _, trivial⟩
  · exact zpsub_coderOp _ _ _ _ _

theorem rawLoop_coderOp (n v : Nat) :
    CoderOp p s (rawLoop p n v s) fun x _ => v * 2 ^ n ≤ x ∧ x < (v + 1) * 2 ^ n := by
  induction n generalizing s v with
  | zero => exact ⟨coderFrame_refl _, by simp, by simp⟩
  | succ n ih =>
    refine coderOp_bind (zpraw_coderOp p s) fun b t _ => coderOp_mono (ih t _) fun x _ h => ?_
    have hb : b.toNat ≤ 1 := Bool.toNat_le b
    have h1 : (2 * v + b.toNat) * 2 ^ n ≥ 2 * v * 2 ^ n := Nat.mul_le_mul_right _ (by omega)
    have h2 : (2 * v + b.toNat + 1) * 2 ^ n ≤ (2 * v + 2) * 2 ^ n := Nat.mul_le_mul_right _ (by omega)
    have e1 : v * 2 ^ (n + 1) = 2 * v * 2 ^ n := by ring
    have e2 : (v + 1) * 2 ^ (n + 1) = (2 * v + 2) * 2 ^ n := by ring
    omega

/-- `RAWN n` returns a value below `2^n` (R140). -/
theorem rawn_coderOp (n : Nat) : CoderOp p s (rawn p n s) fun x _ => x < 2 ^ n :=
  coderOp_bind (rawLoop_coderOp p s n 1) fun v t h => ⟨coderFrame_refl _, by omega⟩

theorem treeLoop_coderOp (base nb n : Nat) :
    CoderOp p s (treeLoop p base nb n s) fun x _ => n * 2 ^ nb ≤ x ∧ x < (n + 1) * 2 ^ nb := by
  induction nb generalizing s n with
  | zero => exact ⟨coderFrame_refl _, by simp, by simp⟩
  | succ nb ih =>
    refine coderOp_bind (zpctx_coderOp p s _) fun b t _ => coderOp_mono (ih t _) fun x _ h => ?_
    have hb : b.toNat ≤ 1 := Bool.toNat_le b
    have h1 : (2 * n + b.toNat) * 2 ^ nb ≥ 2 * n * 2 ^ nb := Nat.mul_le_mul_right _ (by omega)
    have h2 : (2 * n + b.toNat + 1) * 2 ^ nb ≤ (2 * n + 2) * 2 ^ nb := Nat.mul_le_mul_right _ (by omega)
    have e1 : n * 2 ^ (nb + 1) = 2 * n * 2 ^ nb := by ring
    have e2 : (n + 1) * 2 ^ (nb + 1) = (2 * n + 2) * 2 ^ nb := by ring
    omega

/-- `BINN nb, B` returns a value below `2^nb` (R141). -/
theorem binn_coderOp (nb base : Nat) : CoderOp p s (binn p nb base s) fun x _ => x < 2 ^ nb :=
  coderOp_bind (treeLoop_coderOp p s base nb 1) fun v t h => ⟨coderFrame_refl _, by omega⟩

/-- A command that returns a value (R43, R227): beside the coder, only `res` changes. -/
theorem storeRes_all {r : Res Nat} {P : Nat → State → Prop} (h : CoderOp p s r P) :
    (storeRes r).All
      (fun _ t => t = { s with coder := t.coder, ctx := t.ctx, res := t.res } ∧
        ∃ v u, P v u ∧ t = u.setRes (BitVec.ofNat 24 v))
      (RaisesTruncated s) (fun f => f = .indexOutOfSpace .imem ∧ p.inCap.toNat < s.len.toNat)
      (fun _ => False) :=
  all_bind h fun v t ht => by
    refine ⟨?_, v, t, ht.2, rfl⟩
    rw [ht.1]
    rfl

theorem bitValue_coderOp {r : Res Bool} (h : CoderOp p s r fun _ _ => True) :
    CoderOp p s (bitValue r) fun v _ => v < 2 :=
  coderOp_bind h fun b _ _ => ⟨coderFrame_refl _, by cases b <;> simp⟩

end Decoder

end Sys2Proof.Machine
end

