-- ==== Sys2Proof/Laws/Engine.lean ====
section
/-! SUPPORT. What the operations of the symbol model, the reconstructor and the orchestrator can do, each said
once for every way it can end. -/

namespace Sys2Proof.Machine

/-- `t` differs from `s` at most in what a decode changes: the sequencer state, the coder, the contexts, the
block and the output. -/
def EngineFrame (s t : State) : Prop :=
  t = { s with st := t.st, coder := t.coder, ctx := t.ctx, blk := t.blk, omem := t.omem, olen := t.olen }

theorem engineFrame_refl (s : State) : EngineFrame s s := rfl

theorem engineFrame_trans {s t u : State} (h : EngineFrame s t) (k : EngineFrame t u) : EngineFrame s u := by
  unfold EngineFrame at *
  rw [k, h]

theorem engineFrame_of_coderFrame {s t : State} (h : CoderFrame s t) : EngineFrame s t := by
  unfold EngineFrame
  rw [h]

theorem engineFrame_setBlk (s : State) (b : Block) : EngineFrame s (s.setBlk b) := rfl

theorem engineFrame_setSt (s : State) (x : SeqState) : EngineFrame s (s.setSt x) := rfl

section Fields

variable {s t : State} (h : EngineFrame s t)
include h

theorem engineFrame_err : t.err = s.err := by rw [h]
theorem engineFrame_einfo : t.einfo = s.einfo := by rw [h]
theorem engineFrame_res : t.res = s.res := by rw [h]
theorem engineFrame_len : t.len = s.len := by rw [h]
theorem engineFrame_iaddr : t.iaddr = s.iaddr := by rw [h]
theorem engineFrame_oaddr : t.oaddr = s.oaddr := by rw [h]
theorem engineFrame_imem : t.imem = s.imem := by rw [h]
theorem engineFrame_rdata : t.rdata = s.rdata := by rw [h]
theorem engineFrame_pend : t.pend = s.pend := by rw [h]
theorem engineFrame_resetCount : t.resetCount = s.resetCount := by rw [h]
theorem engineFrame_bootCount : t.bootCount = s.bootCount := by rw [h]

end Fields

section SymbolModel

variable (p : Params)

theorem bandLadder_coderOp (s : State) (left j : Nat) (hj : left + j = 8) :
    CoderOp p s (bandLadder p left j s) fun r _ => r ≤ 256 := by
  induction left generalizing s j with
  | zero => exact ⟨coderFrame_refl _, le_refl _⟩
  | succ left ih =>
    refine coderOp_bind (zpctx_coderOp p s _) fun b t _ => ?_
    split
    · refine coderOp_bind (binn_coderOp p t _ _) fun v u hv => ⟨coderFrame_refl _, ?_⟩
      have h1 : 2 ^ j ≤ 2 ^ 7 := Nat.pow_le_pow_right (by omega) (by omega)
      omega
    · exact ih t (j + 1) (by omega)

/-- `RANKDEC` returns a rank in 0..256 (R183). -/
theorem rankdec_coderOp (s : State) (cid : Nat) : CoderOp p s (rankdec p cid s) fun r _ => r ≤ 256 := by
  refine coderOp_bind (zpctx_coderOp p s _) fun b t _ => ?_
  split
  · exact ⟨coderFrame_refl _, by omega⟩
  · refine coderOp_bind (zpctx_coderOp p t _) fun b u _ => ?_
    split
    · exact ⟨coderFrame_refl _, by omega⟩
    · exact bandLadder_coderOp p u 7 1 rfl

/-- `MTFROT` changes `mtf`, `freq` and `fadd` only (R185). -/
theorem mtfrot_frame (r : Nat) (c : Byte) (b : Block) :
    mtfrot p r c b =
      { b with mtf := (mtfrot p r c b).mtf, freq := (mtfrot p r c b).freq, fadd := (mtfrot p r c b).fadd } :=
  rfl

/-- What one position changes of the block registers (R182, R184): the rank, the rank model, one entry of
`data`, the marker registers and `i`. -/
theorem takeRank_frame (r : Nat) (b : Block) :
    takeRank p r b =
      { b with
        mtfno := BitVec.ofNat 9 r
        mtf := (takeRank p r b).mtf
        freq := (takeRank p r b).freq
        fadd := (takeRank p r b).fadd
        data := Memory.write b.data b.i.toNat (tableGet b.mtf (if r = 256 then 0 else r))
        markerpos := if r = 256 then b.i else b.markerpos
        mcount := if r = 256 then countMarker b.mcount else b.mcount
        i := b.i + 1 } := by
  unfold takeRank
  by_cases h : r = 256
  · simp only [if_pos h]; rfl
  · simp only [if_neg h]; rfl

/-- A marker leaves the rank model as it was (R184). -/
theorem takeRank_marker (b : Block) : (takeRank p 256 b).mtf = b.mtf ∧ (takeRank p 256 b).freq = b.freq ∧
    (takeRank p 256 b).fadd = b.fadd := ⟨rfl, rfl, rfl⟩

/-- Any other rank rotates it (R182, R185). -/
theorem takeRank_rank {r : Nat} (h : r ≠ 256) (b : Block) :
    (takeRank p r b).mtf = (mtfrot p r (tableGet b.mtf r) b).mtf ∧
    (takeRank p r b).freq = (mtfrot p r (tableGet b.mtf r) b).freq ∧
    (takeRank p r b).fadd = (mtfrot p r (tableGet b.mtf r) b).fadd := by
  unfold takeRank
  simp only [if_neg h]
  exact ⟨rfl, rfl, rfl⟩

/-- `SYMDEC` (R182). -/
theorem symdec_all (s : State) : (symdec p s).All
    (fun _ t => ∃ r u, r ≤ 256 ∧ CoderFrame s u ∧ s.blk.i.toNat < MAXSIZE ∧
      t = (u.setBlk (takeRank p r s.blk)).setSt
        (if (s.blk.i + 1).toNat = s.blk.size.toNat then .ranked else s.st))
    (RaisesTruncated s)
    (fun f => (f = .indexOutOfSpace .imem ∧ p.inCap.toNat < s.len.toNat) ∨
      (f = .indexOutOfSpace .data ∧ MAXSIZE ≤ s.blk.i.toNat))
    (fun _ => False) := by
  refine all_bind (P := fun r u => CoderFrame s u ∧ r ≤ 256)
    (all_mono (rankdec_coderOp p s _) (fun _ _ h => h) (fun _ _ _ h => h) (fun _ h => .inl h)
      (fun _ h => h)) fun r u h => ?_
  have hb := coderFrame_blk h.1
  split
  · next hi => exact .inr ⟨rfl, hb ▸ hi⟩
  · next hi =>
    refine ⟨r, u, h.2, h.1, Nat.lt_of_not_le (hb ▸ hi), ?_⟩
    have h1 : (takeRank p r s.blk).i = s.blk.i + 1 := by rw [takeRank_frame]
    have h2 : (takeRank p r s.blk).size = s.blk.size := by rw [takeRank_frame]
    rw [hb, h1, h2, coderFrame_st h.1]

end SymbolModel

section Reconstructor

variable (p : Params) (s : State)

/-- Passes 2 to 4 change `posn`, `count`, `data`, `last` and `ptr` only (R203 to R205). -/
theorem reconstruct_frame : reconstruct s = s.setBlk { s.blk with
    posn := (reconstruct s).blk.posn
    count := (reconstruct s).blk.count
    data := (reconstruct s).blk.data
    last := 0
    ptr := (reconstruct s).blk.ptr } := rfl

/-- `IBWT` (R201, R202, R206). -/
theorem ibwt_all : (ibwt p s).All
    (fun _ t => markerCountBad p s.blk = false ∧ markerPlaceBad s.blk = false ∧ s.blk.size.toNat ≤ MAXSIZE ∧
      t = (reconstruct s).setSt .recon ∧ t.blk.ptr = s.blk.markerpos)
    (fun e info t => e = .corruptBlock ∧
      ((info = 1 ∧ t = s) ∨ (info = 2 ∧ t = s) ∨ (info = 3 ∧ t = reconstruct s)))
    (fun f => f = .indexOutOfSpace .posn ∧ MAXSIZE < s.blk.size.toNat) (fun _ => False) := by
  unfold ibwt
  split
  · exact ⟨rfl, .inl ⟨rfl, rfl⟩⟩
  · next h1 =>
    split
    · exact ⟨rfl, .inr (.inl ⟨rfl, rfl⟩)⟩
    · next h2 =>
      split
      · next h3 => exact ⟨rfl, h3⟩
      · next h3 =>
        dsimp only
        split
        · exact ⟨rfl, .inr (.inr ⟨rfl, rfl⟩)⟩
        · next h4 =>
          refine ⟨by simpa using h1, by simpa using h2, Nat.le_of_not_lt h3, rfl, ?_⟩
          have h5 : (reconstruct s).blk.ptr = (reconstruct s).blk.markerpos := by simpa using h4
          exact h5

end Reconstructor

section Orchestrator

variable (p : Params) (s : State)

theorem fshiftField_coderOp :
    CoderOp p s (fshiftField p s) fun f _ => f ≤ 3 ∧ (p.fshiftUnary = true → f ≤ 2) := by
  unfold fshiftField
  split
  · refine coderOp_bind (zpraw_coderOp p s) fun b t _ => ?_
    split
    · refine coderOp_bind (zpraw_coderOp p t) fun b u _ => ⟨coderFrame_refl _, ?_⟩
      cases b <;> simp
    · exact ⟨coderFrame_refl _, by simp⟩
  · next h =>
    exact coderOp_mono (rawn_coderOp p s 2) fun v _ hv =>
      ⟨by omega, fun hu => absurd hu h⟩

/-- `BLKHDR` (R221): the terminator, or the header of a block of a legal size. -/
theorem blkhdr_all : (blkhdr p s).All
    (fun _ t => ∃ v u, CoderFrame s u ∧
      ((v = 0 ∧ t = (u.setBlk { s.blk with size := 0 }).setSt .done) ∨
        (1 ≤ v ∧ v ≤ MAXSIZE ∧ ∃ f, f ≤ 3 ∧ (p.fshiftUnary = true → f ≤ 2) ∧
          t = (u.setBlk (freshBlock p f { s.blk with size := BitVec.ofNat 24 v })).setSt .block)))
    (fun e info t =>
      (e = .truncatedStream ∧ info = t.coder.rp ∧ t.len.toNat ≤ t.coder.rp.toNat ∧ t.coder.delay = 0 ∧
        CoderFrame (s.setBlk { s.blk with size := t.blk.size }) t) ∨
      (e = .blockTooLarge ∧ ∃ v u, MAXSIZE < v ∧ v < 2 ^ 24 ∧ info = BitVec.ofNat 32 v ∧ CoderFrame s u ∧
        t = u.setBlk { s.blk with size := BitVec.ofNat 24 v }))
    (fun f => f = .indexOutOfSpace .imem ∧ p.inCap.toNat < s.len.toNat) (fun _ => False) := by
  refine all_bind (P := fun v u => CoderFrame s u ∧ v < 2 ^ 24)
    (all_mono (rawn_coderOp p s 24) (fun _ _ h => h) ?_ (fun _ h => h) (fun _ h => h)) fun v u hu => ?_
  · intro e i t ⟨h1, h2, h3, h4, h5⟩
    refine .inl ⟨h1, h2, h3, h4, ?_⟩
    rw [coderFrame_blk h5]
    exact h5
  · have hb := coderFrame_blk hu.1
    dsimp only
    split
    · next hv => subst hv; exact ⟨0, u, hu.1, .inl ⟨rfl, by rw [hb]; rfl⟩⟩
    · next hv =>
      split
      · next hm => exact .inr ⟨rfl, v, u, hm, hu.2, rfl, hu.1, by rw [hb]⟩
      · next hm =>
        have hframe : CoderFrame (s.setBlk { s.blk with size := BitVec.ofNat 24 v })
            (u.setBlk { u.blk with size := BitVec.ofNat 24 v }) := by
          unfold CoderFrame
          rw [hb, hu.1]
          rfl
        refine all_bind (P := fun f t => CoderFrame (s.setBlk { s.blk with size := BitVec.ofNat 24 v }) t ∧
            f ≤ 3 ∧ (p.fshiftUnary = true → f ≤ 2))
          (all_mono (coderOp_after hframe (fshiftField_coderOp p _)) (fun _ _ h => h) ?_
            (fun _ h => h) (fun _ h => h)) fun f t ht => ?_
        · intro e i t ⟨h1, h2, h3, h4, h5⟩
          refine .inl ⟨h1, h2, h3, h4, ?_⟩
          rw [coderFrame_blk h5]
          exact h5
        · refine ⟨v, { s with coder := t.coder, ctx := t.ctx }, rfl,
            .inr ⟨by omega, Nat.le_of_not_lt hm, f, ht.2.1, ht.2.2, ?_⟩⟩
          rw [coderFrame_blk ht.1]
          conv_lhs => rw [ht.1]
          rfl

/-- `EMIT` (R222). -/
theorem emit_all : (emit s).All
    (fun _ t => s.blk.size.toNat - 1 ≤ MAXSIZE ∧ s.olen.toNat + (s.blk.size.toNat - 1) < 2 ^ 32 ∧
      t = { s with
        omem := appendBytes s.dataRead (s.blk.size.toNat - 1) s.olen.toNat s.omem
        olen := BitVec.ofNat 32 (s.olen.toNat + (s.blk.size.toNat - 1))
        st := .ready })
    (fun _ _ _ => False)
    (fun f => f = .indexOutOfSpace .data ∧ MAXSIZE < s.blk.size.toNat - 1)
    (fun r => r = .outputTooLong ∧ 2 ^ 32 ≤ s.olen.toNat + (s.blk.size.toNat - 1)) := by
  unfold emit
  dsimp only
  split
  · next h => exact ⟨rfl, h⟩
  · next h =>
    split
    · next h2 => exact ⟨rfl, h2⟩
    · next h2 => exact ⟨Nat.le_of_not_lt h, Nat.lt_of_not_le h2, rfl⟩

/-- How a composite operation ends (R223, R224): whatever it does, it changes only what a decode changes, and it
raises one of the source's three faults. -/
def EngineOp {α : Type} (s : State) (r : Res α) (P : State → Prop) : Prop :=
  r.All (fun _ t => EngineFrame s t ∧ P t)
    (fun e _ t => (e = .truncatedStream ∨ e = .blockTooLarge ∨ e = .corruptBlock) ∧ EngineFrame s t)
    (fun f => ∃ sp, f = .indexOutOfSpace sp) (fun r => r = .outputTooLong ∨ r = .lenExceedsInCap)

theorem engineOp_bind {α β : Type} {s : State} {r : Res α} {k : α → State → Res β} {P Q : State → Prop}
    (h : EngineOp s r P) (hk : ∀ v t, P t → EngineOp t (k v t) Q) : EngineOp s (r.bind k) Q :=
  all_bind h fun v t ht => all_mono (hk v t ht.2)
    (fun _ _ hq => ⟨engineFrame_trans ht.1 hq.1, hq.2⟩)
    (fun _ _ _ hq => ⟨hq.1, engineFrame_trans ht.1 hq.2⟩) (fun _ h => h) (fun _ h => h)

theorem blkhdr_engineOp : EngineOp s (blkhdr p s) fun t => t.st = .done ∨ t.st = .block :=
  all_mono (blkhdr_all p s)
    (fun _ t ⟨v, u, hu, h⟩ => by
      rcases h with ⟨-, rfl⟩ | ⟨-, -, f, -, -, rfl⟩
      · exact ⟨engineFrame_trans (engineFrame_of_coderFrame hu) rfl, .inl rfl⟩
      · exact ⟨engineFrame_trans (engineFrame_of_coderFrame hu) rfl, .inr rfl⟩)
    (fun e i t h => by
      rcases h with ⟨he, -, -, -, h⟩ | ⟨he, v, u, -, -, -, hu, rfl⟩
      · exact ⟨.inl he, engineFrame_trans (engineFrame_setBlk _ _) (engineFrame_of_coderFrame h)⟩
      · exact ⟨.inr (.inl he), engineFrame_trans (engineFrame_of_coderFrame hu) rfl⟩)
    (fun f h => ⟨_, h.1⟩) (fun _ h => h.elim)

theorem symdec_engineOp : EngineOp s (symdec p s) fun _ => True :=
  all_mono (symdec_all p s)
    (fun _ t ⟨r, u, _, hu, _, ht⟩ =>
      ⟨by rw [ht]; exact engineFrame_trans (engineFrame_of_coderFrame hu) rfl, trivial⟩)
    (fun e i t h => ⟨.inl h.1, engineFrame_of_coderFrame h.2.2.2.2⟩)
    (fun f h => h.elim (fun h => ⟨_, h.1⟩) (fun h => ⟨_, h.1⟩)) (fun _ h => h.elim)

theorem symdecLoop_engineOp (n : Nat) : EngineOp s (symdecLoop p n s) fun _ => True := by
  induction n generalizing s with
  | zero => exact ⟨engineFrame_refl _, trivial⟩
  | succ n ih =>
    unfold symdecLoop
    split
    · exact engineOp_bind (symdec_engineOp p s) fun _ t _ => ih t
    · exact ⟨engineFrame_refl _, trivial⟩

theorem ibwt_engineOp : EngineOp s (ibwt p s) fun t => t.st = .recon :=
  all_mono (ibwt_all p s)
    (fun _ t h => by rw [h.2.2.2.1]; exact ⟨rfl, rfl⟩)
    (fun e i t h => ⟨.inr (.inr h.1), by
      rcases h.2 with ⟨-, rfl⟩ | ⟨-, rfl⟩ | ⟨-, rfl⟩ <;> rfl⟩)
    (fun f h => ⟨_, h.1⟩) (fun _ h => h.elim)

theorem emit_engineOp : EngineOp s (emit s) fun t => t.st = .ready :=
  all_mono (emit_all s) (fun _ t h => by rw [h.2.2]; exact ⟨rfl, rfl⟩) (fun _ _ _ h => h.elim)
    (fun f h => ⟨_, h.1⟩) (fun r h => .inl h.1)

/-- `BLOCK` (R223): if it returns, a block was appended or the terminator was read. -/
theorem block_engineOp : EngineOp s (block p s) fun t => t.st = .ready ∨ t.st = .done := by
  refine engineOp_bind (blkhdr_engineOp p s) fun _ t _ => ?_
  split
  · next h => exact ⟨engineFrame_refl _, .inr h⟩
  · exact engineOp_bind (symdecLoop_engineOp p t _) fun _ u _ =>
      engineOp_bind (ibwt_engineOp p u) fun _ v _ =>
        all_mono (emit_engineOp v) (fun _ _ h => ⟨h.1, .inl h.2⟩) (fun _ _ _ h => h) (fun _ h => h)
          (fun _ h => h)

theorem blockLoop_engineOp (n : Nat) (h : s.st = .ready ∨ s.st = .done) :
    EngineOp s (blockLoop p n s) fun t => t.st = .ready ∨ t.st = .done := by
  induction n generalizing s with
  | zero => exact ⟨engineFrame_refl _, h⟩
  | succ n ih =>
    unfold blockLoop
    split
    · exact engineOp_bind (block_engineOp p s) fun _ t ht => ih t ht
    · exact ⟨engineFrame_refl _, h⟩

/-- `RUN` (R224). -/
theorem run_engineOp : EngineOp s (run p s) fun t => t.st = .ready ∨ t.st = .done := by
  refine engineOp_bind (P := fun t => t.st = .ready)
    (all_mono (dinit_all p s) (fun _ t h => ?_) (fun e i t h => ⟨.inl h.1, ?_⟩) (fun _ h => h.elim)
      (fun _ h => .inr h.1)) fun _ t ht => blockLoop_engineOp p t _ (.inl ht)
  · rw [h.1]; exact ⟨rfl, rfl⟩
  · exact engineFrame_trans (t := freshSession s) rfl (engineFrame_of_coderFrame h.2.2.2.2)

end Orchestrator

end Sys2Proof.Machine
end

