-- ==== Sys2Proof/Laws/HostPort.lean ====
section
/-! SUPPORT. What a step can do, said once: each way the host's next event can end. -/

namespace Sys2Proof.Machine

/-- A read of a host register changes `rdata` and, for `ODATA`, `OADDR` (R24, R72). -/
theorem hostRead_frame (r : HostReg) (s : State) :
    hostRead r s = { s with
      rdata := hostValue r s, oaddr := if r = .odata then s.oaddr + 1 else s.oaddr } := rfl

/-- A write of a host register changes `LEN`, `IADDR`, `OADDR` and the input memory at most (R24). -/
theorem hostWrite_frame (p : Params) (r : HostReg) (v : Word32) (s : State) :
    hostWrite p r v s = { s with
      len := (hostWrite p r v s).len
      iaddr := (hostWrite p r v s).iaddr
      oaddr := (hostWrite p r v s).oaddr
      imem := (hostWrite p r v s).imem } := by
  cases r <;> simp only [hostWrite, writeIdata] <;> first | rfl | (split <;> rfl)

/-- Outside `RESET` a write leaves `LEN` and the input memory as they are (R74). -/
theorem hostWrite_input (p : Params) (r : HostReg) (v : Word32) (s : State) (h : s.st ≠ .reset) :
    (hostWrite p r v s).len = s.len ∧ (hostWrite p r v s).imem = s.imem := by
  cases r <;> simp [hostWrite, writeIdata, h]

/-- Every way a step answers a next state: the host waits, reads a register, writes one, powers the block on, or
writes a command word, which is executed or rejected. -/
theorem step_cases {s t : State} (h : step s = .next t) :
    (s.pend = [] ∧ t = s) ∨
    ∃ rest,
      (∃ offset r, s.pend = .read offset 32 :: rest ∧ hostRegAt offset = some r ∧
        t = hostRead r { s with pend := rest }) ∨
      (∃ offset r v, s.pend = .write offset 32 v :: rest ∧ hostRegAt offset = some r ∧ r ≠ .cmd ∧
        t = hostWrite params r v { s with pend := rest }) ∨
      (s.pend = .powerOn :: rest ∧ t = powerOn { s with pend := rest }) ∨
      (∃ offset v, s.pend = .write offset 32 v :: rest ∧ hostRegAt offset = some .cmd ∧
        ((∃ i, decode (v.setWidth 16) = .ok i ∧ exec i { s with pend := rest } = .next t) ∨
          ((∃ e, decode (v.setWidth 16) = .error e) ∧
            t = rejectWord (v.setWidth 16) { s with pend := rest }))) := by
  unfold step fetch at h
  rcases hp : s.pend with _ | ⟨e, rest⟩ <;> rw [hp] at h
  · cases h
    exact .inl ⟨rfl, rfl⟩
  refine .inr ⟨rest, ?_⟩
  cases e with
  | read offset bits =>
    by_cases hb : bits = 32 <;> rcases ho : hostRegAt offset with _ | r <;>
      simp only [hostEvent, hostTarget, hb, ho, if_true, if_false] at h <;> cases h
    exact .inl ⟨offset, r, by rw [hb], ho, rfl⟩
  | write offset bits v =>
    by_cases hb : bits = 32 <;> rcases ho : hostRegAt offset with _ | r <;>
      simp only [hostEvent, hostTarget, hb, ho, if_true, if_false] at h
    · cases h
    · by_cases hr : r = .cmd
      · subst hr
        refine .inr (.inr (.inr ⟨offset, v, by rw [hb], ho, ?_⟩))
        simp only at h
        rcases hd : decode (v.setWidth 16) with e | i <;> rw [hd] at h
        · exact .inr ⟨⟨e, rfl⟩, by cases h; rfl⟩
        · exact .inl ⟨i, rfl, h⟩
      · refine .inr (.inl ⟨offset, r, v, by rw [hb], ho, hr, ?_⟩)
        cases r <;> first | exact absurd rfl hr | (cases h; rfl)
    · cases h
    · cases h
  | powerOn =>
    cases h
    exact .inr (.inr (.inl ⟨rfl, rfl⟩))

end Sys2Proof.Machine
end

