-- ==== Sys2Proof/Laws/PerInstr.lean ====
section
/-! SUPPORT. The families of statements made per command: the check the dispatcher makes of the operands
(`spec/30_encoding.md` rule R99) accepts exactly the well-formed commands. -/

namespace Sys2Proof.Laws

/-- The operand check of a command succeeds exactly when its operands are in range (R99). -/
def OperandRange.Statement (i : Instr) : Prop := checkOperands i = .ok () ↔ i.wf = true

theorem OperandRange.nop : OperandRange.Statement .nop := by simp [Statement, checkOperands, Instr.wf]
theorem OperandRange.sreset : OperandRange.Statement .sreset := by simp [Statement, checkOperands, Instr.wf]
theorem OperandRange.dinit : OperandRange.Statement .dinit := by simp [Statement, checkOperands, Instr.wf]
theorem OperandRange.preload : OperandRange.Statement .preload := by
  simp [Statement, checkOperands, Instr.wf]
theorem OperandRange.zpraw : OperandRange.Statement .zpraw := by simp [Statement, checkOperands, Instr.wf]

theorem OperandRange.zpctx (c : BitVec 9) : OperandRange.Statement (.zpctx c) := by
  simp only [Statement, checkOperands, Instr.wf, wfCtx, NCTX, decide_eq_true_eq]
  split <;> simp <;> omega

theorem OperandRange.rawn (n : BitVec 5) : OperandRange.Statement (.rawn n) := by
  simp only [Statement, checkOperands, Instr.wf, wfRawCount, decide_eq_true_eq]
  split <;> simp <;> omega

theorem OperandRange.binn (nb : BitVec 3) (base : BitVec 9) : OperandRange.Statement (.binn nb base) := by
  simp only [Statement, checkOperands, Instr.wf, wfTreeBits, wfTreeBase, NCTX, Bool.and_eq_true,
    decide_eq_true_eq]
  split
  · simp; omega
  · split <;> simp <;> omega

theorem OperandRange.blkhdr : OperandRange.Statement .blkhdr := by simp [Statement, checkOperands, Instr.wf]
theorem OperandRange.symdec : OperandRange.Statement .symdec := by simp [Statement, checkOperands, Instr.wf]
theorem OperandRange.ibwt : OperandRange.Statement .ibwt := by simp [Statement, checkOperands, Instr.wf]
theorem OperandRange.emit : OperandRange.Statement .emit := by simp [Statement, checkOperands, Instr.wf]
theorem OperandRange.block : OperandRange.Statement .block := by simp [Statement, checkOperands, Instr.wf]
theorem OperandRange.run : OperandRange.Statement .run := by simp [Statement, checkOperands, Instr.wf]

end Sys2Proof.Laws
end

