-- ==== Sys2Proof/Tests/Slice0.lean ====
section
/-! SUPPORT. The model's own tests: the checks of `WellFormed` refuse what they must, command words written out
from `spec/30_encoding.md` R95 to R97 decode, single operations give the values of `spec/95_test_vectors.md`,
and every statement for the provers has hypotheses that a concrete state meets. -/

namespace Sys2Proof.Tests

open Sys2Proof.Machine

/-! ### WellFormed: one ill-formed command for each check (R99) -/

theorem test_wfCtx_refuses_300 : wfCtx 300 = false ∧ (Instr.zpctx 300).wf = false ∧ (Instr.zpctx 299).wf = true := by
  decide

theorem test_wfRawCount_refuses_0_and_25 : wfRawCount 0 = false ∧ wfRawCount 25 = false ∧
    (Instr.rawn 25).wf = false ∧ (Instr.rawn 24).wf = true := by decide

theorem test_wfTreeBits_refuses_0 : wfTreeBits 0 = false ∧ (Instr.binn 0 13).wf = false := by decide

theorem test_wfTreeBase_refuses_174 : wfTreeBase 7 174 = false ∧ (Instr.binn 7 174).wf = false ∧
    (Instr.binn 7 173).wf = true := by decide

/-- The configuration `exec` runs is inside the ranges of U7. -/
theorem test_params_in_range : params.Wf := by decide

/-! ### Decode: each word is its fields `op`, `nb`, `arg` of R95, written out in binary -/

theorem test_decode_nop : decode (0b0000_000_000000000 : Word16) = .ok .nop := by decide
theorem test_decode_sreset : decode (0b0001_000_000000000 : Word16) = .ok .sreset := by decide
theorem test_decode_dinit : decode (0b0010_000_000000000 : Word16) = .ok .dinit := by decide
theorem test_decode_preload : decode (0b0011_000_000000000 : Word16) = .ok .preload := by decide
theorem test_decode_zpraw : decode (0b0100_000_000000000 : Word16) = .ok .zpraw := by decide
theorem test_decode_zpctx : decode (0b0101_000_100000101 : Word16) = .ok (.zpctx 261) := by decide
theorem test_decode_rawn : decode (0b0110_000_0000_10010 : Word16) = .ok (.rawn 18) := by decide
theorem test_decode_binn : decode (0b0111_011_000001101 : Word16) = .ok (.binn 3 13) := by decide
theorem test_decode_blkhdr : decode (0b1000_000_000000000 : Word16) = .ok .blkhdr := by decide
theorem test_decode_symdec : decode (0b1001_000_000000000 : Word16) = .ok .symdec := by decide
theorem test_decode_ibwt : decode (0b1010_000_000000000 : Word16) = .ok .ibwt := by decide
theorem test_decode_emit : decode (0b1011_000_000000000 : Word16) = .ok .emit := by decide
theorem test_decode_block : decode (0b1100_000_000000000 : Word16) = .ok .block := by decide
theorem test_decode_run : decode (0b1101_000_000000000 : Word16) = .ok .run := by decide

/-- V1, V2: the reserved opcodes, and a must-be-zero field that is not zero, of each format that has one. -/
theorem test_decode_refuses : decode (0b1110_000_000000000 : Word16) = .error .reservedOpcode ∧
    decode (0b0100_000_000000001 : Word16) = .error .fieldNotZero ∧
    decode (0b0101_001_000000101 : Word16) = .error .fieldNotZero ∧
    decode (0b0110_000_0001_10010 : Word16) = .error .fieldNotZero := by decide

/-! ### Single operations, under the made-up table `TOYTAB` of T2 where one is needed -/

/-- `TOYTAB` (T2). -/
def toyTab : ZpTab :=
  let level (s : Byte) : Nat := min s.toNat 7 / 2
  { pPred := fun s => match level s with
      | 0 => ⟨0x7FFF, by decide⟩
      | 1 => ⟨0x4FFF, by decide⟩
      | 2 => ⟨0x2FFF, by decide⟩
      | _ => ⟨0x0FFF, by decide⟩
    m := fun s => match level s with
      | 0 => 0x0000
      | 1 => 0x2000
      | 2 => 0x4000
      | _ => 0x7000
    up := fun s => if s.toNat < 6 then s + 2 else s
    dn := fun s => if s.toNat < 2 then s ^^^ 1 else s - 2 }

def toy : Params := { params with zptab := toyTab, inCap := 1000 }

/-- The block after power-on reset with an input loaded. -/
def loaded (bytes : List Byte) : State :=
  { State.reset with
    len := BitVec.ofNat 32 bytes.length
    imem := (List.range bytes.length).zip bytes }

/-- A session between operations, on the input `bytes`. -/
def session (a code : Word16) (buf : Word32) (scount : BitVec 6) (bytes : List Byte) : State :=
  { loaded bytes with
    st := .ready
    coder :=
      { a := a, code := code, fence := BitVec.ofNat 16 (min code.toNat 0x7FFF), buf := buf, scount := scount,
        delay := 25, rp := 0 } }

/-- The outcome is a returned value and a state that satisfy `q`. -/
def gives {α : Type} (r : Res α) (q : α → State → Bool) : Bool :=
  match r with
  | .ok v s => q v s
  | .raise _ _ _ => false
  | .stop _ => false
  | .refuse _ => false

/-- The outcome is the fault `e` with information `info`, raised in a state that satisfies `q`. -/
def raises {α : Type} (r : Res α) (e : Err) (info : Word32) (q : State → Bool) : Bool :=
  match r with
  | .ok _ _ => false
  | .raise e' info' s => e' = e ∧ info' = info ∧ q s
  | .stop _ => false
  | .refuse _ => false

/-- The outcome is a next state that satisfies `q`. -/
def next (o : Host.Outcome State Fault Refusal) (q : State → Bool) : Bool :=
  match o with
  | .next s => q s
  | .fault _ => false
  | .refused _ => false

theorem next_sound {o : Host.Outcome State Fault Refusal} {q : State → Bool} (h : next o q = true) :
    ∃ t, o = .next t ∧ q t = true := by
  cases o with
  | next t => exact ⟨t, rfl, h⟩
  | fault f => cases h
  | refused r => cases h

/-- T11, row `12 34 56`. -/
theorem test_dinit_three_bytes : gives (dinit toy (loaded [0x12, 0x34, 0x56])) (fun _ t =>
    t.st = .ready ∧ t.coder.a = 0 ∧ t.coder.code = 0x1234 ∧ t.coder.fence = 0x1234 ∧
      t.coder.buf = 0x56FFFFFF ∧ t.coder.scount = 32 ∧ t.coder.delay = 22 ∧ t.coder.rp = 3) = true := by
  decide +kernel

/-- T11: with `GRACE = 4`, `LEN = 2` faults. -/
theorem test_dinit_small_grace : raises (dinit { toy with grace := 4 } (loaded [0x12, 0x34]))
    .truncatedStream 2 (fun t => t.coder.delay = 0) = true := by decide +kernel

/-- T12, row `0000BEEF`, 15. -/
theorem test_preload_two_bytes : gives (preload toy (session 0 0 0x0000BEEF 15 [0xC3, 0x3C, 0x5A]))
    (fun _ t => t.coder.buf = 0xBEEFC33C ∧ t.coder.scount = 31 ∧ t.coder.rp = 2) = true := by
  decide +kernel

/-- T12: the second phantom read of a countdown of 2 faults; the first byte stays shifted in. -/
theorem test_preload_exhausted :
    let s := session 0 0 0x0000BEEF 15 []
    raises (preload toy (s.setCoder { s.coder with delay := 2 })) .truncatedStream 0 (fun t =>
      t.coder.buf = 0x00BEEFFF ∧ t.coder.scount = 23 ∧ t.coder.delay = 0) = true := by decide +kernel

/-- T21, row 9: the one raw decision that takes two bits. -/
theorem test_zpraw_two_bits : gives (zpraw toy (session 0x7FFF 0xBFFE 0xA5A5A5A5 32 [])) (fun b t =>
    b = true ∧ t.coder.a = 0 ∧ t.coder.code = 0xFFFE ∧ t.coder.fence = 0x7FFF ∧ t.coder.scount = 30) =
      true := by decide +kernel

/-- T21, row 6: `z = code` is the more probable branch, and the refill reads two bytes. -/
theorem test_zpraw_boundary : gives (zpraw toy (session 0 0x8000 0 16 [0xC3, 0x3C, 0x55])) (fun b t =>
    b = false ∧ t.coder.code = 0 ∧ t.coder.buf = 0x0000C33C ∧ t.coder.scount = 31 ∧ t.coder.rp = 2) =
      true := by decide +kernel

/-- T30, row 19: less probable symbol, shift 2, refill. -/
theorem test_zpctx_lps : gives (zpctx toy 9 ((session 0x5000 0x7FFF 0 16 [0xC3, 0x3C, 0x55]).setCtx 9 5))
    (fun b t => b = false ∧ tableGet t.ctx 9 = 3 ∧ t.coder.a = 0x4000 ∧ t.coder.code = 0xFFFC ∧
      t.coder.fence = 0x7FFF ∧ t.coder.scount = 30 ∧ t.coder.rp = 2) = true := by decide +kernel

/-- T30, row 16: the clamp, then the more probable symbol at `z = code`. -/
theorem test_zpctx_clamp : gives (zpctx toy 9 ((session 0x7FFF 0xBFFF 0x80000000 32 []).setCtx 9 1))
    (fun b t => b = true ∧ tableGet t.ctx 9 = 3 ∧ t.coder.a = 0x7FFE ∧ t.coder.code = 0x7FFF ∧
      t.coder.scount = 31) = true := by decide +kernel

/-- T22, row `FF BF FF FF`. -/
theorem test_rawn_24 : gives ((dinit toy (loaded [0xFF, 0xBF, 0xFF, 0xFF])).bind fun _ s => rawn toy 24 s)
    (fun v t => v = 16384 ∧ t.coder.code = 0xFFFF ∧ t.coder.scount = 24 ∧ t.coder.delay = 21 ∧
      t.coder.rp = 4) = true := by decide +kernel

/-- T40. -/
theorem test_binn_3_13 : gives ((dinit toy (loaded [0x35, 0xA7, 0x1C, 0x99, 0x42, 0x00, 0x77])).bind fun _ s =>
      binn toy 3 13 s)
    (fun v t => v = 6 ∧ tableGet t.ctx 13 = 1 ∧ tableGet t.ctx 15 = 1 ∧ tableGet t.ctx 19 = 2 ∧
      t.coder.code = 0xAD38 ∧ t.coder.scount = 29) = true := by decide +kernel

/-- T81: the input of program P2. -/
def aaa : List Byte := [0xFF, 0xFF, 0xFB, 0xFF, 0x7C, 0x27, 0x37]

/-- T81, the row of `BLKHDR`. -/
theorem test_blkhdr_size_4 : gives ((dinit toy (loaded aaa)).bind fun _ s => blkhdr toy s) (fun _ t =>
    t.st = .block ∧ t.blk.size = 4 ∧ t.blk.fshift = 0 ∧ t.blk.fadd = 4 ∧ t.blk.mtfno = 3 ∧
      t.coder.code = 0xFEF8 ∧ t.coder.buf = 0x7C2737FF ∧ t.coder.scount = 23 ∧ t.coder.delay = 24) =
      true := by decide +kernel

/-- T83, row `BF FF FE`. -/
theorem test_blkhdr_too_large : raises ((dinit toy (loaded [0xBF, 0xFF, 0xFE])).bind fun _ s => blkhdr toy s)
    .blockTooLarge 4194305 (fun t => t.blk.size = 4194305) = true := by decide +kernel

/-- T81, the row of the first `SYMDEC`. -/
theorem test_symdec_rank_65 : gives ((dinit toy (loaded aaa)).bind fun _ s => (blkhdr toy s).bind fun _ s =>
      symdec toy s) (fun _ t =>
    t.st = .block ∧ t.blk.i = 1 ∧ t.blk.mtfno = 65 ∧ t.blk.data = [(0, 65)] ∧
      (t.blk.mtf.toList.take 4 = [65, 0, 1, 2]) ∧ t.blk.freq.toList = [8, 0, 0, 0] ∧ t.blk.fadd = 8 ∧
      t.coder.code = 0x139B ∧ t.coder.scount = 25) = true := by decide +kernel

/-- T50, row K: the rescaling, and a walk that stops at a greater estimate. -/
theorem test_mtfrot_rescales :
    let b := { Block.reset with
      fadd := 0x0C000000, fshift := 1, freq := #v[0x30000000, 0x20000000, 0x18000000, 0x08000000]
      mtf := tablePut (tablePut (tablePut (tablePut identityMtf 0 65) 1 66) 2 67) 3 68 }
    let t := mtfrot toy 2 67 b
    t.fadd = 0x12 ∧ t.freq.toList = [0x30, 0x2A, 0x20, 0x08] ∧ t.mtf.toList.take 4 = [65, 67, 66, 68] := by
  decide +kernel

/-- A block in `RANKED` with one marker. -/
def ranked (bytes : List Byte) (marker : BitVec 23) : State :=
  { State.reset with
    st := .ranked
    blk := { Block.reset with
      size := BitVec.ofNat 24 bytes.length
      i := BitVec.ofNat 23 bytes.length
      data := (List.range bytes.length).zip bytes
      markerpos := marker
      mcount := 1
      mtf := identityMtf } }

/-- T61, `"BANANA"`. -/
theorem test_ibwt_banana : gives (ibwt toy (ranked [65, 78, 78, 66, 0, 65, 65] 4)) (fun _ t =>
    t.st = .recon ∧ t.blk.ptr = 4 ∧ (t.blk.data.map (·.2)).take 6 = [66, 65, 78, 65, 78, 65] ∧
      t.blk.posn.map (·.2) = [0x41000000, 0x4E000000, 0x4E000001, 0x42000000, 0, 0x41000001, 0x41000002] ∧
      tableGet t.blk.count 66 = 4) = true := by decide +kernel

/-- T66: the walk does not come back to the marker. -/
theorem test_ibwt_lost : raises (ibwt toy (ranked [66, 65, 0, 65] 2)) .corruptBlock 3
    (fun t => t.blk.ptr = 1) = true := by decide +kernel

/-- R222, the example: two bytes appended at 6. -/
theorem test_emit_two_bytes :
    let s := ranked [65, 66, 0] 2
    gives (emit { s with st := .recon, olen := 6 }) (fun _ t =>
      t.st = .ready ∧ t.olen = 8 ∧ t.omem = [(6, 65), (7, 66)]) = true := by decide +kernel

/-- T85, row `FF FF FD`: two markers. -/
theorem test_block_two_markers : raises ((dinit toy (loaded [0xFF, 0xFF, 0xFD])).bind fun _ s =>
      block toy s) .corruptBlock 1 (fun t => t.blk.mcount = 2 ∧ t.blk.markerpos = 1 ∧
        t.coder.a = 0x3800 ∧ t.coder.scount = 24 ∧ t.coder.delay = 18) = true := by decide +kernel

/-- T81: the whole stream. -/
theorem test_run_aaa : gives (run toy (loaded aaa)) (fun _ t =>
    t.st = .done ∧ t.olen = 3 ∧ t.omem = [(0, 0x41), (1, 0x41), (2, 0x41)] ∧ statusWord t = 0x45 ∧
      t.coder.a = 0x3800 ∧ t.coder.scount = 23 ∧ t.coder.delay = 18) = true := by decide +kernel

/-- T80: an empty input, from reset, through `step`. -/
theorem test_run_empty : next (step (State.reset.withFetchWord 16 0xD000)) (fun t =>
    t.st = .done ∧ t.blk.size = 0 ∧ t.coder.scount = 24 ∧ t.coder.delay = 19 ∧ statusWord t = 0x45) =
      true := by decide +kernel

/-- T70: `NOP` in `RESET` changes nothing. -/
theorem test_nop : step (State.reset.withFetchWord 16 0x0000) = .next State.reset := rfl

/-- T70: `SRESET` leaves `DONE`; `LEN` is kept. -/
theorem test_sreset : next (step ({ loaded aaa with st := .done, olen := 3, oaddr := 9 }.withFetchWord 16 0x1000))
    (fun t => t.st = .reset ∧ t.olen = 0 ∧ t.oaddr = 0 ∧ t.len = 7) = true := by decide +kernel

/-- T70: `ZPRAW` in `RESET`. -/
theorem test_sequence_error : next (step (State.reset.withFetchWord 16 0x4000)) (fun t =>
    t.st = .fault ∧ t.err = .seqError ∧ t.einfo = 0x4000 ∧ statusWord t = 0x2E) = true := by decide +kernel

/-- T70: illegal words are caught before the sequence is. -/
theorem test_illegal_first : next (step (({ State.reset with st := .block } : State).withFetchWord 16 0x9001))
    (fun t => t.err = .illegalCmd ∧ t.einfo = 0x9001) = true := by decide +kernel

/-- R24: `IADDR` wraps, and a byte at or above `IN_CAP` is dropped. -/
theorem test_idata_dropped :
    let t := hostWrite toy .idata 0x55 { State.reset with iaddr := 0xFFFFFFFF }
    t.iaddr = 0 ∧ t.imem = [] := by decide +kernel

/-- R24: the last line of `ODATA`. -/
theorem test_odata :
    let t := hostRead .odata { State.reset with st := .done, olen := 3, oaddr := 2, omem := [(2, 0x42)] }
    t.rdata = 0x42 ∧ t.oaddr = 3 := by decide +kernel

/-! ### Witnesses: the hypotheses of each statement are met together

`IN_CAP` and `ZPTAB` are open, so the inputs here are empty and the lookahead is all ones: such a stream decodes the
more probable symbol whatever the tables are. -/

/-- The coder of a session whose input has ended, every lookahead bit 1. -/
def onesCoder : Coder :=
  { a := 0, code := 0xFFFF, fence := 0x7FFF, buf := 0xFFFFFFFF, scount := 32, delay := 200, rp := 0 }

def ready : State := { State.reset with st := .ready, coder := onesCoder }

/-- `ready` with other coder registers. -/
def readyWith (c : Coder) : State := { State.reset with st := .ready, coder := c }

/-- In a block of `size` positions, every context at state 1, whose more probable symbol is 1. -/
def inBlock (size : BitVec 24) : State :=
  { State.reset with
    st := .block
    coder := onesCoder
    ctx := Vector.replicate 300 1
    blk := { Block.reset with size := size, mtf := identityMtf, fadd := 4, mtfno := 3 } }

/-- A reconstructed block. -/
def recon : State :=
  { ranked [65, 65, 65, 65] 3 with
    st := .recon
    coder := onesCoder
    blk := { (ranked [65, 65, 65, 65] 3).blk with ptr := 3 } }

/-- A block of positions in a session. -/
def rankedReady (bytes : List Byte) (marker : BitVec 23) : State :=
  { ranked bytes marker with coder := onesCoder }

/-- A state after reset that is not `State.reset`. -/
def idle : State := { State.reset with oaddr := 5 }

/-- `s` with one event of the host pending. -/
def asked (s : State) (e : HostEvent) : State := { s with pend := [e] }

theorem identity_permutes {b : Block} (h : b.mtf = identityMtf) : MtfPermutes b := by
  intro j hj k hk hjk
  rw [h, identityMtf, tableGet_ofFn _ hj, tableGet_ofFn _ hk] at hjk
  have := congrArg BitVec.toNat hjk
  simp only [BitVec.toNat_ofNat] at this
  omega

theorem inv_idle : Inv idle := by
  constructor <;> decide

theorem inv_ready : Inv ready := by
  constructor <;> decide

theorem inv_inBlock_1 : Inv (inBlock 1) := by
  constructor
  case mtf_permutes => exact fun _ => identity_permutes rfl
  all_goals decide

theorem inv_inBlock_2 : Inv (inBlock 2) := by
  constructor
  case mtf_permutes => exact fun _ => identity_permutes rfl
  all_goals decide

theorem inv_rankedReady : Inv (rankedReady [65, 65, 65, 65] 3) := by
  constructor
  case mtf_permutes => exact fun _ => identity_permutes rfl
  all_goals decide

theorem inv_recon : Inv recon := by
  constructor
  case mtf_permutes => exact fun _ => identity_permutes rfl
  all_goals decide

/-- The coder before at least `n` more decisions on a stream of ones. -/
structure Ones (n : Nat) (s : State) : Prop where
  a_lt : s.coder.a.toNat < 0x8000
  code : s.coder.code = 0xFFFF
  fence : s.coder.fence = 0x7FFF
  buf : s.coder.buf = 0xFFFFFFFF
  low : 16 + n ≤ s.coder.scount.toNat
  high : s.coder.scount.toNat ≤ 32

theorem ones_of_onesCoder {s : State} (h : s.coder = onesCoder) : Ones 16 s := by
  constructor <;> rw [h] <;> decide

theorem renormMps_ones {n z : Nat} {s : State} (p : Params) (h : Ones (n + 1) s) (h1 : 0x8000 ≤ z)
    (h2 : z ≤ 0xBFFF) : ∃ u, renormMps p z s = .ok () u ∧ Ones n u ∧ u.ctx = s.ctx := by
  have hl := h.low
  have hh := h.high
  have hs : (BitVec.ofNat 6 (s.coder.scount.toNat - 1)).toNat = s.coder.scount.toNat - 1 := by
    rw [BitVec.toNat_ofNat]; omega
  have hb : lookaheadBits s.coder.buf (s.coder.scount.toNat - 1) 1 = 1 := by
    rw [lookaheadBits, h.buf]
    generalize s.coder.scount.toNat = k at hl hh
    interval_cases k <;> decide
  have hc : trunc16 (s.coder.code.toNat * 2 ^ 1) ||| trunc16 1 = 0xFFFF := by rw [h.code]; decide
  refine ⟨setFence (shiftCoder z s.coder.code.toNat 1 s), ?_, ⟨?_, ?_, ?_, h.buf, ?_, ?_⟩, rfl⟩
  · unfold renormMps refill
    rw [if_neg]
    · rfl
    · show ¬ (BitVec.ofNat 6 (s.coder.scount.toNat - 1)).toNat < 16
      omega
  · show (BitVec.ofNat 16 (z * 2 ^ 1)).toNat < 0x8000
    rw [BitVec.toNat_ofNat]; omega
  · show trunc16 (s.coder.code.toNat * 2 ^ 1) |||
      trunc16 (lookaheadBits s.coder.buf (s.coder.scount.toNat - 1) 1) = 0xFFFF
    rw [hb, hc]
  · show trunc16 (min (trunc16 (s.coder.code.toNat * 2 ^ 1) |||
      trunc16 (lookaheadBits s.coder.buf (s.coder.scount.toNat - 1) 1)).toNat FENCEMAX) = 0x7FFF
    rw [hb, hc]; decide
  · show 16 + n ≤ (BitVec.ofNat 6 (s.coder.scount.toNat - 1)).toNat
    omega
  · show (BitVec.ofNat 6 (s.coder.scount.toNat - 1)).toNat ≤ 32
    omega

/-- On a stream of ones a decision returns the more probable symbol, whatever the tables are. -/
theorem zpctx_ones {n c : Nat} {s : State} (p : Params) (h : Ones (n + 1) s) :
    ∃ u, zpctx p c s = .ok (mpsOf (tableGet s.ctx c)) u ∧ Ones n u ∧
      ∀ k, k ≠ c → tableGet u.ctx k = tableGet s.ctx k := by
  have ha := h.a_lt
  have hl := h.low
  have hh := h.high
  have hp : p.zptab.p (tableGet s.ctx c) ≤ 0x8000 := (p.zptab.pPred _).isLt
  have hf : s.coder.fence.toNat = 0x7FFF := by rw [h.fence]; rfl
  have hc : s.coder.code.toNat = 0xFFFF := by rw [h.code]; rfl
  unfold zpctx
  dsimp only
  split
  · next hz =>
    refine ⟨_, rfl, ⟨?_, h.code, h.fence, h.buf, ?_, hh⟩, fun _ _ => rfl⟩
    · show (BitVec.ofNat 16 _).toNat < _
      rw [BitVec.toNat_ofNat]
      omega
    · show _ ≤ s.coder.scount.toNat
      omega
  · next hz =>
    have hz1 : 0x8000 ≤ clamp s.coder.a.toNat (s.coder.a.toNat + p.zptab.p (tableGet s.ctx c)) := by
      unfold clamp CLAMPBASE; rw [hf] at hz; omega
    have hz2 : clamp s.coder.a.toNat (s.coder.a.toNat + p.zptab.p (tableGet s.ctx c)) ≤ 0xBFFF := by
      unfold clamp CLAMPBASE; omega
    unfold zpsub zpsubMps
    dsimp only
    rw [if_neg (by omega)]
    split
    · obtain ⟨u, hu, ho, hx⟩ := renormMps_ones (s := s.setCtx c (p.zptab.up (tableGet s.ctx c))) p
        ⟨h.a_lt, h.code, h.fence, h.buf, h.low, h.high⟩ hz1 hz2
      refine ⟨u, by rw [hu]; rfl, ho, fun k hk => ?_⟩
      rw [hx]
      exact tableGet_put_other _ _ hk.symm
    · obtain ⟨u, hu, ho, hx⟩ := renormMps_ones p h hz1 hz2
      exact ⟨u, by rw [hu]; rfl, ho, fun k _ => by rw [hx]⟩

/-- The decisions of a path of distinct contexts, each bit the more probable symbol of its context. -/
theorem decisions_ones (p : Params) (path : List (Nat × Bool)) (n : Nat) (s : State)
    (h : Ones (path.length + n) s) (hd : (path.map Prod.fst).Nodup)
    (hb : ∀ e ∈ path, mpsOf (tableGet s.ctx e.1) = e.2) :
    ∃ t, decisionsAlong p path s = some t := by
  induction path generalizing s with
  | nil => exact ⟨s, rfl⟩
  | cons e rest ih =>
    obtain ⟨c, b⟩ := e
    have h' : Ones ((rest.length + n) + 1) s := by
      rw [List.length_cons, Nat.add_right_comm] at h
      exact h
    obtain ⟨u, hu, ho, hx⟩ := zpctx_ones (c := c) p h'
    rw [hb (c, b) (List.mem_cons_self ..)] at hu
    rw [List.map_cons, List.nodup_cons] at hd
    obtain ⟨t, ht⟩ := ih u ho hd.2 fun e he => by
      rw [hx e.1 fun hc => hd.1 (by show c ∈ _; rw [← hc]; exact List.mem_map_of_mem he)]
      exact hb e (List.mem_cons_of_mem _ he)
    refine ⟨t, ?_⟩
    simp only [decisionsAlong, hu, if_true]
    exact ht

/-- A stream of ones in `readyWith` form, its contexts as a path needs them. -/
def onPath (path : List (Nat × Bool)) : State :=
  { ready with ctx := path.foldl (fun t e => tablePut t e.1 (if e.2 then 1 else 0)) (Vector.replicate 300 0) }

theorem path_met (cid r : Nat) (hd : ((rankPath cid r).map Prod.fst).Nodup) (hl : (rankPath cid r).length ≤ 16)
    (hb : ∀ e ∈ rankPath cid r, mpsOf (tableGet (onPath (rankPath cid r)).ctx e.1) = e.2) :
    ∃ s t, decisionsAlong params (rankPath cid r) s = some t := by
  obtain ⟨t, ht⟩ := decisions_ones params (rankPath cid r) (16 - (rankPath cid r).length)
    (onPath (rankPath cid r)) (by rw [Nat.add_sub_cancel' hl]; exact ones_of_onesCoder rfl) hd hb
  exact ⟨_, t, ht⟩

/-- Every path of `RankdecFollowsTheLadder` can be met: the two first ranks, the ends of the bands, the marker. -/
theorem witness_RankdecFollowsTheLadder : ∀ r ∈ [0, 1, 2, 3, 128, 255, 256], ∃ s t,
    decisionsAlong params (rankPath 2 r) s = some t := by
  intro r hr
  refine path_met 2 r ?_ ?_ ?_ <;> revert r <;> decide +kernel

/-- The first position of `inBlock`: the first context has state 1, so the rank is 0. -/
theorem rankdec_inBlock (size : BitVec 24) : ∃ u, CoderFrame (inBlock size) u ∧
    rankdec params 2 (inBlock size) = .ok 0 u := by
  obtain ⟨u, hu, -, -⟩ := zpctx_ones (n := 15) (c := 2) params (ones_of_onesCoder (s := inBlock size) rfl)
  have hm : mpsOf (tableGet (inBlock size).ctx 2) = true := by
    show mpsOf (tableGet (Vector.replicate 300 1) 2) = true
    rw [tableGet_replicate _ (by decide)]
    rfl
  rw [hm] at hu
  have hf := zpctx_coderOp params (inBlock size) 2
  rw [hu] at hf
  exact ⟨u, hf.1, by unfold rankdec; rw [hu]; rfl⟩

theorem symdec_inBlock (size : BitVec 24) : ∃ u, CoderFrame (inBlock size) u ∧ exec .symdec (inBlock size) = .next
    ((u.setBlk (takeRank params 0 (inBlock size).blk)).setSt
      (if 1 = size.toNat then .ranked else .block)) := by
  obtain ⟨u, hf, hr⟩ := rankdec_inBlock size
  refine ⟨u, hf, ?_⟩
  show finish (symdec params (inBlock size)) = _
  unfold symdec
  rw [show contextId params (inBlock size) = 2 from rfl, hr, bind_ok, coderFrame_blk hf, coderFrame_st hf]
  rfl

/-- A command of `next` on a state whose evaluation meets no open value. -/
theorem exec_sound {i : Instr} {s : State} {q : State → Bool} (h : next (exec i s) q = true) :
    ∃ t, exec i s = .next t ∧ q t = true := next_sound h

theorem supplied_empty {n : Nat} {s : State} (hl : s.len = 0) (hr : s.coder.rp = 0)
    (hd : n < s.coder.delay.toNat) : Supplied params n s := by
  unfold Supplied
  rw [hl, hr]
  exact ⟨Nat.le_refl _, Nat.zero_le _, by simpa using hd⟩

/-- The coder of `readyWith` at chosen registers satisfies R32. -/
theorem coderInv_readyWith {c : Coder} (h1 : c.a.toNat < 0x8000) (h2 : c.fence.toNat = min c.code.toNat 0x7FFF)
    (h3 : 16 ≤ c.scount.toNat) (h4 : c.scount.toNat ≤ 32) (h5 : c.rp = 0) (h6 : 1 ≤ c.delay.toNat) :
    CoderInv (readyWith c) := by
  refine ⟨h1, h2, h3, h4, ?_, h6⟩
  show c.rp.toNat ≤ 0
  rw [h5]
  decide

theorem witness_EncodeInvertsDecode : ∃ w i, decode w = .ok i := ⟨0x5005, .zpctx 5, by decide⟩

theorem witness_DecodeFollowsTheOpcodeTable : (∃ w i, decode w = .ok i) ∧
    ∃ (w : Word16) (i : Instr), w &&& (tableRow i).2 = (tableRow i).1 :=
  ⟨⟨0x760D, .binn 3 13, by decide⟩, 0x512C, .zpctx 0, by decide⟩

theorem witness_IllegalWordsAloneRaiseIllegalCmd :
    (∀ k ∈ [0xE000, 0xFFFF, 0x4001, 0x512C, 0x6000, 0x6019, 0x7000, 0x7EAE], ∃ (s : State) (v : Word32)
      (rest : List HostEvent), s.pend = .write 0x00 32 v :: rest ∧ s.st ≠ .done ∧ s.st ≠ .fault ∧
        (v.setWidth 16 : Word16).toNat = k ∧ IllegalWord (v.setWidth 16 : Word16).toNat) ∧
    (∀ k ∈ [0x5000, 0x512B, 0x6001, 0x6018, 0x7200, 0x7EAD], ¬ IllegalWord (BitVec.ofNat 16 k).toNat) ∧
    ∃ t, idle.err ≠ .illegalCmd ∧ exec .nop idle = .next t :=
  ⟨fun k hk => ⟨asked idle (.write 0 32 (BitVec.ofNat 32 k)), BitVec.ofNat 32 k, [], rfl, nofun, nofun,
    by revert k; decide +kernel, by revert k; decide +kernel⟩,
    by decide +kernel, idle, by decide, rfl⟩

theorem witness_StepRunsTheDecodedCommand : ∃ (s : State) (v : Word32) (rest : List HostEvent) (i : Instr),
    s.pend = .write 0x00 32 v :: rest ∧ decode (v.setWidth 16) = .ok i :=
  ⟨asked idle (.write 0 32 0xABCD5005), 0xABCD5005, [], .zpctx 5, rfl, by decide⟩

theorem witness_TerminalStatesIgnoreCommands : ∀ st ∈ [SeqState.done, .fault], ∃ (s : State) (v : Word32)
    (rest : List HostEvent), s.st = st ∧ (s.st = .done ∨ s.st = .fault) ∧ s.pend = .write 0x00 32 v :: rest ∧
      (v.setWidth 16 : Word16) ≠ 0x1000 := by
  intro st h
  exact ⟨{ asked idle (.write 0 32 0xE000) with st := st }, 0xE000, [], rfl, by revert st; decide, rfl, by decide⟩

theorem witness_OutOfSequenceRaisesSeqError : ∃ (i : Instr) (s : State), i.wf = true ∧ s.st ≠ .done ∧
    s.st ≠ .fault ∧ s.st ∉ acceptedStates i := ⟨.symdec, idle, by decide⟩

theorem witness_OutOfRangeRaisesIllegalCmd : ∃ (i : Instr) (s : State), i.wf = false ∧ s.st ≠ .done ∧
    s.st ≠ .fault := ⟨.rawn 0, idle, by decide⟩

/-- The hypotheses of `SequencerTable` on a command and a state. -/
def Accepted (i : Instr) (s : State) : Prop :=
  Inv s ∧ s.st ∈ acceptedStates i ∧ ∃ t, exec i s = .next t ∧ t.st ≠ .fault

theorem accepted_of {i : Instr} {s : State} (hi : Inv s) (hs : s.st ∈ acceptedStates i)
    (h : next (exec i s) (fun t => t.st ≠ .fault) = true) : Accepted i s := by
  obtain ⟨t, ht, hq⟩ := exec_sound h
  exact ⟨hi, hs, t, ht, by simpa using hq⟩

/-- A `ZPCTX` or a one-bit `BINN` on a stream of ones. -/
theorem accepted_zpctx : Accepted (.zpctx 299) ready := by
  refine ⟨inv_ready, by decide, ?_⟩
  obtain ⟨u, hu, -, -⟩ := zpctx_ones (n := 15) (c := ctxOperand 299) params (ones_of_onesCoder (s := ready) rfl)
  have hf := zpctx_coderOp params ready (ctxOperand 299)
  rw [hu] at hf
  refine ⟨u.setRes (BitVec.ofNat 24 (mpsOf (tableGet ready.ctx (ctxOperand 299))).toNat), ?_, ?_⟩
  · show execZpctx 299 ready = _
    unfold execZpctx
    rw [dispatch_accepted _ rfl rfl rfl, hu]
    rfl
  · rw [setRes_st, coderFrame_st hf.1]
    decide

theorem accepted_binn : Accepted (.binn 1 299) ready := by
  refine ⟨inv_ready, by decide, ?_⟩
  obtain ⟨u, hu, -, -⟩ := zpctx_ones (n := 15) (c := treeContext (treeBaseOperand 299) 1) params
    (ones_of_onesCoder (s := ready) rfl)
  have hf := zpctx_coderOp params ready (treeContext (treeBaseOperand 299) 1)
  rw [hu] at hf
  have hb : binn params (treeBitsOperand 1) (treeBaseOperand 299) ready =
      .ok (2 * 1 + (mpsOf (tableGet ready.ctx (treeContext (treeBaseOperand 299) 1))).toNat - 2 ^ 1) u := by
    rw [show treeBitsOperand 1 = 1 from rfl]
    unfold binn treeLoop
    rw [hu]
    rfl
  refine ⟨u.setRes (BitVec.ofNat 24
    (2 * 1 + (mpsOf (tableGet ready.ctx (treeContext (treeBaseOperand 299) 1))).toNat - 2 ^ 1)), ?_, ?_⟩
  · show execBinn 1 299 ready = _
    unfold execBinn
    rw [dispatch_accepted _ rfl rfl rfl, hb]
    rfl
  · rw [setRes_st, coderFrame_st hf.1]
    decide

theorem accepted_symdec {size : BitVec 24} (hi : Inv (inBlock size)) : Accepted .symdec (inBlock size) := by
  obtain ⟨u, -, hx⟩ := symdec_inBlock size
  refine ⟨hi, List.mem_singleton.mpr rfl, _, hx, ?_⟩
  show (if 1 = size.toNat then SeqState.ranked else .block) ≠ .fault
  split <;> decide

/-- Every row of the sequencer's table: `BLKHDR` with both outcomes, `SYMDEC` before and at the last position. -/
theorem witness_SequencerTable : Accepted .nop ready ∧ Accepted .sreset ready ∧ Accepted .dinit idle ∧
    Accepted .preload ready ∧ Accepted .zpraw ready ∧ Accepted (.zpctx 299) ready ∧ Accepted (.rawn 24) ready ∧
    Accepted (.binn 1 299) ready ∧ Accepted .blkhdr ready ∧
    (∃ s, s.coder.buf = 0xFEFFFFFF ∧ Accepted .blkhdr s) ∧ Accepted .symdec (inBlock 2) ∧
    Accepted .symdec (inBlock 1) ∧ Accepted .ibwt (rankedReady [65, 65, 65, 65] 3) ∧ Accepted .emit recon ∧
    Accepted .block ready ∧ Accepted .run idle := by
  have hb : Inv (readyWith { onesCoder with buf := 0xFEFFFFFF }) := by constructor <;> decide
  exact ⟨accepted_of inv_ready (by decide) (by decide +kernel), accepted_of inv_ready (by decide) (by decide +kernel),
    accepted_of inv_idle (by decide) (by decide +kernel), accepted_of inv_ready (by decide) (by decide +kernel),
    accepted_of inv_ready (by decide) (by decide +kernel), accepted_zpctx,
    accepted_of inv_ready (by decide) (by decide +kernel), accepted_binn,
    accepted_of inv_ready (by decide) (by decide +kernel),
    ⟨_, rfl, accepted_of hb (by decide) (by decide +kernel)⟩, accepted_symdec inv_inBlock_2,
    accepted_symdec inv_inBlock_1, accepted_of inv_rankedReady (by decide) (by decide +kernel),
    accepted_of inv_recon (by decide) (by decide +kernel), accepted_of inv_ready (by decide) (by decide +kernel),
    accepted_of inv_idle (by decide) (by decide +kernel)⟩

/-- The hypotheses of `FaultInformation`, for a fault code and an information word. -/
def Faults (e : Err) (info : Word32) : Prop :=
  ∃ (i : Instr) (s t : State), Inv s ∧ s.st ≠ .fault ∧ exec i s = .next t ∧ t.st = .fault ∧ t.err = e ∧
    t.einfo = info

theorem faults_of {e : Err} {info : Word32} (i : Instr) (s : State) (hi : Inv s) (hs : s.st ≠ .fault)
    (h : next (exec i s) (fun t => t.st = .fault ∧ t.err = e ∧ t.einfo = info) = true) : Faults e info := by
  obtain ⟨t, ht, hq⟩ := exec_sound h
  exact ⟨i, s, t, hi, hs, ht, by simpa using hq⟩

/-- A block of one position whose marker registers are given, in a session. -/
def marked (mcount : BitVec 2) (marker : BitVec 23) : State :=
  { rankedReady [66, 65, 0, 65] marker with
    blk := { (rankedReady [66, 65, 0, 65] marker).blk with mcount := mcount } }

/-- Every fault, with the least and the greatest size that is too large. -/
theorem witness_FaultInformation : Faults .truncatedStream 0 ∧ Faults .blockTooLarge 4194305 ∧
    Faults .blockTooLarge 16777215 ∧ Faults .corruptBlock 1 ∧ Faults .corruptBlock 2 ∧ Faults .corruptBlock 3 ∧
    Faults .illegalCmd 0x6000 ∧ Faults .seqError 0x9000 := by
  have h1 : Inv (readyWith { onesCoder with scount := 16, delay := 1 }) := by constructor <;> decide
  have h2 : Inv (readyWith { onesCoder with code := 0xBFFF, buf := 0xFEFFFFFF }) := by constructor <;> decide
  have h3 : Inv (readyWith { onesCoder with code := 0, fence := 0, buf := 0x00FFFFFF }) := by
    constructor <;> decide
  have m1 : Inv (marked 0 2) := by
    constructor
    case mtf_permutes => exact fun _ => identity_permutes rfl
    all_goals decide
  have m2 : Inv (marked 1 0) := by
    constructor
    case mtf_permutes => exact fun _ => identity_permutes rfl
    all_goals decide
  have m3 : Inv (marked 1 2) := by
    constructor
    case mtf_permutes => exact fun _ => identity_permutes rfl
    all_goals decide
  exact ⟨faults_of .preload _ h1 (by decide) (by decide +kernel),
    faults_of .blkhdr _ h2 (by decide) (by decide +kernel), faults_of .blkhdr _ h3 (by decide) (by decide +kernel),
    faults_of .ibwt _ m1 (by decide) (by decide +kernel),
    faults_of .ibwt _ m2 (by decide) (by decide +kernel),
    faults_of .ibwt _ m3 (by decide) (by decide +kernel),
    faults_of (.rawn 0) _ inv_ready (by decide) (by decide +kernel),
    faults_of .symdec _ inv_ready (by decide) (by decide +kernel)⟩

/-- Each clause: a command that writes nothing, a fault, `PRELOAD` and the three that write block registers. -/
theorem witness_RegistersHaveTheirWriters : (∃ (i : Instr) (s t : State), exec i s = .next t ∧ i ≠ .sreset ∧
      t.st ≠ .fault ∧ returnsValue i = false ∧ readsStream i = false ∧ writesBlock i = false ∧
      appendsOutput i = false ∧ writesOlen i = false) ∧
    (∃ (s t : State), exec .emit s = .next t ∧ t.st = .fault ∧ t ≠ s) ∧
    (∃ (s t : State), exec .preload s = .next t ∧ t.coder ≠ s.coder) ∧
    (∃ (s t : State), exec .blkhdr s = .next t ∧ t.st = .block) ∧
    (∃ (s t : State), exec .symdec s = .next t) ∧
    ∃ (s t : State), exec .ibwt s = .next t ∧ t.st = .recon := by
  obtain ⟨t1, h1, q1⟩ := exec_sound (i := .emit) (s := idle) (q := fun t => t.st = .fault ∧ t ≠ idle)
    (by decide +kernel)
  obtain ⟨t2, h2, q2⟩ := exec_sound (i := .preload) (s := readyWith { onesCoder with scount := 16 })
    (q := fun t => t.coder ≠ { onesCoder with scount := 16 }) (by decide +kernel)
  obtain ⟨t3, h3, q3⟩ := exec_sound (i := .blkhdr) (s := readyWith { onesCoder with buf := 0xFEFFFFFF })
    (q := fun t => t.st = .block) (by decide +kernel)
  obtain ⟨u, -, h4⟩ := symdec_inBlock 2
  obtain ⟨t5, h5, q5⟩ := exec_sound (i := .ibwt) (s := ranked [65, 65, 65, 65] 3) (q := fun t => t.st = .recon)
    (by decide +kernel)
  have q1 : t1.st = .fault ∧ t1 ≠ idle := by simpa using q1
  exact ⟨⟨.nop, idle, idle, rfl, by decide⟩, ⟨idle, t1, h1, q1⟩, ⟨_, t2, h2, of_decide_eq_true q2⟩,
    ⟨_, t3, h3, by simpa using q3⟩, ⟨_, _, h4⟩, _, t5, h5, by simpa using q5⟩

theorem witness_ContextsAreWrittenAtTheirIndex : (∃ c s t, exec (.zpctx c) s = .next t) ∧
    (∃ nb base s t k, exec (.binn nb base) s = .next t ∧
      (k < base.toNat ∨ base.toNat + 2 ^ nb.toNat - 2 < k)) ∧
    (∃ s t, exec .symdec s = .next t) ∧ (∃ s t, exec .block s = .next t) ∧
    ∀ i ∈ [Instr.blkhdr, .preload, .zpraw, .rawn 24], ∃ s t, exec i s = .next t := by
  obtain ⟨-, -, t1, h1, -⟩ := accepted_zpctx
  obtain ⟨-, -, t2, h2, -⟩ := accepted_binn
  obtain ⟨t3, h3, -⟩ := exec_sound (i := .block) (s := ready) (q := fun _ => true) (by decide +kernel)
  obtain ⟨u, -, h4⟩ := symdec_inBlock 2
  refine ⟨⟨299, ready, t1, h1⟩, ⟨1, 299, ready, t2, 298, h2, by decide⟩, ⟨_, _, h4⟩, ⟨ready, t3, h3⟩, ?_⟩
  intro i hi
  have : next (exec i ready) (fun _ => true) = true := by revert i; decide +kernel
  obtain ⟨t, ht, -⟩ := exec_sound this
  exact ⟨ready, t, ht⟩

theorem witness_PowerOnGivesTheResetColumn : ∃ (s : State) (rest : List HostEvent), s.pend = .powerOn :: rest :=
  ⟨asked ready .powerOn, [], rfl⟩

theorem witness_StoppedStatesAreLeftOnlyByReset : ∀ e ∈ [HostEvent.write 0x00 32 0x1000, .powerOn],
    ∃ s t : State, (s.st = .done ∨ s.st = .fault) ∧ step s = .next t ∧ t.st ≠ s.st := by
  intro e he
  have h : next (step { asked idle e with st := .done }) (fun t => t.st ≠ .done) = true := by
    revert e; decide +kernel
  obtain ⟨t, ht, hq⟩ := next_sound h
  exact ⟨_, t, .inl rfl, ht, by simpa using hq⟩

theorem witness_DinitPrimesTheCoder : ∃ s : State, s.st = .reset ∧ s.len.toNat ≤ params.inCap.toNat :=
  ⟨idle, rfl, Nat.zero_le _⟩

theorem witness_LaunchBeyondTheInputMemoryIsRefused : ∃ (p : Params) (s : State),
    p.inCap.toNat < s.len.toNat := ⟨{ params with inCap := 0 }, { idle with len := 1 }, by decide⟩

/-- Nothing to pull, one byte, two and four. -/
theorem witness_PreloadFillsTheLookahead : ∀ k ∈ [32, 25, 24, 16, 0], ∃ s : State, s.st = .ready ∧
    s.coder.scount = BitVec.ofNat 6 k ∧ Supplied params (refillBytes s.coder.scount.toNat) s := by
  intro k hk
  exact ⟨readyWith { onesCoder with scount := BitVec.ofNat 6 k }, rfl, rfl, supplied_empty rfl rfl (by revert k; decide)⟩

/-- The countdown runs out at the first byte, and at the second. -/
theorem witness_PreloadPastTheGraceRaises : ∀ d ∈ [1, 2], ∃ s : State, s.st = .ready ∧
    s.coder.rp.toNat ≤ s.len.toNat ∧ s.len.toNat ≤ params.inCap.toNat ∧ s.coder.delay = BitVec.ofNat 8 d ∧
    1 ≤ s.coder.delay.toNat ∧
    s.len.toNat - s.coder.rp.toNat + s.coder.delay.toNat ≤ refillBytes s.coder.scount.toNat := by
  intro d hd
  exact ⟨readyWith { onesCoder with scount := 16, delay := BitVec.ofNat 8 d }, rfl, Nat.le_refl _, Nat.zero_le _, rfl,
    by revert d; decide, by revert d; decide⟩

/-- Both branches, and the two sides of the split point. -/
theorem witness_ZprawDecodesOneRawBit : ∀ c ∈ [0, 0x7FFF, 0x8000, 0xFFFF], ∃ s : State,
    s.st = .ready ∧ s.coder.code = BitVec.ofNat 16 c ∧ CoderInv s ∧ Supplied params 2 s := by
  intro c hc
  exact ⟨readyWith { onesCoder with
    code := BitVec.ofNat 16 c, fence := BitVec.ofNat 16 (min c 0x7FFF) }, rfl, rfl,
    coderInv_readyWith (show 0 < 0x8000 by decide) (by revert c; decide) (show 16 ≤ 32 by decide)
      (show 32 ≤ 32 by decide) rfl (show 1 ≤ 200 by decide),
    supplied_empty rfl rfl (show 2 < 200 by decide)⟩

theorem toZp_le (q : Byte) : params.zptab.p q ≤ 0x8000 := (params.zptab.pPred q).isLt

theorem toZp_pos (q : Byte) : 1 ≤ params.zptab.p q := Nat.succ_pos _

theorem witness_ZpctxFastPathMovesOnlyA : ∃ (c : BitVec 9) (s : State), c.toNat ≤ 299 ∧ s.st = .ready ∧
    s.coder.a.toNat + params.zptab.p (tableGet s.ctx c.toNat) ≤ s.coder.fence.toNat := by
  refine ⟨299, readyWith { onesCoder with fence := 0xFFFF }, by decide, rfl, ?_⟩
  have := toZp_le (tableGet (readyWith { onesCoder with fence := 0xFFFF }).ctx (299 : BitVec 9).toNat)
  show 0 + _ ≤ 0xFFFF
  omega

theorem witness_ZpctxLessProbableSymbol : ∃ (c : BitVec 9) (s : State), c.toNat ≤ 299 ∧ s.st = .ready ∧
    CoderInv s ∧ Supplied params 4 s ∧
    let z0 := s.coder.a.toNat + params.zptab.p (tableGet s.ctx c.toNat)
    s.coder.fence.toNat < z0 ∧ s.coder.code.toNat < min z0 (0x6000 + (z0 + s.coder.a.toNat) / 4) := by
  refine ⟨0, readyWith { onesCoder with a := 0x7FFF, code := 0, fence := 0 }, by decide, rfl,
    coderInv_readyWith (by decide) (by decide) (by decide) (by decide) rfl (by decide),
    supplied_empty rfl rfl (show 4 < 200 by decide), ?_⟩
  generalize params.zptab.p _ = P
  show 0 < 0x7FFF + P ∧ 0 < min (0x7FFF + P) (0x6000 + (0x7FFF + P + 0x7FFF) / 4)
  omega

theorem witness_ZpctxMoreProbableSymbol : ∃ (c : BitVec 9) (s : State), c.toNat ≤ 299 ∧ s.st = .ready ∧
    CoderInv s ∧ Supplied params 4 s ∧
    let z0 := s.coder.a.toNat + params.zptab.p (tableGet s.ctx c.toNat)
    s.coder.fence.toNat < z0 ∧ min z0 (0x6000 + (z0 + s.coder.a.toNat) / 4) ≤ s.coder.code.toNat := by
  refine ⟨0, readyWith { onesCoder with a := 0x7FFF }, by decide, rfl,
    coderInv_readyWith (by decide) (by decide) (by decide) (by decide) rfl (by decide),
    supplied_empty rfl rfl (show 4 < 200 by decide), ?_⟩
  have h1 := toZp_pos (tableGet (readyWith { onesCoder with a := 0x7FFF }).ctx (0 : BitVec 9).toNat)
  have h2 := toZp_le (tableGet (readyWith { onesCoder with a := 0x7FFF }).ctx (0 : BitVec 9).toNat)
  generalize params.zptab.p _ = P at h1 h2
  show 0x7FFF < 0x7FFF + P ∧ min (0x7FFF + P) (0x6000 + (0x7FFF + P + 0x7FFF) / 4) ≤ 0xFFFF
  omega

/-- The `.ok` of a sequence of decision commands. -/
def returned {α β : Type} (r : Except α β) : Bool :=
  match r with
  | .ok _ => true
  | .error _ => false

/-- A session that can deliver four more bytes and no fifth, and one whose next refill faults. -/
def nearTheEnd : State := readyWith { onesCoder with scount := 16, delay := 5 }

def lastCoder : Coder := { onesCoder with a := 0x7FFF, scount := 16, delay := 1 }

def atTheEnd : State := readyWith lastCoder

def inBlockAtTheEnd : State := { inBlock 1 with coder := lastCoder }

/-- Any decision at the end of the grace raises `TruncatedStream`, whatever the tables are. -/
theorem zpctx_atTheEnd {s : State} (hc : s.coder = lastCoder) (hl : s.len = 0) (c : Nat) :
    ∃ u, zpctx params c s = .raise .truncatedStream 0 u := by
  have hs : ∀ v : State, v.coder = lastCoder → v.len = 0 → ∀ z, ∃ u,
      renormMps params z v = .raise .truncatedStream 0 u := by
    intro v hc hl z
    unfold renormMps refill
    rw [if_pos (by show (BitVec.ofNat 6 (v.coder.scount.toNat - 1)).toNat < 16; rw [hc]; decide)]
    unfold preload preloadLoop nextByte
    rw [if_pos (by show (BitVec.ofNat 6 (v.coder.scount.toNat - 1)).toNat ≤ 24; rw [hc]; decide),
      if_neg (by show ¬ v.coder.rp.toNat < v.len.toNat; rw [hl]; exact Nat.not_lt_zero _), if_pos rfl,
      if_pos (by show v.coder.delay.toNat - 1 < 1; rw [hc]; decide)]
    exact ⟨_, by show Res.raise .truncatedStream v.coder.rp _ = _; rw [hc]; rfl⟩
  unfold zpctx
  have ha : s.coder.a.toNat = 0x7FFF := by rw [hc]; rfl
  have hf : s.coder.fence.toNat = 0x7FFF := by rw [hc]; rfl
  have hk : s.coder.code.toNat = 0xFFFF := by rw [hc]; rfl
  have hp : 1 ≤ params.zptab.p (tableGet s.ctx c) := Nat.succ_pos _
  have hq : params.zptab.p (tableGet s.ctx c) ≤ 0x8000 := (params.zptab.pPred _).isLt
  dsimp only
  rw [if_neg (by omega)]
  unfold zpsub zpsubMps
  dsimp only
  rw [if_neg (by unfold clamp CLAMPBASE; omega)]
  split
  · obtain ⟨u, hu⟩ := hs (s.setCtx c (params.zptab.up (tableGet s.ctx c))) hc hl _
    exact ⟨u, by rw [hu]; rfl⟩
  · obtain ⟨u, hu⟩ := hs s hc hl _
    exact ⟨u, by rw [hu]; rfl⟩

/-- The least and the greatest count, where the last byte the grace allows is needed; and a fault. -/
theorem witness_RawnIsRepeatedZpraw : ∀ k ∈ [1, 24], ∃ (n : BitVec 5), n.toNat = k ∧ 1 ≤ n.toNat ∧
    n.toNat ≤ 24 ∧ (∃ s : State, s.st = .ready ∧ CoderInv s ∧ Supplied params 4 s ∧
      ¬ Supplied params 5 s ∧ returned (rawCommands n.toNat 0 s) = true) ∧
    ∃ s : State, s.st = .ready ∧ returned (rawCommands n.toNat 0 s) = false := by
  intro n hn
  refine ⟨BitVec.ofNat 5 n, by revert n; decide, by revert n; decide, by revert n; decide,
    ⟨nearTheEnd, rfl, by decide, supplied_empty rfl rfl (by decide), fun h => absurd h.2.2 (by decide), ?_⟩,
    atTheEnd, rfl, ?_⟩ <;> revert n <;> decide +kernel

/-- A tree walk of one decision that completes, at the last context; and one that faults. -/
theorem witness_BinnIsATreeWalk : (∀ e ∈ [(1, 299), (7, 173), (7, 0)], ∃ (nb : BitVec 3) (base : BitVec 9) (s : State),
      nb.toNat = e.1 ∧ base.toNat = e.2 ∧ 1 ≤ nb.toNat ∧ base.toNat + 2 ^ nb.toNat - 2 ≤ 299 ∧ s.st = .ready ∧
      CoderInv s ∧ Supplied params (2 * nb.toNat + 2) s) ∧
    ∃ s : State, s.st = .ready ∧ returned (treeCommands 299 1 1 s) = false := by
  refine ⟨fun e he => ⟨BitVec.ofNat 3 e.1, BitVec.ofNat 9 e.2, ready, by revert e; decide, by revert e; decide,
    by revert e; decide, by revert e; decide, rfl, by decide, supplied_empty rfl rfl (by revert e; decide)⟩, ?_⟩
  refine ⟨atTheEnd, rfl, ?_⟩
  have h : exec (.zpctx (BitVec.ofNat 9 (299 + 1 - 1))) atTheEnd =
      finish (storeRes (bitValue (zpctx params 299 atTheEnd))) := rfl
  obtain ⟨u, hu⟩ := zpctx_atTheEnd (s := atTheEnd) rfl rfl 299
  simp only [treeCommands, h, hu, storeRes, bitValue, bind_raise, finish, decisionOutcome, faultEntry, returned,
    reduceCtorEq, if_false]

theorem witness_DecisionsKeepTheCoderInvariants : ∃ (p : Params) (s : State), CoderInv s ∧
    (∃ b t, zpraw p s = .ok b t) ∧ ∃ c b t, zpctx p c s = .ok b t := by
  obtain ⟨u, hu, -⟩ := zpctx_ones (n := 15) (c := 0) params (ones_of_onesCoder (s := ready) rfl)
  exact ⟨params, ready, by decide, ⟨_, _, rfl⟩, 0, _, u, hu⟩

/-- The raw decision that takes two bits among them. -/
theorem witness_DecisionsConsumeTheirBits : (∃ (s t : State), CoderInv s ∧ s.coder.a.toNat = 0x7FFF ∧
      zpraw params s = .ok true t) ∧
    ∃ (p : Params) (s t : State) (b : Bool), CoderInv s ∧ zpraw p s = .ok b t ∧
      ∃ c b t, zpctx p c s = .ok b t := by
  obtain ⟨u, hu, -⟩ := zpctx_ones (n := 15) (c := 0) params (ones_of_onesCoder (s := ready) rfl)
  exact ⟨⟨readyWith { onesCoder with a := 0x7FFF, code := 0, fence := 0 }, _, by decide, rfl, rfl⟩,
    params, ready, _, _, by decide, rfl, 0, _, u, hu⟩

/-- A position that is decoded, where 34 bytes can be delivered; and one on which `RANKDEC` raises. -/
theorem witness_SymdecDecodesOnePosition : (∃ s : State, s.st = .block ∧ CoderInv s ∧
      s.blk.i.toNat < s.blk.size.toNat ∧ s.blk.size.toNat ≤ 4194304 ∧ Supplied params 34 s) ∧
    ∃ (s : State) (e : Err) (i : Word32) (u : State), s.st = .block ∧ s.blk.i.toNat < s.blk.size.toNat ∧
      s.blk.size.toNat ≤ 4194304 ∧ rankdec params (min 2 s.blk.mtfno.toNat) s = .raise e i u := by
  refine ⟨⟨inBlock 1, rfl, by decide, by decide, by decide, supplied_empty rfl rfl (show 34 < 200 by decide)⟩, ?_⟩
  obtain ⟨u, hu⟩ := zpctx_atTheEnd (s := inBlockAtTheEnd) rfl rfl 2
  exact ⟨inBlockAtTheEnd, _, _, u, rfl, by decide, by decide, by
    show rankdec params 2 inBlockAtTheEnd = _
    unfold rankdec
    rw [hu]
    rfl⟩

theorem witness_MtfrotPromotesByFrequency : ∃ (r : Nat) (_ : Block), r < 256 := ⟨255, Block.reset, by decide⟩

theorem witness_MtfrotKeepsThePermutation : ∃ (r : Nat) (b : Block), r < 256 ∧ MtfPermutes b :=
  ⟨255, { Block.reset with mtf := identityMtf }, by decide, identity_permutes rfl⟩

/-- The count, and both ends of the range of the place. -/
theorem witness_IbwtChecksTheMarkerFirst : (∀ c ∈ [0, 2], ∃ s : State, s.st = .ranked ∧
      s.blk.mcount = BitVec.ofNat 2 c ∧ s.blk.mcount.toNat ≠ 1) ∧
    ∀ k ∈ [0, 4], ∃ s : State, s.st = .ranked ∧ s.blk.mcount.toNat = 1 ∧ s.blk.markerpos = BitVec.ofNat 23 k ∧
      (s.blk.markerpos.toNat < 1 ∨ s.blk.size.toNat ≤ s.blk.markerpos.toNat) :=
  ⟨fun c hc => ⟨marked (BitVec.ofNat 2 c) 2, rfl, rfl, by revert c; decide⟩,
    fun k hk => ⟨marked 1 (BitVec.ofNat 23 k), rfl, rfl, rfl, by revert k; decide⟩⟩

/-- The first and the last legal place of the marker. -/
theorem witness_IbwtIsTheStableWalk : ∀ k ∈ [1, 3], ∃ s : State, s.st = .ranked ∧
    s.blk.mcount.toNat = 1 ∧ s.blk.markerpos = BitVec.ofNat 23 k ∧ 1 ≤ s.blk.markerpos.toNat ∧
    s.blk.markerpos.toNat < s.blk.size.toNat ∧ s.blk.size.toNat ≤ 4194304 := by
  intro k hk
  exact ⟨ranked [65, 65, 65, 65] (BitVec.ofNat 23 k), rfl, rfl, rfl, by revert k; decide, by revert k; decide,
    show 4 ≤ 4194304 by decide⟩

/-- R210, `"A"`: `data = [65, x]`, the marker at 1. -/
theorem witness_IbwtInvertsTheTransform : ∃ (s : State) (x : List Byte), s.st = .ranked ∧ s.blk.mcount.toNat = 1 ∧
    1 ≤ x.length ∧ s.blk.size.toNat = x.length + 1 ∧ s.blk.size.toNat ≤ 4194304 ∧
    IsTransform x s.dataRead s.blk.markerpos.toNat := by
  refine ⟨ranked [65, 0] 1, [65], rfl, rfl, by decide, by decide, by decide, fun k => 1 - k, ?_, ?_, by decide,
    rfl, ?_⟩
  · intro k _
    show 1 - k ≤ 1
    omega
  · intro j hj k hk hjk
    have hj0 : j = 0 := by have : k ≤ 1 := hk; omega
    have hk1 : k = 1 := by have : k ≤ 1 := hk; omega
    subst hj0 hk1
    exact List.Lex.nil
  · intro k hk hm
    have h1 : k ≤ 1 := hk
    have h2 : k ≠ 1 := hm
    have : k = 0 := by omega
    subst this
    rfl

/-- Each clause at its boundary: the sizes 0, 1, `MAXSIZE`, `MAXSIZE + 1` and the greatest, where no fifth byte can be
delivered. -/
theorem witness_BlkhdrReadsTheHeader : ∀ e ∈ [(0xFFFF, 0xFFFFFFFF, 0),
      (0xFFFF, 0xFEFFFFFF, 1), (0xBFFF, 0xFFFFFFFF, 4194304), (0xBFFF, 0xFEFFFFFF, 4194305),
      (0x0000, 0x00FFFFFF, 16777215)],
    ∃ s : State, s.st = .ready ∧ CoderInv s ∧ Supplied params 4 s ∧ ¬ Supplied params 5 s ∧
      ((rawCommands 24 0 s).toOption.map Prod.fst) = some e.2.2 := by
  intro e he
  refine ⟨readyWith { onesCoder with
    code := BitVec.ofNat 16 e.1, buf := BitVec.ofNat 32 e.2.1, fence := BitVec.ofNat 16 (min e.1 0x7FFF),
    delay := 5 }, rfl,
    coderInv_readyWith (show 0 < 0x8000 by decide) (by revert e; decide) (show 16 ≤ 32 by decide)
      (show 32 ≤ 32 by decide) rfl (show 1 ≤ 5 by decide),
    supplied_empty rfl rfl (show 4 < 5 by decide), fun h => absurd h.2.2 (show ¬ 5 < 0 - 0 + 5 by decide), ?_⟩
  revert e
  decide +kernel

/-- Three more bytes for a header of 25 bits that needs four. -/
def shortHeader : State := readyWith { onesCoder with buf := 0xFFFEFFFF, scount := 24, delay := 3 }

/-- A size, and a speed field, that the input does not hold to its end. -/
theorem witness_BlkhdrReadsTheHeader_faults : returned (rawCommands 24 0 atTheEnd) = false ∧
    ∃ s v u, s.st = .ready ∧ rawCommands 24 0 s = .ok (v, u) ∧ 1 ≤ v ∧ v ≤ 4194304 ∧
      returned (speedCommands { u with blk := { s.blk with size := BitVec.ofNat 24 v } }) = false := by
  have h : (match rawCommands 24 0 shortHeader with
      | .ok (v, u) => decide (v = 1) &&
        !returned (speedCommands { u with blk := { shortHeader.blk with size := BitVec.ofNat 24 v } })
      | .error _ => false) = true := by decide +kernel
  refine ⟨by decide +kernel, shortHeader, ?_⟩
  rcases hr : rawCommands 24 0 shortHeader with o | ⟨v, u⟩ <;> rw [hr] at h
  · cases h
  · obtain ⟨hv, hs⟩ := Bool.and_eq_true_iff.mp h
    have hv : v = 1 := of_decide_eq_true hv
    exact ⟨v, u, rfl, rfl, by omega, by omega, Bool.not_eq_true' _ ▸ hs⟩

theorem witness_EmitAppendsTheBlock : ∃ s : State, s.st = .recon ∧ s.blk.size.toNat - 1 ≤ 4194304 ∧
    s.olen.toNat + (s.blk.size.toNat - 1) < 2 ^ 32 :=
  ⟨{ recon with olen := 0xFFFFFFFC }, rfl, by decide, by decide⟩

theorem witness_OutputIsAppendOnly : ∃ (i : Instr) (s t : State), i ≠ .sreset ∧ i ≠ .run ∧ i ≠ .dinit ∧
    exec i s = .next t ∧ t.st ≠ .fault := by
  obtain ⟨-, -, t, ht, hf⟩ := accepted_of (i := .emit) inv_recon (by decide) (by decide +kernel)
  exact ⟨.emit, recon, t, by decide, by decide, by decide, ht, hf⟩

theorem witness_BlockIsItsCommandSequence : ∃ s t : State, s.st = .ready ∧ exec .blkhdr s = .next t ∧
    t.blk.size = 1 := by
  obtain ⟨t, ht, hq⟩ := exec_sound (i := .blkhdr) (s := readyWith { onesCoder with buf := 0xFEFFFFFF })
    (q := fun t => t.blk.size = 1) (by decide +kernel)
  exact ⟨_, t, rfl, ht, by simpa using hq⟩

theorem witness_BlockReadsTheTerminator : ∀ k ∈ [16, 32], ∃ s : State, s.st = .ready ∧
    s.coder.a = 0 ∧ s.coder.code = 0xFFFF ∧ s.coder.fence = 0x7FFF ∧ s.coder.buf = 0xFFFFFFFF ∧
    s.coder.scount = BitVec.ofNat 6 k ∧ 16 ≤ s.coder.scount.toNat ∧ s.coder.scount.toNat ≤ 32 ∧ s.coder.rp = s.len ∧
    s.len.toNat ≤ params.inCap.toNat ∧ 8 ≤ s.coder.delay.toNat := by
  intro k hk
  exact ⟨readyWith { onesCoder with scount := BitVec.ofNat 6 k, delay := 8 }, rfl, rfl, rfl, rfl, rfl, rfl, by revert k; decide,
    by revert k; decide, rfl, Nat.zero_le _, show 8 ≤ 8 by decide⟩

theorem witness_BlockAlwaysEnds : ∃ s : State, s.st = .ready ∧ CoderInv s ∧
    s.len.toNat ≤ params.inCap.toNat := ⟨ready, rfl, by decide, Nat.zero_le _⟩

theorem witness_RunIsItsCommandSequence : ∃ s t u : State, s.st = .reset ∧ exec .dinit s = .next t ∧
    exec .run s = .next u := by
  obtain ⟨t, ht, -⟩ := exec_sound (i := .dinit) (s := idle) (q := fun _ => true) (by decide +kernel)
  obtain ⟨u, hu, -⟩ := exec_sound (i := .run) (s := idle) (q := fun _ => true) (by decide +kernel)
  exact ⟨idle, t, u, rfl, ht, hu⟩

theorem witness_RunAlwaysEnds : ∃ s : State, s.st = .reset ∧ s.len.toNat ≤ params.inCap.toNat :=
  ⟨idle, rfl, Nat.zero_le _⟩

theorem witness_RunOfAnEmptyInput : ∃ s : State, s.st = .reset ∧ s.len = 0 := ⟨idle, rfl, rfl⟩

/-- Two input memories that differ beyond `LEN`, and other work memories. -/
theorem witness_RunDependsOnTheInputAlone : ∃ s u : State, s.st = .reset ∧ u.st = .reset ∧ s.len = u.len ∧
    (∀ k < s.len.toNat, s.imemRead k = u.imemRead k) ∧ s.err = u.err ∧ s.einfo = u.einfo ∧ s.imem ≠ u.imem ∧
    s.blk ≠ u.blk :=
  ⟨{ idle with len := 1, imem := [(0, 0xFF), (1, 3)] },
    { idle with len := 1, imem := [(0, 0xFF)], blk := { Block.reset with ptr := 7 }, resetCount := 3 },
    rfl, rfl, rfl, fun k hk => by have : k = 0 := by have : k < 1 := hk; omega
                                  subst this; rfl,
    rfl, rfl, by decide, fun h => absurd (congrArg Block.ptr h) (by decide)⟩

theorem witness_HostReadsTheRegisterMap : ∀ o ∈ [0x00, 0x04, 0x08, 0x0C, 0x10, 0x14, 0x18, 0x1C, 0x20, 0x24],
    ∃ (s : State) (v : Word32) (rest : List HostEvent), s.pend = .read o 32 :: rest ∧
      registerReads o s = some v := by
  intro o ho
  refine ⟨asked idle (.read o 32), (registerReads o (asked idle (.read o 32))).getD 0, [], rfl, ?_⟩
  revert o
  decide +kernel

theorem witness_HostWritesTheRegisterMap : ∀ o ∈ [0x04, 0x08, 0x0C, 0x10, 0x14, 0x18, 0x1C, 0x20, 0x24],
    ∀ t ∈ [idle, ready], ∃ (s : State) (v : Word32) (rest : List HostEvent), s.st = t.st ∧
      s.pend = .write o 32 v :: rest := by
  intro o _ t _
  exact ⟨asked t (.write o 32 1), 1, [], rfl, rfl⟩

theorem witness_HostAccessOffTheMapIsRefused : (∃ (s : State) (rest : List HostEvent),
      s.pend = .read 0x04 16 :: rest ∧ ((16 : Nat) ≠ 32 ∨ registerReads 0x04 s = none)) ∧
    ∃ (s : State) (v : Word32) (rest : List HostEvent), s.pend = .write 0x28 32 v :: rest ∧
      ((32 : Nat) ≠ 32 ∨ registerReads 0x28 s = none) :=
  ⟨⟨asked idle (.read 4 16), [], rfl, .inl (by decide)⟩, asked idle (.write 0x28 32 0), 0, [], rfl, .inr rfl⟩

theorem witness_StepKeepsTheInvariant : ∃ s t : State, Inv s ∧ step s = .next t ∧ t.st = .ready := by
  have hi : Inv (asked idle (.write 0 32 0x2000)) := by constructor <;> decide
  obtain ⟨t, ht, hq⟩ := next_sound (o := step (asked idle (.write 0 32 0x2000))) (q := fun t => t.st = .ready)
    (by decide +kernel)
  exact ⟨_, t, hi, ht, by simpa using hq⟩

theorem witness_InvariantStatesNeverStop : ∃ s : State, Inv s := ⟨recon, inv_recon⟩

/-- The last node of the last tree, a rank that is returned, and a block with its marker at the first legal place. -/
theorem witness_IndicesStayInTheirSpaces : (∃ (nb : BitVec 3) (base : BitVec 9) (n : Nat),
      (Instr.binn nb base).wf = true ∧ 1 ≤ n ∧ n < 2 ^ nb.toNat ∧ treeContext base.toNat n = 299) ∧
    (∃ (cid r : Nat) (s t : State), cid ≤ 2 ∧ rankdec params cid s = .ok r t) ∧
    ∃ s : State, 1 ≤ s.blk.markerpos.toNat ∧ s.blk.markerpos.toNat < s.blk.size.toNat := by
  obtain ⟨u, -, hu⟩ := rankdec_inBlock 2
  exact ⟨⟨7, 173, 127, by decide⟩, ⟨2, 0, inBlock 2, u, by decide, hu⟩,
    rankedReady [65, 65] 1, by decide, by decide⟩

end Sys2Proof.Tests
end

