-- ==== Sys2Proof/Proofs/ZpSubOperations.lean ====
section
/-! The sub-operations of the arithmetic decoder: `FFZ` against the bit scan (R131), `SETFENCE` (R133).

`FFZ` reads one byte of its argument in the table `FFZT`, and the bit scan of 16 bits is the scan of the high byte
followed by the scan of the low byte, so the two agree once every entry of the table is the scan of its index. -/

namespace Sys2Proof.Machine

section BitScan

variable (x : Word16)

/-- The bit scan of one byte: the number of 1 bits before the first 0 bit, from bit 7 down, if it has one. -/
def byteScan (b : Byte) : Option Nat := (List.range 8).find? fun n => b.getLsbD (7 - n) = false

/-- The table `FFZT` (R167) holds the scan of each of its 256 indices. -/
theorem ffzt_eq_byteScan : ∀ b : Byte, ffzt b = (byteScan b).getD 8 := by decide

theorem byteScan_eq_none_iff : ∀ b : Byte, byteScan b = none ↔ b.toNat = 0xFF := by decide

/-- The byte of `x` that starts `k` bits below its top: bit `n` of its scan is bit `k + n` of the scan of `x`. -/
theorem byteScan_extractByte {k : Nat} (hk : k ≤ 8) :
    byteScan (x.extractLsb' (8 - k) 8) = (List.range 8).find? fun n => x.getLsbD (15 - (k + n)) = false := by
  refine List.find?_congr fun n hn => ?_
  have hn : n < 8 := List.mem_range.mp hn
  rw [BitVec.getLsbD_extractLsb', show 8 - k + (7 - n) = 15 - (k + n) by omega]
  simp [show 7 - n < 8 by omega]

/-- The scan goes through the high byte first, and through the low byte when the high byte has no 0 bit. -/
theorem leadingOnes_eq_byteScans :
    leadingOnes x =
      ((byteScan (x.extractLsb' 8 8)).or ((byteScan (x.extractLsb' 0 8)).map (8 + ·))).getD 16 := by
  have hrange : List.range 16 = List.range 8 ++ (List.range 8).map (8 + ·) := List.range_add (n := 8) (m := 8)
  have hhigh := byteScan_extractByte x (k := 0) (by decide)
  have hlow := byteScan_extractByte x (k := 8) (by decide)
  simp only [Nat.zero_add] at hhigh
  rw [leadingOnes, hrange, List.find?_append, List.find?_map, hhigh, hlow]
  rfl

/-- The test `x ≥ 0xFF00` of `FFZ` asks whether the high byte has no 0 bit. -/
theorem byteScan_highByte_eq_none_iff : byteScan (x.extractLsb' 8 8) = none ↔ 0xFF00 ≤ x.toNat := by
  rw [byteScan_eq_none_iff, BitVec.extractLsb'_toNat, Nat.shiftRight_eq_div_pow]
  omega

theorem ffz_eq_leadingOnes : ffz x = leadingOnes x := by
  rw [leadingOnes_eq_byteScans, ffz]
  split
  next hsat =>
    rw [(byteScan_highByte_eq_none_iff x).mpr hsat, ffzt_eq_byteScan]
    cases byteScan (x.extractLsb' 0 8) <;> simp [Nat.add_comm]
  next hsat =>
    obtain ⟨n, hn⟩ := Option.ne_none_iff_exists'.mp (mt (byteScan_highByte_eq_none_iff x).mp hsat)
    simp [ffzt_eq_byteScan, hn]

end BitScan

/-- Settles O23: `FFZ` and the scan agree byte by byte. -/
theorem ffzMatchesTheBitScan : Obligations.FfzMatchesTheBitScan := ffz_eq_leadingOnes

/-- Settles O24: `SETFENCE` is a write of the one coder register `fence`, so the equation is its definition. -/
theorem setFenceTakesTheMinimum : Obligations.SetFenceTakesTheMinimum := fun _ => rfl

end Sys2Proof.Machine
end

section
/-! The rotation of the rank table by `MTFROT` (R185, R187).

Both loops of `MTFROT` repeat one move, `T[m] <- T[m-1]` with `m` counted down, so both are described by `movedUp`. The
walk reads an estimate before it writes it, so the place it finds is a place of the estimates it began with. -/

namespace Sys2Proof.Machine

section Moves

variable {w n : Nat} (t : Vector (BitVec w) n)

/-- What entry `j` holds once the entries `k..m-1` of `t` have moved up by one. -/
def movedUp (k m j : Nat) : BitVec w := if k < j ∧ j ≤ m then tableGet t (j - 1) else tableGet t j

theorem movedUp_of_le {k m : Nat} (h : m ≤ k) (j : Nat) : movedUp t k m j = tableGet t j := if_neg (by omega)

/-- One move of a loop, `T[m+1] <- T[m]`, then the moves below it. -/
theorem movedUp_put {k m : Nat} (hk : k ≤ m) (hm : m + 1 < n) (j : Nat) :
    movedUp (tablePut t (m + 1) (tableGet t m)) k m j = movedUp t k (m + 1) j := by
  unfold movedUp
  by_cases hj : k < j ∧ j ≤ m
  · rw [if_pos hj, if_pos (by omega), tableGet_put_other _ _ (by omega)]
  · rw [if_neg hj]
    by_cases hjm : j = m + 1
    · subst hjm
      rw [if_pos (by omega), tableGet_put_same _ _ hm, Nat.add_sub_cancel]
    · rw [if_neg (by omega), tableGet_put_other _ _ (Ne.symm hjm)]

end Moves

/-- The first loop of `MTFROT` moves the ranks `3..r-1` up by one. -/
theorem mtfShift_movedUp {r : Nat} (hr : r < 256) (mtf : Vector Byte 256) (j : Nat) :
    tableGet (mtfShift r mtf) j = movedUp mtf 3 r j := by
  induction r generalizing mtf with
  | zero => exact (movedUp_of_le mtf (by decide) j).symm
  | succ r ih =>
    unfold mtfShift
    split
    next hge =>
      have hge : 4 ≤ r + 1 := hge
      rw [ih (by omega), movedUp_put _ (by omega) hr]
    next hlt =>
      exact (movedUp_of_le mtf (Nat.lt_succ_iff.mp (Nat.lt_of_not_le hlt)) j).symm

/-- The walk from a place of at most 3 continues the moves of the first loop. -/
theorem movedUp_mtfShift {k r : Nat} (hk : k ≤ min r 3) (hr : r < 256) (mtf : Vector Byte 256) (j : Nat) :
    movedUp (mtfShift r mtf) k (min r 3) j = movedUp mtf k r j := by
  rw [movedUp, mtfShift_movedUp hr, mtfShift_movedUp hr]
  unfold movedUp
  by_cases hj : j ≤ 3
  · rw [if_neg (by omega : ¬(3 < j - 1 ∧ j - 1 ≤ r)), if_neg (by omega : ¬(3 < j ∧ j ≤ r))]
    exact if_congr (by omega) rfl rfl
  · rw [if_neg (by omega)]
    exact if_congr (by omega) rfl rfl

/-- What the walk of `MTFROT` from place `m` with the new estimate `fc` leaves (R185, R187): the place, below which
an estimate is greater and from which on all were passed, and the two tables moved up from there. -/
structure WalkEnds (fc : Word32) (m : Nat) (mtf : Vector Byte 256) (freq : Vector Word32 4)
    (u : Nat × Vector Byte 256 × Vector Word32 4) : Prop where
  place_le : u.1 ≤ m
  passed : ∀ j, u.1 ≤ j → j < m → (tableGet freq j).toNat ≤ fc.toNat
  stopped : u.1 = 0 ∨ fc.toNat < (tableGet freq (u.1 - 1)).toNat
  mtf_moved : ∀ j, tableGet u.2.1 j = movedUp mtf u.1 m j
  freq_moved : ∀ j, tableGet u.2.2 j = movedUp freq u.1 m j

theorem mtfWalk_ends (fc : Word32) {m : Nat} (hm : m < 4) (mtf : Vector Byte 256) (freq : Vector Word32 4) :
    WalkEnds fc m mtf freq (mtfWalk fc m mtf freq) := by
  induction m generalizing mtf freq with
  | zero =>
    exact ⟨le_refl _, fun _ _ hj => absurd hj (Nat.not_lt_zero _), .inl rfl,
      fun j => (movedUp_of_le mtf (le_refl _) j).symm, fun j => (movedUp_of_le freq (le_refl _) j).symm⟩
  | succ m ih =>
    unfold mtfWalk
    split
    next hle =>
      have h := ih (by omega) (tablePut mtf (m + 1) (tableGet mtf m)) (tablePut freq (m + 1) (tableGet freq m))
      have hk := h.place_le
      -- The walk goes on below `m + 1`, where the estimates are still those it began with.
      have hkept : ∀ j ≤ m, tableGet (tablePut freq (m + 1) (tableGet freq m)) j = tableGet freq j :=
        fun j hj => tableGet_put_other _ _ (by omega)
      refine ⟨by omega, fun j hkj hjm => ?_, ?_, fun j => ?_, fun j => ?_⟩
      · by_cases hj : j = m
        · exact hj ▸ hle
        · exact hkept j (by omega) ▸ h.passed j hkj (by omega)
      · rw [← hkept _ ((Nat.sub_le _ _).trans hk)]
        exact h.stopped
      · rw [h.mtf_moved, movedUp_put _ hk (by omega)]
      · rw [h.freq_moved, movedUp_put _ hk hm]
    next hlt =>
      exact ⟨le_refl _, fun _ hkj hj => absurd hj (Nat.not_lt.mpr hkj), .inr (Nat.lt_of_not_le hlt),
        fun j => (movedUp_of_le mtf (le_refl _) j).symm, fun j => (movedUp_of_le freq (le_refl _) j).symm⟩

section Estimates

variable (p : Params) (b : Block)

/-- The increment of `MTFROT` before it is compared with the ceiling (R185). -/
def grownFadd : Word32 := trunc32 (b.fadd.toNat + b.fadd.toNat / 2 ^ b.fshift.toNat)

/-- `rescale` scales by `FSCALE` above the ceiling, and not otherwise (R185, R189). -/
theorem rescale_eq : rescale p b =
    if p.faddCeil.toNat < (grownFadd b).toNat
    then (grownFadd b >>> p.fscale, b.freq.map fun f : Word32 => f >>> p.fscale)
    else (grownFadd b, b.freq) := rfl

theorem rescale_fadd_toNat : (rescale p b).1.toNat =
    if p.faddCeil.toNat < (grownFadd b).toNat then (grownFadd b).toNat / 2 ^ p.fscale
    else (grownFadd b).toNat := by
  rw [rescale_eq]
  split
  · rw [BitVec.toNat_ushiftRight, Nat.shiftRight_eq_div_pow]
  · rfl

/-- Outside the table both sides are 0. -/
theorem rescale_freq_toNat (k : Nat) : (tableGet (rescale p b).2 k).toNat =
    if p.faddCeil.toNat < (grownFadd b).toNat then (tableGet b.freq k).toNat / 2 ^ p.fscale
    else (tableGet b.freq k).toNat := by
  rw [rescale_eq]
  split
  · by_cases hk : k < 4
    · rw [tableGet_of_lt _ hk, tableGet_of_lt _ hk, Vector.getElem_map, BitVec.toNat_ushiftRight,
        Nat.shiftRight_eq_div_pow]
    · rw [tableGet_of_ge _ (by omega), tableGet_of_ge _ (by omega)]
      exact (Nat.zero_div _).symm
  · rfl

theorem newEstimate_toNat (r : Nat) (fadd : Word32) (freq : Vector Word32 4) :
    (newEstimate r fadd freq).toNat =
      if r < 4 then (fadd.toNat + (tableGet freq r).toNat) % 2 ^ 32 else fadd.toNat := by
  unfold newEstimate
  split
  · exact BitVec.toNat_ofNat _ _
  · rfl

/-- The new estimate of a rotation from rank `r` of the block `b`. -/
def rotEstimate (r : Nat) : Word32 := newEstimate r (rescale p b).1 (rescale p b).2

/-- The walk of a rotation from rank `r` of the block `b`. -/
def rotWalk (r : Nat) : Nat × Vector Byte 256 × Vector Word32 4 :=
  mtfWalk (rotEstimate p b r) (min r 3) (mtfShift r b.mtf) (rescale p b).2

/-- `MTFROT` puts the byte and the new estimate at the place where the walk ends. -/
theorem mtfrot_eq (r : Nat) (c : Byte) : mtfrot p r c b =
    { b with
      fadd := (rescale p b).1
      mtf := tablePut (rotWalk p b r).2.1 (rotWalk p b r).1 c
      freq := tablePut (rotWalk p b r).2.2 (rotWalk p b r).1 (rotEstimate p b r) } := rfl

variable {r : Nat}

theorem rotWalk_ends : WalkEnds (rotEstimate p b r) (min r 3) (mtfShift r b.mtf) (rescale p b).2 (rotWalk p b r) :=
  mtfWalk_ends _ (by omega) _ _

/-- Every entry of `mtf` after `MTFROT`. -/
theorem mtfrot_mtf (hr : r < 256) (c : Byte) (j : Nat) : tableGet (mtfrot p r c b).mtf j =
    if j = (rotWalk p b r).1 then c else movedUp b.mtf (rotWalk p b r).1 r j := by
  have hk := (rotWalk_ends p b (r := r)).place_le
  rw [mtfrot_eq, tableGet_put, (rotWalk_ends p b).mtf_moved, movedUp_mtfShift hk hr]
  exact if_congr (by omega) rfl rfl

/-- Every entry of `freq` after `MTFROT`. -/
theorem mtfrot_freq (c : Byte) (j : Nat) : tableGet (mtfrot p r c b).freq j =
    if j = (rotWalk p b r).1 then rotEstimate p b r
    else movedUp (rescale p b).2 (rotWalk p b r).1 (min r 3) j := by
  have hk := (rotWalk_ends p b (r := r)).place_le
  rw [mtfrot_eq, tableGet_put, (rotWalk_ends p b).freq_moved]
  exact if_congr (by omega) rfl rfl

end Estimates

/-- Settles O35: the place is the one where the walk ends, and the numbers of the statement are those the words of
`rescale` and `newEstimate` hold. -/
theorem mtfrotPromotesByFrequency : Obligations.MtfrotPromotesByFrequency := by
  intro p r b hr grown big fadd f fc t
  have hgrown : (grownFadd b).toNat = grown := BitVec.toNat_ofNat _ _
  have hbig : p.faddCeil.toNat < grown ↔ big = true := decide_eq_true_iff.symm
  have hfadd : (rescale p b).1.toNat = fadd := by
    rw [rescale_fadd_toNat, hgrown]
    exact if_congr hbig rfl rfl
  have hf : ∀ k, (tableGet (rescale p b).2 k).toNat = f k := fun k => by
    rw [rescale_freq_toNat, hgrown]
    exact if_congr hbig rfl rfl
  have hfc : (rotEstimate p b r).toNat = fc := by
    rw [rotEstimate, newEstimate_toNat, hfadd, hf]
  have hwalk := rotWalk_ends p b (r := r)
  refine ⟨mtfrot_frame p r _ b, hfadd, (rotWalk p b r).1, hwalk.place_le, fun j hkj hj => ?_, ?_,
    fun j _ => mtfrot_mtf p b hr _ j, fun j _ => ?_⟩
  · rw [← hf, ← hfc]
    exact hwalk.passed j hkj hj
  · rw [← hf, ← hfc]
    exact hwalk.stopped
  · rw [mtfrot_freq, apply_ite BitVec.toNat, hfc, movedUp, apply_ite BitVec.toNat, hf, hf]

end Sys2Proof.Machine
end

section
/-! The command `NOP` (R225). -/

namespace Sys2Proof.Machine

/-- Settles O15: the arm of `NOP` in `exec` answers its argument and does not pass through `dispatch`, so neither the
sequence check nor fault entry can touch the state, and the equation is its definition. -/
theorem nopChangesNothing : Obligations.NopChangesNothing := fun _ => rfl

end Sys2Proof.Machine
end

section
/-! The sequence fault and fault entry (`spec/60_exceptions.md` R255, R256): a command in range that its state does
not accept reaches the dispatcher, whose sequence check answers with fault entry on the state as it stands. -/

namespace Sys2Proof.Machine

/-- Every command but `NOP` and `SRESET`, which are accepted wherever a state is not terminal, passes through the
dispatcher (R227). -/
theorem exec_eq_dispatch {i : Instr} (s : State) (hnop : i ≠ .nop) (hsreset : i ≠ .sreset) :
    ∃ r, exec i s = dispatch i s r := by
  cases i with
  | nop => exact absurd rfl hnop
  | sreset => exact absurd rfl hsreset
  | _ => exact ⟨_, rfl⟩

theorem terminal_eq_false {st : SeqState} (hdone : st ≠ .done) (hfault : st ≠ .fault) : st.terminal = false := by
  cases st with
  | done => exact absurd rfl hdone
  | fault => exact absurd rfl hfault
  | _ => rfl

theorem mem_acceptedStates_nop {st : SeqState} (h : st.terminal = false) : st ∈ acceptedStates .nop := by
  cases st with
  | done => cases h
  | fault => cases h
  | _ => decide

theorem mem_acceptedStates_sreset (st : SeqState) : st ∈ acceptedStates .sreset := by
  cases st <;> decide

/-- The dispatcher's sequence check is the table of R236 wherever the dispatcher comes to it. -/
theorem legalIn_iff_mem_acceptedStates {i : Instr} {st : SeqState} (h : st.terminal = false) :
    legalIn i st = true ↔ st ∈ acceptedStates i := by
  cases i with
  | nop => exact iff_of_true rfl (mem_acceptedStates_nop h)
  | sreset => exact iff_of_true rfl (mem_acceptedStates_sreset st)
  | _ => exact decide_eq_true_iff.trans List.mem_singleton.symm

/-- The operand check of the dispatcher is the range of R99 for every command. -/
theorem checkOperands_ok_iff_wf : ∀ i : Instr, checkOperands i = .ok () ↔ i.wf = true
  | .nop => Laws.OperandRange.nop
  | .sreset => Laws.OperandRange.sreset
  | .dinit => Laws.OperandRange.dinit
  | .preload => Laws.OperandRange.preload
  | .zpraw => Laws.OperandRange.zpraw
  | .zpctx c => Laws.OperandRange.zpctx c
  | .rawn n => Laws.OperandRange.rawn n
  | .binn nb base => Laws.OperandRange.binn nb base
  | .blkhdr => Laws.OperandRange.blkhdr
  | .symdec => Laws.OperandRange.symdec
  | .ibwt => Laws.OperandRange.ibwt
  | .emit => Laws.OperandRange.emit
  | .block => Laws.OperandRange.block
  | .run => Laws.OperandRange.run

/-- Settles O12: the four fields are the definition of `faultEntry`, which takes every other one from its argument. -/
theorem faultEntryWritesFourRegisters : Obligations.FaultEntryWritesFourRegisters := fun _ _ _ => rfl

/-- Settles O8: the command is neither `NOP` nor `SRESET`, so it is dispatched; it passes the operand check and stops
at the sequence check, before its own effect. -/
theorem outOfSequenceRaisesSeqError : Obligations.OutOfSequenceRaisesSeqError := by
  intro i s hwf hdone hfault hseq
  have hterm : s.st.terminal = false := terminal_eq_false hdone hfault
  have hlegal : legalIn i s.st = false :=
    Bool.eq_false_iff.mpr (mt (legalIn_iff_mem_acceptedStates hterm).mp hseq)
  have hnop : i ≠ .nop := by
    rintro rfl
    exact hseq (mem_acceptedStates_nop hterm)
  have hsreset : i ≠ .sreset := by
    rintro rfl
    exact hseq (mem_acceptedStates_sreset s.st)
  obtain ⟨r, hexec⟩ := exec_eq_dispatch s hnop hsreset
  rw [hexec, dispatch_sequence r hterm ((checkOperands_ok_iff_wf i).mpr hwf) hlegal, commandInfo,
    faultEntryWritesFourRegisters]

end Sys2Proof.Machine
end

section
/-! The command word (`spec/30_encoding.md` Part B): the encoder lays a word out in the fields the decoder reads, so each
of the four formats gives its operands back, and a row's mask keeps the bits above its operands. -/

namespace Sys2Proof

open Machine

section Fields

variable (w : Word16) (op : BitVec 4) (nb : BitVec 3) (arg : BitVec 9)

theorem append_toNat {m n : Nat} (x : BitVec m) (y : BitVec n) : (x ++ y).toNat = x.toNat * 2 ^ n + y.toNat := by
  rw [BitVec.toNat_append, ← Nat.shiftLeft_add_eq_or_of_lt y.isLt, Nat.shiftLeft_eq]

theorem encodeFields_toNat : (encodeFields op nb arg).toNat = op.toNat * 4096 + nb.toNat * 512 + arg.toNat := by
  rw [encodeFields, append_toNat, append_toNat]
  omega

theorem opField_toNat : (opField w).toNat = w.toNat / 4096 := by
  rw [opField, BitVec.extractLsb'_toNat, Nat.shiftRight_eq_div_pow]
  omega

theorem nbField_toNat : (nbField w).toNat = w.toNat / 512 % 8 := by
  rw [nbField, BitVec.extractLsb'_toNat, Nat.shiftRight_eq_div_pow]

theorem argField_toNat : (argField w).toNat = w.toNat % 512 := by
  rw [argField, BitVec.extractLsb'_toNat, Nat.shiftRight_zero]

theorem rawCountField_toNat : (rawCountField w).toNat = w.toNat % 32 := by
  rw [rawCountField, BitVec.extractLsb'_toNat, Nat.shiftRight_zero]

theorem rawZeroField_toNat : (rawZeroField w).toNat = w.toNat / 32 % 16 := by
  rw [rawZeroField, BitVec.extractLsb'_toNat, Nat.shiftRight_eq_div_pow]

@[simp] theorem opField_encodeFields : opField (encodeFields op nb arg) = op := by
  apply BitVec.eq_of_toNat_eq
  rw [opField_toNat, encodeFields_toNat]
  omega

@[simp] theorem nbField_encodeFields : nbField (encodeFields op nb arg) = nb := by
  apply BitVec.eq_of_toNat_eq
  rw [nbField_toNat, encodeFields_toNat]
  omega

@[simp] theorem argField_encodeFields : argField (encodeFields op nb arg) = arg := by
  apply BitVec.eq_of_toNat_eq
  rw [argField_toNat, encodeFields_toNat]
  omega

theorem encodeFields_fields : encodeFields (opField w) (nbField w) (argField w) = w := by
  apply BitVec.eq_of_toNat_eq
  rw [encodeFields_toNat, opField_toNat, nbField_toNat, argField_toNat]
  omega

end Fields

section Formats

variable {w : Word16} {i : Instr}

theorem formatZ_encodeFields (op : BitVec 4) (i : Instr) : formatZ (encodeFields op 0 0) i = .ok i :=
  if_pos ⟨nbField_encodeFields op 0 0, argField_encodeFields op 0 0⟩

theorem formatC_encodeFields (op : BitVec 4) (c : BitVec 9) (i : BitVec 9 → Instr) :
    formatC (encodeFields op 0 c) i = .ok (i c) := by
  rw [formatC, if_pos (nbField_encodeFields op 0 c), argField_encodeFields]

theorem formatN_encodeFields (op : BitVec 4) (n : BitVec 5) (i : BitVec 5 → Instr) :
    formatN (encodeFields op 0 (n.setWidth 9)) i = .ok (i n) := by
  have hn : (n.setWidth 9).toNat = n.toNat := BitVec.toNat_setWidth_of_le (by decide)
  have hzero : rawZeroField (encodeFields op 0 (n.setWidth 9)) = 0 := by
    apply BitVec.eq_of_toNat_eq
    rw [rawZeroField_toNat, encodeFields_toNat, hn]
    show _ = 0
    omega
  have hcount : rawCountField (encodeFields op 0 (n.setWidth 9)) = n := by
    apply BitVec.eq_of_toNat_eq
    rw [rawCountField_toNat, encodeFields_toNat, hn]
    omega
  rw [formatN, if_pos ⟨nbField_encodeFields op 0 _, hzero⟩, hcount]

theorem formatB_encodeFields (op : BitVec 4) (nb : BitVec 3) (base : BitVec 9) (i : BitVec 3 → BitVec 9 → Instr) :
    formatB (encodeFields op nb base) i = .ok (i nb base) := by
  rw [formatB, nbField_encodeFields, argField_encodeFields]

theorem decode_encode (i : Instr) : decode (encode i) = .ok i := by
  unfold decode encode
  cases i with
  | zpctx c =>
    rw [opField_encodeFields]
    exact formatC_encodeFields _ c .zpctx
  | rawn n =>
    rw [opField_encodeFields]
    exact formatN_encodeFields _ n .rawn
  | binn nb base =>
    rw [opField_encodeFields]
    exact formatB_encodeFields _ nb base .binn
  | _ =>
    rw [opField_encodeFields]
    exact formatZ_encodeFields _ _

section Accepted

variable {n : Nat} (hop : (opField w).toNat = n)
include hop

theorem opField_eq_ofNat : opField w = BitVec.ofNat 4 n := by
  rw [← hop, BitVec.ofNat_toNat, BitVec.setWidth_eq]

theorem formatZ_ok {j : Instr} (h : formatZ w i = .ok j) : j = i ∧ encodeFields (BitVec.ofNat 4 n) 0 0 = w := by
  unfold formatZ at h
  split at h
  next hz =>
    cases h
    exact ⟨rfl, by rw [← opField_eq_ofNat hop, ← hz.1, ← hz.2, encodeFields_fields]⟩
  next => cases h

theorem formatC_ok {j : Instr} {f : BitVec 9 → Instr} (h : formatC w f = .ok j) :
    j = f (argField w) ∧ encodeFields (BitVec.ofNat 4 n) 0 (argField w) = w := by
  unfold formatC at h
  split at h
  next hz =>
    cases h
    exact ⟨rfl, by rw [← opField_eq_ofNat hop, ← hz, encodeFields_fields]⟩
  next => cases h

omit hop in
theorem setWidth_rawCountField (hz : rawZeroField w = 0) : (rawCountField w).setWidth 9 = argField w := by
  have hzero : w.toNat / 32 % 16 = 0 := by rw [← rawZeroField_toNat, hz]; rfl
  apply BitVec.eq_of_toNat_eq
  rw [BitVec.toNat_setWidth_of_le (by decide), rawCountField_toNat, argField_toNat]
  omega

theorem formatN_ok {j : Instr} {f : BitVec 5 → Instr} (h : formatN w f = .ok j) :
    j = f (rawCountField w) ∧ encodeFields (BitVec.ofNat 4 n) 0 ((rawCountField w).setWidth 9) = w := by
  unfold formatN at h
  split at h
  next hz =>
    cases h
    exact ⟨rfl, by rw [← opField_eq_ofNat hop, ← hz.1, setWidth_rawCountField hz.2, encodeFields_fields]⟩
  next => cases h

theorem formatB_ok {j : Instr} {f : BitVec 3 → BitVec 9 → Instr} (h : formatB w f = .ok j) :
    j = f (nbField w) (argField w) ∧ encodeFields (BitVec.ofNat 4 n) (nbField w) (argField w) = w := by
  cases h
  exact ⟨rfl, by rw [← opField_eq_ofNat hop, encodeFields_fields]⟩

end Accepted

theorem encode_of_decode (h : decode w = .ok i) : encode i = w := by
  unfold decode at h
  split at h
  case h_6 hop =>
    obtain ⟨rfl, hw⟩ := formatC_ok hop h
    exact hw
  case h_7 hop =>
    obtain ⟨rfl, hw⟩ := formatN_ok hop h
    exact hw
  case h_8 hop =>
    obtain ⟨rfl, hw⟩ := formatB_ok hop h
    exact hw
  case h_15 => cases h
  all_goals
    rename_i hop
    obtain ⟨rfl, hw⟩ := formatZ_ok hop h
    exact hw

theorem decode_ok_iff : decode w = .ok i ↔ encode i = w :=
  ⟨encode_of_decode, fun h => h ▸ decode_encode i⟩

end Formats

section Rows

variable {w : Word16}

/-- How many low bits of a command's word its row's mask leaves to the operands (R97). -/
def operandBits (i : Instr) : Nat :=
  match i with
  | .zpctx _ => 9
  | .rawn _ => 5
  | .binn _ _ => 12
  | _ => 0

theorem tableRow_mask (i : Instr) : (tableRow i).2 = BitVec.allOnes 16 <<< operandBits i := by
  cases i with
  | zpctx c => exact (by decide : (0xFE00 : Word16) = BitVec.allOnes 16 <<< 9)
  | rawn n => exact (by decide : (0xFFE0 : Word16) = BitVec.allOnes 16 <<< 5)
  | binn nb base => exact (by decide : (0xF000 : Word16) = BitVec.allOnes 16 <<< 12)
  | _ => rfl

theorem tableRow_mask_toNat (i : Instr) : (w &&& (tableRow i).2).toNat =
    w.toNat / 2 ^ operandBits i * 2 ^ operandBits i := by
  rw [tableRow_mask, ← BitVec.shiftLeft_ushiftRight, BitVec.toNat_shiftLeft, BitVec.toNat_ushiftRight,
    Nat.shiftRight_eq_div_pow, Nat.shiftLeft_eq]
  exact Nat.mod_eq_of_lt (lt_of_le_of_lt (Nat.div_mul_le_self _ _) w.isLt)

theorem row_matches_iff (i : Instr) : w &&& (tableRow i).2 = (tableRow i).1 ↔
    w.toNat / 2 ^ operandBits i * 2 ^ operandBits i = (tableRow i).1.toNat := by
  rw [← BitVec.toNat_inj, tableRow_mask_toNat]

theorem encode_zpctx_toNat (c : BitVec 9) : (encode (.zpctx c)).toNat = 0x5000 + c.toNat :=
  encodeFields_toNat 5 0 c

theorem encode_rawn_toNat (n : BitVec 5) : (encode (.rawn n)).toNat = 0x6000 + n.toNat := by
  rw [← BitVec.toNat_setWidth_of_le (by decide : 5 ≤ 9)]
  exact encodeFields_toNat 6 0 _

theorem encode_binn_toNat (nb : BitVec 3) (base : BitVec 9) :
    (encode (.binn nb base)).toNat = 0x7000 + nb.toNat * 512 + base.toNat :=
  encodeFields_toNat 7 nb base

/-- The word of a command matches its row: the operands lie below the bits the mask keeps. -/
theorem encode_matches_row (i : Instr) : encode i &&& (tableRow i).2 = (tableRow i).1 := by
  rw [row_matches_iff]
  cases i with
  | zpctx c =>
    have hrow : (tableRow (.zpctx c)).1.toNat = 0x5000 := rfl
    rw [encode_zpctx_toNat, hrow, operandBits]
    omega
  | rawn n =>
    have hrow : (tableRow (.rawn n)).1.toNat = 0x6000 := rfl
    rw [encode_rawn_toNat, hrow, operandBits]
    omega
  | binn nb base =>
    have hrow : (tableRow (.binn nb base)).1.toNat = 0x7000 := rfl
    rw [encode_binn_toNat, hrow, operandBits]
    omega
  | _ => rfl

/-- A word that matches a row is the word of a command of that row: its low bits are the operands. -/
theorem exists_encode_of_matches_row (i : Instr) (h : w &&& (tableRow i).2 = (tableRow i).1) :
    ∃ j, encode j = w ∧ tableRow j = tableRow i := by
  rw [row_matches_iff] at h
  cases i with
  | zpctx c =>
    have h : w.toNat / 2 ^ 9 * 2 ^ 9 = 0x5000 := h
    refine ⟨.zpctx (argField w), BitVec.eq_of_toNat_eq ?_, rfl⟩
    rw [encode_zpctx_toNat, argField_toNat]
    omega
  | rawn n =>
    have h : w.toNat / 2 ^ 5 * 2 ^ 5 = 0x6000 := h
    refine ⟨.rawn (rawCountField w), BitVec.eq_of_toNat_eq ?_, rfl⟩
    rw [encode_rawn_toNat, rawCountField_toNat]
    omega
  | binn nb base =>
    have h : w.toNat / 2 ^ 12 * 2 ^ 12 = 0x7000 := h
    refine ⟨.binn (nbField w) (argField w), BitVec.eq_of_toNat_eq ?_, rfl⟩
    rw [encode_binn_toNat, nbField_toNat, argField_toNat]
    omega
  | _ =>
    refine ⟨_, ?_, rfl⟩
    exact BitVec.eq_of_toNat_eq (h.symm.trans ((Nat.mul_one _).trans (Nat.div_one _)))

end Rows

section Illegal

variable {w : Word16} {i : Instr}

theorem formatZ_error {e : DecodeError} (h : formatZ w i = .error e) :
    w.toNat / 512 % 8 ≠ 0 ∨ w.toNat % 512 ≠ 0 := by
  rw [← nbField_toNat, ← argField_toNat]
  by_contra hz
  push Not at hz
  rw [formatZ, if_pos ⟨BitVec.eq_of_toNat_eq hz.1, BitVec.eq_of_toNat_eq hz.2⟩] at h
  cases h

theorem formatC_error {f : BitVec 9 → Instr} {e : DecodeError} (h : formatC w f = .error e) :
    w.toNat / 512 % 8 ≠ 0 := by
  rw [← nbField_toNat]
  intro hz
  rw [formatC, if_pos (BitVec.eq_of_toNat_eq hz)] at h
  cases h

theorem formatN_error {f : BitVec 5 → Instr} {e : DecodeError} (h : formatN w f = .error e) :
    w.toNat / 512 % 8 ≠ 0 ∨ w.toNat / 32 % 16 ≠ 0 := by
  rw [← nbField_toNat, ← rawZeroField_toNat]
  by_contra hz
  push Not at hz
  rw [formatN, if_pos ⟨BitVec.eq_of_toNat_eq hz.1, BitVec.eq_of_toNat_eq hz.2⟩] at h
  cases h

/-- A word the decoder refuses has a reserved opcode or a field that should be 0 (R98). -/
theorem illegalWord_of_decode_error {e : DecodeError} (h : decode w = .error e) : IllegalWord w.toNat := by
  have hop := opField_toNat w
  unfold decode at h
  dsimp only [IllegalWord]
  split at h
  case h_6 =>
    have := formatC_error h
    omega
  case h_7 =>
    have := formatN_error h
    omega
  case h_8 => cases h
  case h_15 =>
    simp only [imp_false] at *
    omega
  all_goals
    have := formatZ_error h
    omega

/-- The word of a command is illegal exactly when an operand is out of the range of R99. -/
theorem illegalWord_encode_iff (i : Instr) : IllegalWord (encode i).toNat ↔ i.wf = false := by
  cases i with
  | zpctx c =>
    have hc := c.isLt
    rw [encode_zpctx_toNat, Instr.wf, wfCtx, decide_eq_false_iff_not]
    dsimp only [IllegalWord, NCTX]
    omega
  | rawn n =>
    have hn := n.isLt
    rw [encode_rawn_toNat, Instr.wf, wfRawCount, decide_eq_false_iff_not]
    dsimp only [IllegalWord]
    omega
  | binn nb base =>
    have henc := encode_binn_toNat nb base
    have hnb : (encode (.binn nb base)).toNat / 512 % 8 = nb.toNat := by omega
    have hbase : (encode (.binn nb base)).toNat % 512 = base.toNat := by omega
    rw [Instr.wf, wfTreeBits, wfTreeBase, Bool.and_eq_false_iff, decide_eq_false_iff_not, decide_eq_false_iff_not]
    dsimp only [IllegalWord, NCTX]
    rw [hnb, hbase]
    omega
  | _ => decide

/-- The commands and the words that are not illegal (R98). -/
theorem not_illegalWord_iff : ¬ IllegalWord w.toNat ↔ ∃ i, decode w = .ok i ∧ i.wf = true := by
  constructor
  · intro h
    rcases hd : decode w with e | i
    · exact absurd (illegalWord_of_decode_error hd) h
    · refine ⟨i, rfl, ?_⟩
      rwa [← encode_of_decode hd, illegalWord_encode_iff, Bool.not_eq_false] at h
  · rintro ⟨i, hd, hwf⟩
    rw [← encode_of_decode hd, illegalWord_encode_iff, hwf]
    decide

end Illegal


/-- Settles O1. -/
theorem decodeInvertsEncode : Obligations.DecodeInvertsEncode := decode_encode

/-- Settles O2. -/
theorem encodeInvertsDecode : Obligations.EncodeInvertsDecode := fun _ _ => encode_of_decode

/-- Settles O3: a word matches a row exactly when it is the word of a command of the row. -/
theorem decodeFollowsTheOpcodeTable : Obligations.DecodeFollowsTheOpcodeTable := by
  refine ⟨fun w i h => ?_, fun w i h => ?_⟩
  · rw [← encode_of_decode h]
    exact encode_matches_row i
  · obtain ⟨j, henc, hrow⟩ := exists_encode_of_matches_row i h
    exact ⟨j, decode_ok_iff.mpr henc, hrow⟩

/-- Settles O4. -/
theorem wordsWrittenInTheSpecDecode : Obligations.WordsWrittenInTheSpecDecode := by
  unfold Obligations.WordsWrittenInTheSpecDecode
  decide

end Sys2Proof
end

section
/-! What a command can do, said once for all of them (R227): each but `NOP` and `SRESET` is dispatched, and what it
performs changes only what a command may change and raises one of the three faults of the stream. -/

namespace Sys2Proof.Machine

/-- `t` differs from `s` at most in what a command other than `SRESET` changes without a fault. -/
def CommandFrame (s t : State) : Prop :=
  t = { s with
    st := t.st, coder := t.coder, ctx := t.ctx, blk := t.blk, omem := t.omem, olen := t.olen, res := t.res }

theorem commandFrame_refl (s : State) : CommandFrame s s := rfl

theorem commandFrame_of_engineFrame {s t : State} (h : EngineFrame s t) : CommandFrame s t := by
  unfold CommandFrame
  rw [h]

theorem commandFrame_of_coderFrame {s t : State} (h : CoderFrame s t) : CommandFrame s t :=
  commandFrame_of_engineFrame (engineFrame_of_coderFrame h)

section Fields

variable {s t : State} (h : CommandFrame s t)
include h

theorem commandFrame_err : t.err = s.err := by rw [h]
theorem commandFrame_einfo : t.einfo = s.einfo := by rw [h]
theorem commandFrame_len : t.len = s.len := by rw [h]
theorem commandFrame_iaddr : t.iaddr = s.iaddr := by rw [h]
theorem commandFrame_oaddr : t.oaddr = s.oaddr := by rw [h]
theorem commandFrame_imem : t.imem = s.imem := by rw [h]
theorem commandFrame_rdata : t.rdata = s.rdata := by rw [h]
theorem commandFrame_pend : t.pend = s.pend := by rw [h]
theorem commandFrame_resetCount : t.resetCount = s.resetCount := by rw [h]
theorem commandFrame_bootCount : t.bootCount = s.bootCount := by rw [h]

end Fields

/-- The faults an operation raises; the dispatcher alone raises the other two (R250). -/
def StreamFault (e : Err) : Prop := e = .truncatedStream ∨ e = .blockTooLarge ∨ e = .corruptBlock

theorem raisesTruncated_frame {s t : State} {e : Err} {info : Word32} (h : RaisesTruncated s e info t) : CoderFrame s t := by
  obtain ⟨-, -, -, -, hframe⟩ := h
  exact hframe

/-- How what a command performs can end. -/
def CommandOp (s : State) (r : Res Unit) : Prop :=
  r.All (fun _ t => CommandFrame s t) (fun e _ t => StreamFault e ∧ CommandFrame s t)
    (fun _ => True) (fun _ => True)

theorem commandOp_ok {s t : State} {r : Res Unit} (h : CommandOp s r) (hr : r = .ok () t) : CommandFrame s t := by
  subst hr
  exact h

theorem commandOp_raise {s t : State} {r : Res Unit} {e : Err} {info : Word32} (h : CommandOp s r)
    (hr : r = .raise e info t) : StreamFault e ∧ CommandFrame s t := by
  subst hr
  exact h

theorem commandOp_of_engineOp {s : State} {r : Res Unit} {P : State → Prop} (h : EngineOp s r P) : CommandOp s r :=
  all_mono h (fun _ _ h => commandFrame_of_engineFrame h.1)
    (fun _ _ _ h => ⟨h.1, commandFrame_of_engineFrame h.2⟩) (fun _ _ => trivial) (fun _ _ => trivial)

theorem commandOp_of_coderOp {p : Params} {s : State} {r : Res Unit} {P : Unit → State → Prop}
    (h : CoderOp p s r P) : CommandOp s r :=
  all_mono h (fun _ _ h => commandFrame_of_coderFrame h.1)
    (fun _ _ _ h => ⟨.inl h.1, commandFrame_of_coderFrame (raisesTruncated_frame h)⟩) (fun _ _ => trivial) (fun _ _ => trivial)

theorem commandOp_storeRes {p : Params} {s : State} {r : Res Nat} {P : Nat → State → Prop} (h : CoderOp p s r P) :
    CommandOp s (storeRes r) :=
  all_mono (storeRes_all p s h) (fun _ t h => by unfold CommandFrame; rw [h.1])
    (fun _ _ _ h => ⟨.inl h.1, commandFrame_of_coderFrame (raisesTruncated_frame h)⟩) (fun _ _ => trivial) (fun _ _ => trivial)

theorem dinit_engineOp (p : Params) (s : State) : EngineOp s (dinit p s) fun t => t.st = .ready :=
  all_mono (dinit_all p s) (fun _ t h => by rw [h.1]; exact ⟨rfl, rfl⟩)
    (fun _ _ _ h => ⟨.inl h.1, engineFrame_trans (t := freshSession s) rfl (engineFrame_of_coderFrame (raisesTruncated_frame h))⟩)
    (fun _ h => h.elim) (fun _ h => .inr h.1)

/-- What the dispatcher performs for a command (R227). -/
def perform (i : Instr) (s : State) : Res Unit :=
  match i with
  | .nop => .ok () s
  | .sreset => .ok () (softReset s)
  | .dinit => dinit params s
  | .preload => preload params s
  | .zpraw => storeRes (bitValue (zpraw params s))
  | .zpctx c => storeRes (bitValue (zpctx params c.toNat s))
  | .rawn n => storeRes (rawn params n.toNat s)
  | .binn nb base => storeRes (binn params nb.toNat base.toNat s)
  | .blkhdr => blkhdr params s
  | .symdec => symdec params s
  | .ibwt => ibwt params s
  | .emit => emit s
  | .block => block params s
  | .run => run params s

theorem exec_eq_dispatch_perform {i : Instr} (s : State) (hnop : i ≠ .nop) (hsreset : i ≠ .sreset) :
    exec i s = dispatch i s (perform i s) := by
  cases i with
  | nop => exact absurd rfl hnop
  | sreset => exact absurd rfl hsreset
  | _ => rfl

theorem perform_commandOp {i : Instr} (s : State) (hsreset : i ≠ .sreset) : CommandOp s (perform i s) := by
  cases i with
  | nop => exact commandFrame_refl s
  | sreset => exact absurd rfl hsreset
  | dinit => exact commandOp_of_engineOp (dinit_engineOp _ s)
  | preload => exact commandOp_of_coderOp (preload_coderOp _ s)
  | zpraw => exact commandOp_storeRes (bitValue_coderOp _ s (zpraw_coderOp _ s))
  | zpctx c => exact commandOp_storeRes (bitValue_coderOp _ s (zpctx_coderOp _ s _))
  | rawn n => exact commandOp_storeRes (rawn_coderOp _ s _)
  | binn nb base => exact commandOp_storeRes (binn_coderOp _ s _ _)
  | blkhdr => exact commandOp_of_engineOp (blkhdr_engineOp _ s)
  | symdec => exact commandOp_of_engineOp (symdec_engineOp _ s)
  | ibwt => exact commandOp_of_engineOp (ibwt_engineOp _ s)
  | emit => exact commandOp_of_engineOp (emit_engineOp s)
  | block => exact commandOp_of_engineOp (block_engineOp _ s)
  | run => exact commandOp_of_engineOp (run_engineOp _ s)

/-- A command its state accepts is performed. -/
theorem exec_accepted {i : Instr} {s : State} (hterm : s.st.terminal = false) (hwf : i.wf = true)
    (hlegal : legalIn i s.st = true) : exec i s = finish (perform i s) := by
  by_cases hnop : i = .nop
  · subst hnop
    rfl
  · by_cases hsreset : i = .sreset
    · subst hsreset
      rfl
    · rw [exec_eq_dispatch_perform s hnop hsreset]
      exact dispatch_accepted _ hterm ((checkOperands_ok_iff_wf i).mpr hwf) hlegal

/-- Every way a command other than `SRESET` answers a next state: it is ignored, illegal, out of sequence, performed, or
performed up to a fault. -/
theorem exec_next {i : Instr} {s t : State} (hsreset : i ≠ .sreset) (h : exec i s = .next t) :
    (s.st.terminal = true ∧ t = s) ∨
    (s.st.terminal = false ∧ i.wf = false ∧ t = faultEntry .illegalCmd (commandInfo i) s) ∨
    (s.st.terminal = false ∧ i.wf = true ∧ legalIn i s.st = false ∧ t = faultEntry .seqError (commandInfo i) s) ∨
    (s.st.terminal = false ∧ i.wf = true ∧ legalIn i s.st = true ∧
      (perform i s = .ok () t ∨ ∃ e info u, perform i s = .raise e info u ∧ t = faultEntry e info u)) := by
  by_cases hnop : i = .nop
  · subst hnop
    cases h
    cases hterm : s.st.terminal with
    | true => exact .inl ⟨rfl, rfl⟩
    | false => exact .inr (.inr (.inr ⟨rfl, rfl, rfl, .inl rfl⟩))
  rw [exec_eq_dispatch_perform s hnop hsreset] at h
  rcases dispatch_next h with h | ⟨hterm, ⟨e, he⟩, ht⟩ | ⟨hterm, hwf, hlegal, ht⟩ | ⟨hterm, hwf, hlegal, ht⟩
  · exact .inl h
  · refine .inr (.inl ⟨hterm, Bool.eq_false_iff.mpr fun hwf => ?_, ht⟩)
    rw [(checkOperands_ok_iff_wf i).mpr hwf] at he
    cases he
  · exact .inr (.inr (.inl ⟨hterm, (checkOperands_ok_iff_wf i).mp hwf, hlegal, ht⟩))
  · exact .inr (.inr (.inr ⟨hterm, (checkOperands_ok_iff_wf i).mp hwf, hlegal, finish_next ht⟩))

theorem ne_nop_of_wf {i : Instr} (h : i.wf = false) : i ≠ .nop := by
  rintro rfl
  cases h

theorem ne_sreset_of_wf {i : Instr} (h : i.wf = false) : i ≠ .sreset := by
  rintro rfl
  cases h

/-- An operand out of range is found before the state is looked at (R254, R258). -/
theorem exec_illegal {i : Instr} {s : State} (hterm : s.st.terminal = false) (hwf : i.wf = false) :
    exec i s = .next (faultEntry .illegalCmd (commandInfo i) s) := by
  rw [exec_eq_dispatch_perform s (ne_nop_of_wf hwf) (ne_sreset_of_wf hwf)]
  rcases hc : checkOperands i with e | u
  · exact dispatch_illegal _ hterm hc
  · rw [(checkOperands_ok_iff_wf i).mp hc] at hwf
    cases hwf

theorem exec_terminal {i : Instr} {s : State} (hsreset : i ≠ .sreset) (hterm : s.st.terminal = true) :
    exec i s = .next s := by
  by_cases hnop : i = .nop
  · subst hnop
    rfl
  · rw [exec_eq_dispatch_perform s hnop hsreset]
    exact dispatch_terminal _ hterm

theorem terminal_iff {st : SeqState} : st.terminal = true ↔ st = .done ∨ st = .fault := by
  cases st <;> decide

/-! ### A host event that writes `CMD` -/

section Step

variable {s : State} {v : Word32} {rest : List HostEvent}

theorem step_command {i : Instr} (hp : s.pend = .write 0x00 32 v :: rest) (hd : decode (v.setWidth 16) = .ok i) :
    step s = exec i { s with pend := rest } := by
  unfold step fetch
  rw [hp]
  show (match decode (v.setWidth 16) with
    | .ok i => exec i { s with pend := rest }
    | .error _ => .next (rejectWord (v.setWidth 16) { s with pend := rest })) = _
  rw [hd]

theorem step_rejected {e : DecodeError} (hp : s.pend = .write 0x00 32 v :: rest)
    (hd : decode (v.setWidth 16) = .error e) : step s = .next (rejectWord (v.setWidth 16) { s with pend := rest }) := by
  unfold step fetch
  rw [hp]
  show (match decode (v.setWidth 16) with
    | .ok i => exec i { s with pend := rest }
    | .error _ => .next (rejectWord (v.setWidth 16) { s with pend := rest })) = _
  rw [hd]

theorem hostRegAt_eq_cmd {offset : Nat} (h : hostRegAt offset = some .cmd) : offset = 0 := by
  unfold hostRegAt at h
  split at h <;> first | rfl | cases h

end Step

/-- Settles O6. -/
theorem stepRunsTheDecodedCommand : Obligations.StepRunsTheDecodedCommand := fun _ _ _ _ => step_command

/-- Settles O9. -/
theorem outOfRangeRaisesIllegalCmd : Obligations.OutOfRangeRaisesIllegalCmd := fun _ _ hwf hdone hfault =>
  exec_illegal (terminal_eq_false hdone hfault) hwf

/-- Settles O5: an illegal word is refused by the decoder or is a command whose operand check fails, and a command in
range ends in no fault but `SeqError` and those of the stream. -/
theorem illegalWordsAloneRaiseIllegalCmd : Obligations.IllegalWordsAloneRaiseIllegalCmd := by
  refine ⟨fun s v rest hp hdone hfault hill => ?_, fun w hlegal => ?_⟩
  · have hterm : s.st.terminal = false := terminal_eq_false hdone hfault
    rcases hd : decode (v.setWidth 16) with e | i
    · rw [step_rejected hp hd, rejectWord, if_neg (by simp [hterm])]
      rfl
    · have henc := encode_of_decode hd
      have hwf : i.wf = false := (illegalWord_encode_iff i).mp (henc ▸ hill)
      rw [step_command hp hd, exec_illegal (by exact hterm) hwf, commandInfo, henc]
      rfl
  · obtain ⟨i, hd, hwf⟩ := not_illegalWord_iff.mp hlegal
    refine ⟨i, hd, hwf, fun s t hs h => ?_⟩
    by_cases hsreset : i = .sreset
    · subst hsreset
      cases h
      exact Err.noConfusion
    · have hop := perform_commandOp s hsreset
      rcases exec_next hsreset h with ⟨-, rfl⟩ | ⟨-, hill, -⟩ | ⟨-, -, -, rfl⟩ | ⟨-, -, -, hperf | ⟨e, info, u, hperf, rfl⟩⟩
      · exact hs
      · rw [hwf] at hill
        cases hill
      · exact Err.noConfusion
      · rwa [commandFrame_err (commandOp_ok hop hperf)]
      · rcases (commandOp_raise hop hperf).1 with rfl | rfl | rfl <;> exact Err.noConfusion

/-- Settles O7. -/
theorem terminalStatesIgnoreCommands : Obligations.TerminalStatesIgnoreCommands := by
  intro s hst
  have hterm : s.st.terminal = true := terminal_iff.mpr hst
  refine ⟨fun i hi => exec_terminal hi hterm, fun v rest hp hv => ?_, rfl, rfl, rfl⟩
  rcases hd : decode (v.setWidth 16) with e | i
  · rw [step_rejected hp hd, rejectWord, if_pos hterm]
  · rw [step_command hp hd]
    refine exec_terminal ?_ hterm
    rintro rfl
    exact hv (encode_of_decode hd).symm

/-- Settles O16. -/
theorem sresetGivesTheResetColumn : Obligations.SresetGivesTheResetColumn := fun s =>
  ⟨softReset s, rfl, rfl, rfl, rfl, rfl, rfl, rfl, rfl, rfl, rfl, rfl, rfl, rfl, rfl, rfl,
    fun _ hk => tableGet_replicate 0 hk, rfl, rfl, rfl, rfl, rfl, fun _ => rfl, rfl, rfl⟩

/-- Settles O17. -/
theorem powerOnGivesTheResetColumn : Obligations.PowerOnGivesTheResetColumn := by
  intro s rest hp
  refine ⟨powerOn { s with pend := rest }, ?_, fun r hr => ?_⟩
  · unfold step fetch
    rw [hp]
    rfl
  · rcases hr with rfl | rfl <;>
      exact ⟨rfl, rfl, rfl, rfl, rfl, rfl, rfl, rfl, rfl, rfl, rfl, rfl, rfl, rfl,
        fun _ hk => tableGet_replicate 0 hk, rfl, rfl, rfl, rfl, rfl⟩

/-- Settles O18: of the ways a step can end, only a power-on and an executed command move `st`, and a stopped state
executes no command but `SRESET`. -/
theorem stoppedStatesAreLeftOnlyByReset : Obligations.StoppedStatesAreLeftOnlyByReset := by
  intro s t hst h hmoved
  have hterm : s.st.terminal = true := terminal_iff.mpr hst
  rcases step_cases h with ⟨-, rfl⟩ | ⟨rest, ⟨_, _, -, -, rfl⟩ | ⟨_, _, _, -, -, -, rfl⟩ | ⟨hp, rfl⟩ |
    ⟨offset, v, hp, hoff, ⟨i, hd, hexec⟩ | ⟨-, rfl⟩⟩⟩
  · exact absurd rfl hmoved
  · exact absurd rfl hmoved
  · rw [hostWrite_frame] at hmoved
    exact absurd rfl hmoved
  · exact ⟨rfl, rest, .inr hp⟩
  · obtain rfl := hostRegAt_eq_cmd hoff
    by_cases hsreset : i = .sreset
    · subst hsreset
      cases hexec
      exact ⟨rfl, rest, .inl ⟨v, hp, (encode_of_decode hd).symm⟩⟩
    · rw [exec_terminal hsreset (by exact hterm)] at hexec
      cases hexec
      exact absurd rfl hmoved
  · rw [rejectWord, if_pos hterm] at hmoved
    exact absurd rfl hmoved

/-- Settles O20: the check of `LEN` stands before anything `DINIT` does, and `RUN` begins with `DINIT`. -/
theorem launchBeyondTheInputMemoryIsRefused : Obligations.LaunchBeyondTheInputMemoryIsRefused := by
  intro p s h
  have hd : dinit p s = .refuse .lenExceedsInCap := if_pos h
  exact ⟨hd, by rw [run, hd]; rfl⟩

end Sys2Proof.Machine
end

section
/-! The host port (R24, R69, R72, R74): a 32-bit access at a register's offset is a read or a write of that register, any
other is refused. -/

namespace Sys2Proof.Machine

section Access

variable {s : State} {offset bits : Nat} {v : Word32} {rest : List HostEvent} {r : HostReg}

theorem step_hostRead (hp : s.pend = .read offset 32 :: rest) (hr : hostRegAt offset = some r) :
    step s = .next (hostRead r { s with pend := rest }) := by
  unfold step fetch
  rw [hp]
  simp only [hostEvent, hostTarget, if_true, hr]

theorem step_hostWrite (hp : s.pend = .write offset 32 v :: rest) (hr : hostRegAt offset = some r) (hcmd : r ≠ .cmd) :
    step s = .next (hostWrite params r v { s with pend := rest }) := by
  unfold step fetch
  rw [hp]
  simp only [hostEvent, hostTarget, if_true, hr]

theorem step_refused (ht : hostTarget offset bits = none)
    (hp : s.pend = .read offset bits :: rest ∨ ∃ v, s.pend = .write offset bits v :: rest) :
    step s = .refused (.hostAccess offset bits) := by
  unfold step fetch
  rcases hp with hp | ⟨v, hp⟩ <;> rw [hp] <;> simp only [hostEvent, ht]

/-- The map of the statements and the map of the host port have the same offsets. -/
theorem registerReads_eq_none_iff : registerReads offset s = none ↔ hostRegAt offset = none := by
  unfold registerReads hostRegAt
  split <;> simp

theorem statusWord_eq : statusWord s =
    BitVec.ofNat 32 (s.st.code.toNat + 8 * s.err.code.toNat + 64 * (if s.st = .done then 1 else 0)) := by
  unfold statusWord outValid
  cases s.st <;> cases s.err <;> rfl

/-- What the host port returns for a register is what the map says (R24). -/
theorem registerReads_eq_hostValue (hr : hostRegAt offset = some r) : registerReads offset s = some (hostValue r s) := by
  unfold hostRegAt at hr
  split at hr <;> cases hr
  case h_2 => exact congrArg some statusWord_eq.symm
  case h_6 => exact congrArg some (BitVec.ofNat_toNat ..)
  case h_10 =>
    refine congrArg some (if_congr Iff.rfl ?_ rfl)
    exact BitVec.ofNat_toNat ..
  all_goals rfl

theorem eq_odata_iff (hr : hostRegAt offset = some r) : r = .odata ↔ offset = 0x24 := by
  unfold hostRegAt at hr
  split at hr <;> cases hr <;> simp

/-- What the memory reads after a write of `IDATA` while `st` is `RESET`. -/
theorem writeIdata_imemRead (p : Params) (hst : s.st = .reset) (k : Nat) : (writeIdata p v s).imemRead k =
    if k = s.iaddr.toNat ∧ k < p.inCap.toNat then BitVec.ofNat 8 v.toNat else s.imemRead k := by
  rw [writeIdata, if_pos hst, State.imemRead]
  dsimp only
  split
  next hcap =>
    rw [read_write, BitVec.ofNat_toNat]
    exact if_congr ⟨fun h => ⟨h.symm, h ▸ hcap⟩, fun h => h.1.symm⟩ rfl rfl
  next hcap =>
    rw [if_neg (by rintro ⟨rfl, h⟩; exact hcap h)]
    rfl

theorem writeIdata_frame (p : Params) (hst : s.st = .reset) : writeIdata p v s =
    { s with iaddr := s.iaddr + 1, imem := (writeIdata p v s).imem } := by
  rw [writeIdata, if_pos hst]

end Access

/-- Settles O50. -/
theorem hostReadsTheRegisterMap : Obligations.HostReadsTheRegisterMap := by
  intro s offset v rest hp hv
  rcases hr : hostRegAt offset with _ | r
  · rw [registerReads_eq_none_iff.mpr hr] at hv
    cases hv
  · rw [registerReads_eq_hostValue hr] at hv
    cases hv
    rw [step_hostRead hp hr, hostRead]
    simp only [eq_odata_iff hr]
    rfl

/-- Settles O51: one register at a time. -/
theorem hostWritesTheRegisterMap : Obligations.HostWritesTheRegisterMap := by
  intro s v rest
  refine ⟨fun hp => ?_, fun hp => step_hostWrite hp (r := .iaddr) rfl (by decide),
    fun hp => step_hostWrite hp (r := .oaddr) rfl (by decide), fun hp hst => ?_, fun hp hst => ?_,
    fun offset hoff hp => ?_⟩
  · rw [step_hostWrite hp (r := .len) rfl (by decide)]
    by_cases hst : s.st = .reset
    · simp [hostWrite, hst]
    · simp [hostWrite, hst]
  · rw [step_hostWrite hp (r := .idata) rfl (by decide), hostWrite, writeIdata, if_neg (by exact hst)]
  · refine ⟨_, step_hostWrite hp (r := .idata) rfl (by decide), writeIdata_frame params (by exact hst), fun k => ?_⟩
    exact writeIdata_imemRead params (by exact hst) k
  · simp only [List.mem_cons, List.not_mem_nil, or_false] at hoff
    rcases hoff with rfl | rfl | rfl | rfl | rfl
    · exact step_hostWrite hp (r := .status) rfl (by decide)
    · exact step_hostWrite hp (r := .einfo) rfl (by decide)
    · exact step_hostWrite hp (r := .olen) rfl (by decide)
    · exact step_hostWrite hp (r := .res) rfl (by decide)
    · exact step_hostWrite hp (r := .odata) rfl (by decide)

/-- Settles O52. -/
theorem hostAccessOffTheMapIsRefused : Obligations.HostAccessOffTheMapIsRefused := by
  intro s offset bits rest hoff hp
  refine step_refused ?_ hp
  rcases hoff with hbits | hoff
  · exact if_neg hbits
  · rw [hostTarget, registerReads_eq_none_iff.mp hoff, ite_self]

end Sys2Proof.Machine
end

section
/-! The Bit Source exactly (`spec/40_bit_source.md`): how many counted bytes it can still deliver, and what a loop of
`PRELOAD` comes to in terms of that number. -/

namespace Sys2Proof.Machine

/-- How many counted bytes the Bit Source can still deliver: the real bytes left, and the phantom ones before the
countdown ends (R111). -/
def deliverable (s : State) : Nat := s.len.toNat - s.coder.rp.toNat + (s.coder.delay.toNat - 1)

section Shifting

variable (v : Word32) (f : Nat → Byte)

theorem shiftedIn_succ (n : Nat) : shiftedIn v f (n + 1) = BitVec.ofNat 32 ((shiftedIn v f n).toNat * 256 + (f n).toNat) :=
  rfl

theorem shiftedIn_add (m n : Nat) : shiftedIn v f (m + n) = shiftedIn (shiftedIn v f m) (fun k => f (m + k)) n := by
  induction n with
  | zero => rfl
  | succ n ih => rw [← Nat.add_assoc, shiftedIn_succ, ih, shiftedIn_succ]

theorem shiftedIn_congr {f g : Nat → Byte} {n : Nat} (h : ∀ k < n, f k = g k) : shiftedIn v f n = shiftedIn v g n := by
  induction n with
  | zero => rfl
  | succ n ih => rw [shiftedIn_succ, shiftedIn_succ, ih fun k hk => h k (by omega), h n (by omega)]

end Shifting

section Pulled

variable {s : State} {c : Coder}

theorem pulled_zero (s : State) (c : Coder) : pulled s c 0 = c := by
  simp [pulled, shiftedIn]

theorem pulled_scount_toNat {n : Nat} (h : c.scount.toNat + 8 * n < 64) :
    (pulled s c n).scount.toNat = c.scount.toNat + 8 * n := by
  rw [pulled]
  exact Nat.mod_eq_of_lt h

theorem pulled_delay_toNat (n : Nat) :
    (pulled s c n).delay.toNat = c.delay.toNat - (n - min n (s.len.toNat - c.rp.toNat)) := by
  rw [pulled]
  exact Nat.mod_eq_of_lt (lt_of_le_of_lt (Nat.sub_le _ _) c.delay.isLt)

variable (hrp : c.rp.toNat ≤ s.len.toNat)
include hrp

theorem pulled_rp_toNat (n : Nat) :
    (pulled s c n).rp.toNat = c.rp.toNat + min n (s.len.toNat - c.rp.toNat) := by
  have hlen := s.len.isLt
  rw [pulled]
  exact Nat.mod_eq_of_lt (by omega)

theorem pulled_rp_le (n : Nat) : (pulled s c n).rp.toNat ≤ s.len.toNat := by
  rw [pulled_rp_toNat hrp]
  omega

/-- Past the end every byte is the phantom one, so the bytes from a position on do not depend on how far past the end
it lies. -/
theorem streamByte_pulled (m k : Nat) :
    streamByte s ((pulled s c m).rp.toNat + k) = streamByte s (c.rp.toNat + (m + k)) := by
  rw [pulled_rp_toNat hrp]
  unfold streamByte
  by_cases hm : m ≤ s.len.toNat - c.rp.toNat
  · rw [Nat.min_eq_left hm, Nat.add_assoc]
  · rw [if_neg (by omega), if_neg (by omega)]

theorem pulled_pulled (m n : Nat) : pulled s (pulled s c m) n = pulled s c (m + n) := by
  have hbuf : shiftedIn (pulled s c m).buf (fun k => streamByte s ((pulled s c m).rp.toNat + k)) n =
      shiftedIn c.buf (fun k => streamByte s (c.rp.toNat + k)) (m + n) := by
    rw [shiftedIn_add]
    exact shiftedIn_congr _ fun k _ => streamByte_pulled hrp m k
  have hscount : BitVec.ofNat 6 ((pulled s c m).scount.toNat + 8 * n) = BitVec.ofNat 6 (c.scount.toNat + 8 * (m + n)) := by
    apply BitVec.eq_of_toNat_eq
    simp only [pulled, BitVec.toNat_ofNat]
    omega
  have hrp' : BitVec.ofNat 32 ((pulled s c m).rp.toNat + min n (s.len.toNat - (pulled s c m).rp.toNat)) =
      BitVec.ofNat 32 (c.rp.toNat + min (m + n) (s.len.toNat - c.rp.toNat)) := by
    rw [pulled_rp_toNat hrp]
    congr 1
    omega
  have hdelay : BitVec.ofNat 8 ((pulled s c m).delay.toNat - (n - min n (s.len.toNat - (pulled s c m).rp.toNat))) =
      BitVec.ofNat 8 (c.delay.toNat - (m + n - min (m + n) (s.len.toNat - c.rp.toNat))) := by
    rw [pulled_delay_toNat, pulled_rp_toNat hrp]
    congr 1
    omega
  rw [pulled, hbuf, hscount, hrp', hdelay]
  rfl

end Pulled

theorem deliverable_pulled {s : State} {n : Nat} (hrp : s.coder.rp.toNat ≤ s.len.toNat) :
    deliverable (s.setCoder (pulled s s.coder n)) = deliverable s - n := by
  unfold deliverable
  rw [setCoder_coder, setCoder_len, pulled_rp_toNat hrp, pulled_delay_toNat]
  omega

section Bytes

variable (p : Params) {s : State}

/-- One byte, real or phantom, as `NEXTBYTE(counted)` and `PRELOAD` shift it in. -/
theorem pulled_one_real (h : s.coder.rp.toNat < s.len.toNat) : s.setCoder (pulled s s.coder 1) =
    shiftInByte (s.imemRead s.coder.rp.toNat) (s.setCoder { s.coder with rp := s.coder.rp + 1 }) := by
  have hmin : min 1 (s.len.toNat - s.coder.rp.toNat) = 1 := by omega
  have hscount : BitVec.ofNat 6 (s.coder.scount.toNat + 8 * 1) = s.coder.scount + 8 := by
    rw [BitVec.ofNat_add, BitVec.ofNat_toNat, BitVec.setWidth_eq]
    rfl
  have hrp : BitVec.ofNat 32 (s.coder.rp.toNat + 1) = s.coder.rp + 1 := by
    rw [BitVec.ofNat_add, BitVec.ofNat_toNat, BitVec.setWidth_eq]
    rfl
  have hdelay : BitVec.ofNat 8 (s.coder.delay.toNat - (1 - 1)) = s.coder.delay := by
    rw [Nat.sub_self, Nat.sub_zero, BitVec.ofNat_toNat, BitVec.setWidth_eq]
  rw [pulled, hmin, hscount, hrp, hdelay, shiftedIn_succ, shiftedIn, Nat.add_zero, streamByte, if_pos h]
  rfl

theorem pulled_one_phantom (h : s.len.toNat ≤ s.coder.rp.toNat) (hdelay : 1 ≤ s.coder.delay.toNat) : s.setCoder (pulled s s.coder 1) =
    shiftInByte 0xFF (s.setCoder { s.coder with delay := s.coder.delay - 1 }) := by
  have hmin : min 1 (s.len.toNat - s.coder.rp.toNat) = 0 := by omega
  have hscount : BitVec.ofNat 6 (s.coder.scount.toNat + 8 * 1) = s.coder.scount + 8 := by
    rw [BitVec.ofNat_add, BitVec.ofNat_toNat, BitVec.setWidth_eq]
    rfl
  have hrp : BitVec.ofNat 32 (s.coder.rp.toNat + 0) = s.coder.rp := by
    rw [Nat.add_zero, BitVec.ofNat_toNat, BitVec.setWidth_eq]
  have hdelay' : BitVec.ofNat 8 (s.coder.delay.toNat - (1 - 0)) = s.coder.delay - 1 := by
    bv_omega
  rw [pulled, hmin, hscount, hrp, hdelay', shiftedIn_succ, shiftedIn, Nat.add_zero, streamByte, if_neg (by omega)]
  rfl

/-- `NEXTBYTE(counted)` and the byte into the lookahead buffer: one byte is pulled, or the countdown ends. -/
theorem nextByte_pulls (hrp : s.coder.rp.toNat ≤ s.len.toNat) :
    (nextByte p true s).All
      (fun b t => shiftInByte b t = s.setCoder (pulled s s.coder 1) ∧ 1 ≤ deliverable s)
      (fun e info t => e = .truncatedStream ∧ info = s.len ∧ t = s.setCoder { s.coder with delay := 0 } ∧
        deliverable s = 0)
      (fun f => f = .indexOutOfSpace .imem ∧ p.inCap.toNat < s.len.toNat) (fun _ => False) := by
  unfold nextByte
  split
  next hreal =>
    split
    next hcap => exact ⟨rfl, by omega⟩
    next => exact ⟨(pulled_one_real hreal).symm, by unfold deliverable; omega⟩
  next hend =>
    rw [if_pos rfl]
    split
    next hlast =>
      have hrp' : s.coder.rp = s.len := BitVec.eq_of_toNat_eq (by omega)
      exact ⟨rfl, hrp', rfl, by unfold deliverable; omega⟩
    next => exact ⟨(pulled_one_phantom (by omega) (by omega)).symm, by unfold deliverable; omega⟩

theorem refillBytes_succ {c : Nat} (h : c ≤ 24) : refillBytes c = refillBytes (c + 8) + 1 := by
  unfold refillBytes
  split <;> split <;> omega

/-- The loop of `PRELOAD` (R112), every way it can end. -/
theorem preloadLoop_all (n : Nat) (hrp : s.coder.rp.toNat ≤ s.len.toNat) :
    (preloadLoop p n s).All
      (fun _ t => t = s.setCoder (pulled s s.coder (min n (refillBytes s.coder.scount.toNat))) ∧
        min n (refillBytes s.coder.scount.toNat) ≤ deliverable s)
      (fun e info t => e = .truncatedStream ∧ info = s.len ∧
        t = s.setCoder { pulled s s.coder (deliverable s) with delay := 0 } ∧
        deliverable s < min n (refillBytes s.coder.scount.toNat))
      (fun f => f = .indexOutOfSpace .imem ∧ p.inCap.toNat < s.len.toNat) (fun _ => False) := by
  induction n generalizing s with
  | zero =>
    refine ⟨?_, by omega⟩
    rw [Nat.zero_min, pulled_zero]
    rfl
  | succ n ih =>
    unfold preloadLoop
    split
    next hlow =>
      have hk := refillBytes_succ hlow
      refine all_bind (all_mono (nextByte_pulls p hrp) (fun b t h => h) ?_ (fun _ h => h) (fun _ h => h)) ?_
      · rintro e info t ⟨rfl, rfl, rfl, hnone⟩
        refine ⟨rfl, rfl, ?_, by omega⟩
        rw [hnone, pulled_zero]
      · rintro b t ⟨hb, hone⟩
        have hleft := deliverable_pulled (n := 1) hrp
        have hscount := pulled_scount_toNat (s := s) (c := s.coder) (n := 1) (by omega)
        have hrest := ih (s := s.setCoder (pulled s s.coder 1)) (pulled_rp_le (n := 1) hrp)
        rw [setCoder_coder, hscount, hleft, Nat.mul_one] at hrest
        rw [hb]
        refine all_mono hrest ?_ ?_ (fun _ h => h) (fun _ h => h)
        · rintro _ t ⟨rfl, hle⟩
          refine ⟨?_, by omega⟩
          rw [show min (n + 1) (refillBytes s.coder.scount.toNat) =
            1 + min n (refillBytes (s.coder.scount.toNat + 8)) by omega, ← pulled_pulled hrp]
          rfl
        · rintro e info t ⟨rfl, rfl, rfl, hlt⟩
          refine ⟨rfl, rfl, ?_, by omega⟩
          conv_rhs => rw [show deliverable s = 1 + (deliverable s - 1) by omega, ← pulled_pulled hrp]
          rfl
    next hhigh =>
      have hk : refillBytes s.coder.scount.toNat = 0 := if_neg hhigh
      refine ⟨?_, by omega⟩
      rw [hk, Nat.min_zero, pulled_zero]
      rfl

theorem refillBytes_le (c : Nat) : refillBytes c ≤ 4 := by
  unfold refillBytes
  split <;> omega

/-- `PRELOAD` (R112): four rounds are enough, so it pulls exactly the bytes that make more than 24 bits valid. -/
theorem preload_all (hrp : s.coder.rp.toNat ≤ s.len.toNat) :
    (preload p s).All
      (fun _ t => t = s.setCoder (pulled s s.coder (refillBytes s.coder.scount.toNat)) ∧
        refillBytes s.coder.scount.toNat ≤ deliverable s)
      (fun e info t => e = .truncatedStream ∧ info = s.len ∧
        t = s.setCoder { pulled s s.coder (deliverable s) with delay := 0 } ∧
        deliverable s < refillBytes s.coder.scount.toNat)
      (fun f => f = .indexOutOfSpace .imem ∧ p.inCap.toNat < s.len.toNat) (fun _ => False) := by
  have h := preloadLoop_all p 4 hrp
  rwa [Nat.min_eq_right (refillBytes_le _)] at h

end Bytes

section Outcomes

variable {α : Type} {r : Res α} {P : α → State → Prop} {R : Err → Word32 → State → Prop} {F : Fault → Prop}
  {U : Refusal → Prop}

/-- An operation none of whose other ends is possible returns. -/
theorem returns_of_all (h : r.All P R F U) (hR : ∀ e i t, ¬ R e i t) (hF : ∀ f, ¬ F f) (hU : ∀ f, ¬ U f) :
    ∃ v t, r = .ok v t ∧ P v t := by
  cases r with
  | ok v t => exact ⟨v, t, rfl, h⟩
  | raise e i t => exact absurd h (hR e i t)
  | stop f => exact absurd h (hF f)
  | refuse f => exact absurd h (hU f)

/-- An operation none of whose other ends is possible raises. -/
theorem raises_of_all (h : r.All P R F U) (hP : ∀ v t, ¬ P v t) (hF : ∀ f, ¬ F f) (hU : ∀ f, ¬ U f) :
    ∃ e i t, r = .raise e i t ∧ R e i t := by
  cases r with
  | ok v t => exact absurd h (hP v t)
  | raise e i t => exact ⟨e, i, t, rfl, h⟩
  | stop f => exact absurd h (hF f)
  | refuse f => exact absurd h (hU f)

end Outcomes

theorem le_deliverable {p : Params} {n : Nat} {s : State} (h : Supplied p n s) : n ≤ deliverable s := by
  obtain ⟨-, -, hn⟩ := h
  unfold deliverable
  omega

theorem preload_supplied (p : Params) {s : State} (h : Supplied p (refillBytes s.coder.scount.toNat) s) :
    preload p s = .ok () (s.setCoder (pulled s s.coder (refillBytes s.coder.scount.toNat))) := by
  have henough := le_deliverable h
  obtain ⟨hrp, hcap, -⟩ := h
  obtain ⟨_, t, hr, rfl, -⟩ := returns_of_all (preload_all p hrp)
    (fun _ _ _ h => by omega) (fun _ h => by omega) (fun _ h => h)
  exact hr

/-- Settles O21. -/
theorem preloadFillsTheLookahead : Obligations.PreloadFillsTheLookahead := by
  intro s hst hs
  rw [exec_accepted (by rw [hst]; rfl) rfl (by rw [hst]; rfl), perform, preload_supplied params hs]
  rfl

/-- Settles O22. -/
theorem preloadPastTheGraceRaises : Obligations.PreloadPastTheGraceRaises := by
  intro s hst hrp hcap hdelay hshort
  have hleft : deliverable s < refillBytes s.coder.scount.toNat := by
    unfold deliverable
    omega
  obtain ⟨e, info, t, hr, rfl, rfl, rfl, -⟩ := raises_of_all (preload_all params hrp)
    (fun _ _ h => by omega) (fun _ h => by omega) (fun _ h => h)
  rw [exec_accepted (by rw [hst]; rfl) rfl (by rw [hst]; rfl), perform, hr]
  rfl

end Sys2Proof.Machine
end

section
/-! `DINIT` exactly (`spec/40_bit_source.md` section 4): two uncounted bytes prime the code, four counted ones fill the
lookahead buffer, and the countdown can grant all four. -/

namespace Sys2Proof.Machine

/-- The coder registers `DINIT` leaves, from the bytes of the stream alone (R114). -/
def primedCoder (s : State) : Coder :=
  { a := 0
    code := BitVec.ofNat 16 ((streamByte s 0).toNat * 256 + (streamByte s 1).toNat)
    fence := BitVec.ofNat 16 (min ((streamByte s 0).toNat * 256 + (streamByte s 1).toNat) 0x7FFF)
    buf := shiftedIn 0 (fun k => streamByte s (2 + k)) 4
    scount := 32
    delay := BitVec.ofNat 8 (25 - (4 - min 4 (s.len.toNat - 2)))
    rp := BitVec.ofNat 32 (min s.len.toNat 6) }

/-- The state `DINIT` leaves (R114). -/
def launched (s : State) : State :=
  { s with st := .ready, olen := 0, ctx := Vector.replicate 300 0, coder := primedCoder s }

/-- `NEXTBYTE(uncounted)` after `k` bytes: byte `k` of the stream, and the read pointer stops at the end (R111). -/
theorem nextByte_uncounted (p : Params) {s : State} {k : Nat} (hcap : s.len.toNat ≤ p.inCap.toNat)
    (hrp : s.coder.rp.toNat = min k s.len.toNat) : nextByte p false s =
      .ok (streamByte s k) (s.setCoder { s.coder with rp := BitVec.ofNat 32 (min (k + 1) s.len.toNat) }) := by
  have hlen := s.len.isLt
  unfold nextByte
  split
  next hreal =>
    have hk : s.coder.rp.toNat = k := by omega
    have hnext : s.coder.rp + 1 = BitVec.ofNat 32 (min (k + 1) s.len.toNat) := by
      rw [← BitVec.toNat_inj, BitVec.toNat_add, BitVec.toNat_ofNat, hk]
      show (k + 1) % _ = _
      omega
    rw [if_neg (by omega), hnext, streamByte, if_pos (by omega), hk]
  next hend =>
    have hnext : s.coder.rp = BitVec.ofNat 32 (min (k + 1) s.len.toNat) := by
      rw [← BitVec.toNat_inj, BitVec.toNat_ofNat, hrp]
      omega
    rw [if_neg Bool.false_ne_true, ← hnext, streamByte, if_neg (by omega)]
    rfl

theorem streamByte_mul_add_lt (s : State) (j k : Nat) : (streamByte s j).toNat * 256 + (streamByte s k).toNat < 2 ^ 16 := by
  have := (streamByte s j).isLt
  have := (streamByte s k).isLt
  omega

/-- The start of a session after `k` of the two priming bytes. -/
def priming (s : State) (k : Nat) : State :=
  (freshSession s).setCoder { (freshSession s).coder with rp := BitVec.ofNat 32 (min k s.len.toNat) }

theorem priming_zero (s : State) : priming s 0 = freshSession s := by
  rw [priming, Nat.zero_min]
  rfl

theorem priming_rp (s : State) (k : Nat) : (priming s k).coder.rp.toNat = min k s.len.toNat :=
  Nat.mod_eq_of_lt (lt_of_le_of_lt (Nat.min_le_right _ _) s.len.isLt)

theorem nextByte_priming {s : State} (hcap : s.len.toNat ≤ params.inCap.toNat) (k : Nat) :
    nextByte params false (priming s k) = .ok (streamByte s k) (priming s (k + 1)) :=
  nextByte_uncounted params hcap (priming_rp s k)

/-- The countdown of 25 bytes grants the four bytes `PRELOAD` pulls, whatever is left of the input. -/
theorem preload_primed {s : State} (hcap : s.len.toNat ≤ params.inCap.toNat) (b0 b1 : Byte) :
    preload params (primed params b0 b1 (priming s 2)) = .ok () ((primed params b0 b1 (priming s 2)).setCoder
      (pulled s (primed params b0 b1 (priming s 2)).coder 4)) := by
  have hrp : (primed params b0 b1 (priming s 2)).coder.rp.toNat = min 2 s.len.toNat := priming_rp s 2
  have hcount : refillBytes (primed params b0 b1 (priming s 2)).coder.scount.toNat = 4 :=
    (by decide : refillBytes (0 : BitVec 6).toNat = 4)
  have hsupplied : Supplied params 4 (primed params b0 b1 (priming s 2)) := by
    refine ⟨?_, hcap, ?_⟩
    · rw [hrp]
      exact Nat.min_le_right _ _
    · show 4 < _ + 25
      omega
  have h := preload_supplied params (hcount ▸ hsupplied)
  rwa [hcount] at h

theorem pulled_primed (s : State) (b0 b1 : Byte) :
    pulled s (primed params b0 b1 (priming s 2)).coder 4 = { primedCoder s with
      code := trunc16 (b0.toNat * 256 + b1.toNat), fence := s.coder.fence } := by
  have hrp : (primed params b0 b1 (priming s 2)).coder.rp.toNat = min 2 s.len.toNat := priming_rp s 2
  have hreal : min 4 (s.len.toNat - min 2 s.len.toNat) = min 4 (s.len.toNat - 2) := by omega
  have hrp' : min 2 s.len.toNat + min 4 (s.len.toNat - 2) = min s.len.toNat 6 := by omega
  have hbuf : shiftedIn 0 (fun k => streamByte s (min 2 s.len.toNat + k)) 4 =
      shiftedIn 0 (fun k => streamByte s (2 + k)) 4 := by
    refine shiftedIn_congr _ fun k _ => ?_
    unfold streamByte
    by_cases h : 2 ≤ s.len.toNat
    · rw [Nat.min_eq_left h]
    · rw [if_neg (by omega), if_neg (by omega)]
  unfold pulled primedCoder
  dsimp only
  rw [hrp, hreal, hrp', ← hbuf]
  rfl

theorem dinit_eq {s : State} (hcap : s.len.toNat ≤ params.inCap.toNat) : dinit params s = .ok () (launched s) := by
  have hcode := Nat.mod_eq_of_lt (streamByte_mul_add_lt s 0 1)
  rw [dinit, if_neg (Nat.not_lt.mpr hcap), ← priming_zero, nextByte_priming hcap, bind_ok, nextByte_priming hcap,
    bind_ok, preload_primed hcap, bind_ok, pulled_primed]
  unfold setFence trunc16
  dsimp only [setCoder_coder]
  rw [BitVec.toNat_ofNat, hcode]
  rfl

/-- Settles O19. -/
theorem dinitPrimesTheCoder : Obligations.DinitPrimesTheCoder := by
  intro s hst hcap
  rw [exec_accepted (by rw [hst]; rfl) rfl (by rw [hst]; rfl), perform, dinit_eq hcap]
  rfl

end Sys2Proof.Machine
end

section
/-! The decisions of the arithmetic decoder (`spec/41_zp_decoder.md`): each is a shift of the coder by the bits it
consumes and a refill, so its registers, the bits it takes, and the invariants of R32 are read off these two. -/

namespace Sys2Proof.Machine

/-- The bits the lookahead buffer holds and the Bit Source can still deliver. -/
def bitsLeft (s : State) : Nat := 8 * deliverable s + s.coder.scount.toNat

theorem bitsConsumed_eq {s t : State} (hs : CoderInv s) (ht : CoderInv t) (hlen : t.len = s.len) :
    bitsConsumed s t = (bitsLeft s : Int) - bitsLeft t := by
  obtain ⟨-, -, -, -, hrps, hds⟩ := hs
  obtain ⟨-, -, -, -, hrpt, hdt⟩ := ht
  rw [hlen] at hrpt
  unfold bitsConsumed bitsLeft deliverable
  rw [hlen]
  omega

section Scan

/-- The entries of `FFZT` (R167), by the size of their index. -/
theorem ffzt_spec : ∀ b : Byte, ffzt b ≤ 8 ∧ 256 ≤ b.toNat + 2 ^ (8 - ffzt b) ∧
    (ffzt b < 8 → b.toNat + 2 ^ (7 - ffzt b) < 256) := by decide

variable (x : Word16)

theorem leadingOnes_le : leadingOnes x ≤ 16 := by
  rw [← ffz_eq_leadingOnes, ffz]
  have hhigh := (ffzt_spec (x.extractLsb' 8 8)).1
  have hlow := (ffzt_spec (x.extractLsb' 0 8)).1
  split <;> omega

/-- A value with `n` leading ones lies in the upper `2^(16-n)` values, and below its upper half of those. -/
theorem leadingOnes_bounds : 2 ^ 16 ≤ x.toNat + 2 ^ (16 - leadingOnes x) ∧
    (leadingOnes x < 16 → x.toNat + 2 ^ (15 - leadingOnes x) < 2 ^ 16) := by
  have hhighByte : (x.extractLsb' 8 8).toNat = x.toNat / 256 := by
    rw [BitVec.extractLsb'_toNat, Nat.shiftRight_eq_div_pow]
    omega
  have hlowByte : (x.extractLsb' 0 8).toNat = x.toNat % 256 := by
    rw [BitVec.extractLsb'_toNat, Nat.shiftRight_zero]
  have hx := x.isLt
  rw [← ffz_eq_leadingOnes, ffz]
  split
  next hsat =>
    obtain ⟨hle, hlo, hhi⟩ := ffzt_spec (x.extractLsb' 0 8)
    rw [hlowByte] at hlo hhi
    generalize ffzt (x.extractLsb' 0 8) = n at *
    rw [show 16 - (n + 8) = 8 - n by omega, show 15 - (n + 8) = 7 - n by omega]
    omega
  next hsat =>
    obtain ⟨hle, hlo, hhi⟩ := ffzt_spec (x.extractLsb' 8 8)
    rw [hhighByte] at hlo hhi
    generalize ffzt (x.extractLsb' 8 8) = n at *
    have hn : n < 8 := by
      by_contra hn
      rw [show n = 8 by omega] at hlo
      omega
    rw [show 16 - n = 8 - n + 8 by omega, show 15 - n = 7 - n + 8 by omega, Nat.pow_add, Nat.pow_add]
    have := hhi hn
    omega

/-- Shifting out the leading ones leaves a number below 0x8000. -/
theorem shifted_leadingOnes_lt : x.toNat * 2 ^ leadingOnes x % 2 ^ 16 < 0x8000 := by
  obtain ⟨hlo, hhi⟩ := leadingOnes_bounds x
  have hle := leadingOnes_le x
  have hx := x.isLt
  generalize leadingOnes x = n at *
  interval_cases n <;> omega

theorem one_le_leadingOnes (h : 0x8000 ≤ x.toNat) : 1 ≤ leadingOnes x := by
  obtain ⟨-, hhi⟩ := leadingOnes_bounds x
  by_contra hn
  rw [show leadingOnes x = 0 by omega] at hhi
  have := hhi (by decide)
  omega

end Scan

section Renormalisation

variable {s : State}

theorem shiftCoder_eq (a1 c1 n : Nat) (s : State) : shiftCoder a1 c1 n s = s.setCoder (shifted s.coder a1 c1 n) := by
  have hcode : trunc16 (c1 * 2 ^ n) ||| trunc16 (lookaheadBits s.coder.buf (s.coder.scount.toNat - n) n) =
      BitVec.ofNat 16 (c1 * 2 ^ n + s.coder.buf.toNat / 2 ^ (s.coder.scount.toNat - n) % 2 ^ n) := by
    rw [trunc16, trunc16, ← BitVec.ofNat_or, ← Nat.shiftLeft_eq, Nat.shiftLeft_add_eq_or_of_lt]
    · rfl
    · exact Nat.mod_lt _ (Nat.two_pow_pos n)
  rw [shiftCoder, hcode]
  rfl

/-- How many bytes the refill at the end of a renormalisation pulls (R113). -/
def settleBytes (c : Coder) : Nat := if c.scount.toNat < 16 then refillBytes c.scount.toNat else 0

theorem settled_eq (s : State) (c : Coder) : settled s c =
    { pulled s c (settleBytes c) with fence := BitVec.ofNat 16 (min c.code.toNat 0x7FFF) } := by
  unfold settled settleBytes
  split
  · rfl
  · rw [pulled_zero]

/-- The end of a renormalisation (R113, R132, R134), every way it can end. -/
theorem refill_all (p : Params) (hrp : s.coder.rp.toNat ≤ s.len.toNat) :
    (refill p s).All
      (fun _ t => t = s.setCoder (settled s s.coder) ∧ settleBytes s.coder ≤ deliverable s)
      (fun e info t => RaisesTruncated s e info t ∧ t.coder.rp = s.len ∧ deliverable s < settleBytes s.coder)
      (fun f => f = .indexOutOfSpace .imem ∧ p.inCap.toNat < s.len.toNat) (fun _ => False) := by
  rw [refill, settled_eq]
  unfold settleBytes
  split
  next hlow =>
    refine all_bind (all_mono (preload_all p hrp) (fun _ _ h => h) ?_ (fun _ h => h) (fun _ h => h)) ?_
    · rintro e info t ⟨rfl, rfl, rfl, hlt⟩
      have hbytes : deliverable s < 4 := lt_of_lt_of_le hlt (refillBytes_le _)
      have hend : (pulled s s.coder (deliverable s)).rp = s.len := by
        apply BitVec.eq_of_toNat_eq
        rw [pulled_rp_toNat hrp]
        unfold deliverable
        omega
      exact ⟨⟨rfl, hend.symm, le_of_eq (congrArg BitVec.toNat hend.symm), rfl, coderFrame_setCoder _ _⟩, hend, hlt⟩
    · rintro _ t ⟨rfl, hle⟩
      exact ⟨rfl, hle⟩
  next hhigh =>
    rw [pulled_zero]
    exact ⟨rfl, Nat.zero_le _⟩

theorem deliverable_settled {s : State} {c : Coder} (hrp : c.rp.toNat ≤ s.len.toNat) :
    deliverable (s.setCoder (settled s c)) = deliverable (s.setCoder c) - settleBytes c := by
  rw [settled_eq]
  exact deliverable_pulled (s := s.setCoder c) hrp

/-- A refill leaves 16 to 32 valid bits. -/
theorem settleBytes_bounds (c : Coder) (h : c.scount.toNat ≤ 32) :
    16 ≤ c.scount.toNat + 8 * settleBytes c ∧ c.scount.toNat + 8 * settleBytes c ≤ 32 := by
  unfold settleBytes refillBytes
  split
  next => rw [if_pos (by omega)]; omega
  next => omega

theorem settled_scount_toNat (s : State) {c : Coder} (h : c.scount.toNat ≤ 32) :
    (settled s c).scount.toNat = c.scount.toNat + 8 * settleBytes c := by
  have hb := settleBytes_bounds c h
  rw [settled_eq]
  exact pulled_scount_toNat (s := s) (by omega)

theorem bitsLeft_settled {c : Coder} (hrp : c.rp.toNat ≤ s.len.toNat) (hcount : c.scount.toNat ≤ 32)
    (hle : settleBytes c ≤ deliverable (s.setCoder c)) :
    bitsLeft (s.setCoder (settled s c)) = bitsLeft (s.setCoder c) := by
  rw [bitsLeft, deliverable_settled hrp, bitsLeft, setCoder_coder, settled_scount_toNat s hcount, setCoder_coder]
  omega

/-- A refill that completes restores the invariants of R32. -/
theorem settled_coderInv {c : Coder} (ha : c.a.toNat < 0x8000) (hcount : c.scount.toNat ≤ 32)
    (hrp : c.rp.toNat ≤ s.len.toNat) (hdelay : 1 ≤ c.delay.toNat)
    (hle : settleBytes c ≤ deliverable (s.setCoder c)) : CoderInv (s.setCoder (settled s c)) := by
  have hb := settleBytes_bounds c hcount
  have hscount := settled_scount_toNat s hcount
  have hdelay' : 1 ≤ (pulled s c (settleBytes c)).delay.toNat := by
    rw [pulled_delay_toNat]
    unfold deliverable at hle
    dsimp only [setCoder_coder, setCoder_len] at hle
    omega
  dsimp only [CoderInv, setCoder_coder, setCoder_len]
  rw [hscount, settled_eq]
  refine ⟨ha, ?_, hb.1, hb.2, pulled_rp_le hrp _, hdelay'⟩
  exact Nat.mod_eq_of_lt (by omega)

/-- The state a renormalisation by `n` bits that completes leaves. -/
def renormed (s : State) (a1 c1 n : Nat) : State := s.setCoder (settled s (shifted s.coder a1 c1 n))

theorem coderFrame_renormed (s : State) (a1 c1 n : Nat) : CoderFrame s (renormed s a1 c1 n) := coderFrame_setCoder _ _

/-- Why a shift by `n` bits ends in `TruncatedStream`: it leaves too few valid bits and the refill too few bytes. -/
def RunsShort (s : State) (n : Nat) : Prop :=
  s.coder.scount.toNat < 16 + n ∧ bitsLeft s < 32 + n ∧ (n ≤ 2 → deliverable s < 2)

variable (h : CoderInv s) {n : Nat} (hn : n ≤ 16)
include h hn

theorem shifted_scount_toNat (a1 c1 : Nat) : (shifted s.coder a1 c1 n).scount.toNat = s.coder.scount.toNat - n := by
  obtain ⟨-, -, hlow, hhigh, -, -⟩ := h
  exact Nat.mod_eq_of_lt (by omega)

/-- A shift by `n` bits and its refill. -/
theorem refill_shiftCoder_all (p : Params) (a1 c1 : Nat) :
    (refill p (shiftCoder a1 c1 n s)).All
      (fun _ t => t = renormed s a1 c1 n ∧ settleBytes (shifted s.coder a1 c1 n) ≤ deliverable s)
      (fun e info t => RaisesTruncated s e info t ∧ t.coder.rp = t.len ∧ RunsShort s n)
      (fun f => f = .indexOutOfSpace .imem ∧ p.inCap.toNat < s.len.toNat) (fun _ => False) := by
  have hscount := shifted_scount_toNat h hn a1 c1
  obtain ⟨-, -, hlow, hhigh, hrp, -⟩ := h
  rw [shiftCoder_eq]
  refine all_mono (refill_all p (s := s.setCoder (shifted s.coder a1 c1 n)) hrp) (fun _ t ht => ht) ?_
    (fun _ h => h) (fun _ h => h)
  rintro e info t ⟨⟨he, hinfo, hend, hdelay, hframe⟩, hrpt, hshort⟩
  have hlen : t.len = s.len := coderFrame_len hframe
  have hshort : deliverable s < settleBytes (shifted s.coder a1 c1 n) := hshort
  refine ⟨⟨he, hinfo, hend, hdelay, coderFrame_trans (coderFrame_setCoder _ _) hframe⟩, hlen ▸ hrpt, ?_⟩
  unfold settleBytes refillBytes at hshort
  rw [hscount] at hshort
  unfold RunsShort bitsLeft
  split at hshort
  next =>
    rw [if_pos (by omega)] at hshort
    omega
  next => omega

variable {a1 c1 : Nat} (hle : settleBytes (shifted s.coder a1 c1 n) ≤ deliverable s)
include hle

theorem bitsLeft_renormed : bitsLeft (renormed s a1 c1 n) + n = bitsLeft s := by
  have hscount := shifted_scount_toNat h hn a1 c1
  obtain ⟨-, -, hlow, hhigh, hrp, -⟩ := h
  rw [renormed, bitsLeft_settled (c := shifted s.coder a1 c1 n) hrp (by omega) hle, bitsLeft, setCoder_coder, hscount]
  show 8 * deliverable s + _ + n = 8 * deliverable s + _
  omega

theorem renormed_coderInv (ha : a1 * 2 ^ n % 2 ^ 16 < 0x8000) : CoderInv (renormed s a1 c1 n) := by
  have hscount := shifted_scount_toNat h hn a1 c1
  obtain ⟨-, -, hlow, hhigh, hrp, hdelay⟩ := h
  refine settled_coderInv ?_ (by omega) hrp hdelay hle
  exact (BitVec.toNat_ofNat _ _).trans_lt ha

end Renormalisation

section Operations

/-- An operation of the coder begun in a session state `s`: where it returns it has changed the coder and the contexts
only, kept the invariants of R32 and given no bit back, and `P` holds; where it raises, the input has ended and
`Short` holds; it stops only on an input longer than the input memory. -/
def StreamOp {α : Type} (p : Params) (s : State) (r : Res α) (P : α → State → Prop) (Short : Prop) : Prop :=
  r.All (fun v t => CoderFrame s t ∧ CoderInv t ∧ bitsLeft t ≤ bitsLeft s ∧ P v t)
    (fun e info t => RaisesTruncated s e info t ∧ t.coder.rp = t.len ∧ Short)
    (fun f => f = .indexOutOfSpace .imem ∧ p.inCap.toNat < s.len.toNat) (fun _ => False)

variable {α β : Type} {p : Params} {s : State} {Short Short' : Prop}

theorem streamOp_ok {P : α → State → Prop} {v : α} (hs : CoderInv s) (hv : P v s) : StreamOp p s (.ok v s) P Short :=
  ⟨coderFrame_refl s, hs, le_refl _, hv⟩

theorem streamOp_mono {r : Res α} {P Q : α → State → Prop} (h : StreamOp p s r P Short)
    (hPQ : ∀ v t, CoderFrame s t → CoderInv t → bitsLeft t ≤ bitsLeft s → P v t → Q v t) (hShort : Short → Short') :
    StreamOp p s r Q Short' :=
  all_mono h (fun v t ⟨hf, hi, hb, hp⟩ => ⟨hf, hi, hb, hPQ v t hf hi hb hp⟩)
    (fun _ _ _ ⟨hr, he, hs⟩ => ⟨hr, he, hShort hs⟩) (fun _ h => h) (fun _ h => h)

theorem raisesTruncated_after {t u : State} {e : Err} {info : Word32} (h : CoderFrame s t)
    (hr : RaisesTruncated t e info u) : RaisesTruncated s e info u := by
  obtain ⟨he, hinfo, hend, hdelay, hframe⟩ := hr
  exact ⟨he, hinfo, hend, hdelay, coderFrame_trans h hframe⟩

/-- `call` of an operation of the coder. -/
theorem streamOp_bind {r : Res α} {k : α → State → Res β} {P : α → State → Prop} {Q : β → State → Prop}
    (h : StreamOp p s r P Short)
    (hk : ∀ v t, CoderFrame s t → CoderInv t → bitsLeft t ≤ bitsLeft s → P v t → StreamOp p t (k v t) Q Short) :
    StreamOp p s (r.bind k) Q Short :=
  all_bind h fun v t ⟨hf, hi, hb, hp⟩ => all_mono (hk v t hf hi hb hp)
    (fun _ _ ⟨hf', hi', hb', hq⟩ => ⟨coderFrame_trans hf hf', hi', le_trans hb' hb, hq⟩)
    (fun _ _ _ ⟨hr, he, hs⟩ => ⟨raisesTruncated_after hf hr, he, hs⟩)
    (fun _ ⟨hf', hcap⟩ => ⟨hf', coderFrame_len hf ▸ hcap⟩) (fun _ h => h)

/-- An operation begun after a change of the coder and the contexts that left the bits as they are. -/
theorem streamOp_after {t : State} {r : Res α} {P : α → State → Prop} (hf : CoderFrame s t)
    (hbits : bitsLeft t = bitsLeft s) (h : StreamOp p t r P Short) : StreamOp p s r P Short :=
  all_mono h (fun _ _ ⟨hf', hi, hb, hp⟩ => ⟨coderFrame_trans hf hf', hi, hbits ▸ hb, hp⟩)
    (fun _ _ _ ⟨hr, he, hs⟩ => ⟨raisesTruncated_after hf hr, he, hs⟩)
    (fun _ ⟨hf', hcap⟩ => ⟨hf', coderFrame_len hf ▸ hcap⟩) (fun _ h => h)

/-- An operation that is not short of input, on an input that fits the input memory, returns. -/
theorem streamOp_returns {r : Res α} {P : α → State → Prop} (h : StreamOp p s r P Short)
    (hcap : s.len.toNat ≤ p.inCap.toNat) (henough : ¬ Short) : ∃ v t, r = .ok v t ∧ CoderFrame s t ∧ CoderInv t ∧
      bitsLeft t ≤ bitsLeft s ∧ P v t :=
  returns_of_all h (fun _ _ _ h => henough h.2.2) (fun _ h => Nat.not_lt.mpr hcap h.2) (fun _ h => h)

variable (p)

theorem refill_shiftCoder_streamOp (h : CoderInv s) {a1 c1 n : Nat} (hn : n ≤ 16)
    (ha : a1 * 2 ^ n % 2 ^ 16 < 0x8000) : StreamOp p s (refill p (shiftCoder a1 c1 n s))
      (fun _ t => t = renormed s a1 c1 n ∧ bitsLeft t + n = bitsLeft s) (RunsShort s n) := by
  refine all_mono (refill_shiftCoder_all h hn p a1 c1) ?_ (fun _ _ _ h => h) (fun _ h => h) (fun _ h => h)
  rintro _ t ⟨rfl, hle⟩
  have hbits := bitsLeft_renormed h hn hle
  exact ⟨coderFrame_renormed _ _ _ _, renormed_coderInv h hn hle ha, by omega, rfl, hbits⟩

/-- The bits `RENORM_LPS(z)` shifts out (R132). -/
def lpsShift (s : State) (z : Nat) : Nat := leadingOnes (BitVec.ofNat 16 (s.coder.a.toNat + (0x10000 - z)))

/-- The state `RENORM_LPS(z)` leaves (R132). -/
def lpsState (s : State) (z : Nat) : State :=
  renormed s (s.coder.a.toNat + (0x10000 - z)) (s.coder.code.toNat + (0x10000 - z)) (lpsShift s z)

/-- The state `RENORM_MPS(z)` leaves (R134). -/
def mpsState (s : State) (z : Nat) : State := renormed s z s.coder.code.toNat 1

theorem lpsShift_le (s : State) (z : Nat) : lpsShift s z ≤ 16 := leadingOnes_le _

/-- `RENORM_LPS` (R132), every way it can end. -/
theorem renormLps_streamOp (h : CoderInv s) {z : Nat} (haz : s.coder.a.toNat < z) (hz : z ≤ 0x10000) :
    StreamOp p s (renormLps p z s) (fun _ t => t = lpsState s z ∧ bitsLeft t + lpsShift s z = bitsLeft s)
      (RunsShort s (lpsShift s z)) := by
  have hsmall := shifted_leadingOnes_lt (BitVec.ofNat 16 (s.coder.a.toNat + (0x10000 - z)))
  rw [BitVec.toNat_ofNat, Nat.mod_eq_of_lt (by omega : s.coder.a.toNat + (0x10000 - z) < 2 ^ 16)] at hsmall
  rw [renormLps, ffz_eq_leadingOnes]
  exact refill_shiftCoder_streamOp p h (lpsShift_le s z) hsmall

/-- `RENORM_MPS` (R134), every way it can end. -/
theorem renormMps_streamOp (h : CoderInv s) {z : Nat} (hlow : 0x8000 ≤ z) (hhigh : z < 0xC000) :
    StreamOp p s (renormMps p z s) (fun _ t => t = mpsState s z ∧ bitsLeft t + 1 = bitsLeft s) (RunsShort s 1) :=
  refill_shiftCoder_streamOp p h (by decide) (by omega)

section Raw

/-- The split of the interval of a raw decision (R139). -/
def rawSplit (s : State) : Nat := 0x8000 + s.coder.a.toNat / 2

/-- The interval a raw decision of bit 1 renormalises has one leading one, or two when `a` is at its greatest. -/
theorem lpsShift_rawSplit (ha : s.coder.a.toNat < 0x8000) :
    lpsShift s (rawSplit s) = if s.coder.a.toNat = 0x7FFF then 2 else 1 := by
  obtain ⟨hlo, hhi⟩ := leadingOnes_bounds (BitVec.ofNat 16 (s.coder.a.toNat + (0x10000 - rawSplit s)))
  have hle := lpsShift_le s (rawSplit s)
  rw [BitVec.toNat_ofNat] at hlo hhi
  change 2 ^ 16 ≤ _ + 2 ^ (16 - lpsShift s (rawSplit s)) at hlo
  change lpsShift s (rawSplit s) < 16 → _ + 2 ^ (15 - lpsShift s (rawSplit s)) < _ at hhi
  generalize lpsShift s (rawSplit s) = n at *
  unfold rawSplit at *
  split <;> interval_cases n <;> omega

/-- What a raw decision that returns the bit `b` leaves, and the bits it takes (R139, R144). -/
def RawDecision (s : State) (b : Bool) (t : State) : Prop :=
  if b then s.coder.code.toNat < rawSplit s ∧ t = lpsState s (rawSplit s) ∧
    bitsLeft t + (if s.coder.a.toNat = 0x7FFF then 2 else 1) = bitsLeft s
  else rawSplit s ≤ s.coder.code.toNat ∧ t = mpsState s (rawSplit s) ∧ bitsLeft t + 1 = bitsLeft s

/-- Why a raw decision runs short of input. -/
def RawShort (s : State) : Prop := RunsShort s 1 ∨ (s.coder.a.toNat = 0x7FFF ∧ RunsShort s 2)

/-- `ZPRAW` (R139), every way it can end. -/
theorem zpraw_streamOp (h : CoderInv s) : StreamOp p s (zpraw p s) (RawDecision s) (RawShort s) := by
  obtain ⟨ha, -⟩ := id h
  have hshift := lpsShift_rawSplit ha
  unfold zpraw
  dsimp only
  split
  next hlps =>
    refine streamOp_bind (streamOp_mono (renormLps_streamOp p h (z := rawSplit s) ?_ ?_) (fun _ _ _ _ _ h => h) ?_) ?_
    · unfold rawSplit; omega
    · unfold rawSplit; omega
    · rw [hshift]
      split
      next hmax => exact fun hs => .inr ⟨hmax, hs⟩
      next => exact .inl
    · rintro _ t - hinv - ⟨ht, hbits⟩
      exact streamOp_ok hinv ⟨hlps, ht, hshift ▸ hbits⟩
  next hmps =>
    refine streamOp_bind (streamOp_mono (renormMps_streamOp p h (z := rawSplit s) ?_ ?_) (fun _ _ _ _ _ h => h) .inl) ?_
    · unfold rawSplit; omega
    · unfold rawSplit; omega
    · rintro _ t - hinv - ⟨ht, hbits⟩
      exact streamOp_ok hinv ⟨Nat.le_of_not_lt hmps, ht, hbits⟩

end Raw

section Context

variable (c : Nat)

/-- The split of the interval of a context decision before the clamp (R135). -/
def ctxSplit (s : State) : Nat := s.coder.a.toNat + p.zptab.p (tableGet s.ctx c)

/-- The state with the context moved up if the decision adapts it (R138). -/
def raisedCtx (s : State) : State :=
  if mpsAdapts p s.coder.a.toNat (tableGet s.ctx c) then s.setCtx c (p.zptab.up (tableGet s.ctx c)) else s

/-- What a context decision that returns the bit `b` leaves, and the bits it takes (R135 to R138, R144). -/
inductive CtxDecision (s : State) : Bool → State → Prop where
  | fast (hfence : ctxSplit p c s ≤ s.coder.fence.toNat) :
      CtxDecision s (mpsOf (tableGet s.ctx c)) (s.setCoder { s.coder with a := trunc16 (ctxSplit p c s) })
  | lps {t : State} (hfence : s.coder.fence.toNat < ctxSplit p c s)
      (hcode : s.coder.code.toNat < clamp s.coder.a.toNat (ctxSplit p c s))
      (ht : t = lpsState (s.setCtx c (p.zptab.dn (tableGet s.ctx c))) (clamp s.coder.a.toNat (ctxSplit p c s)))
      (hbits : bitsLeft t + lpsShift s (clamp s.coder.a.toNat (ctxSplit p c s)) = bitsLeft s)
      (hpos : 1 ≤ lpsShift s (clamp s.coder.a.toNat (ctxSplit p c s))) :
      CtxDecision s (!mpsOf (tableGet s.ctx c)) t
  | mps {t : State} (hfence : s.coder.fence.toNat < ctxSplit p c s)
      (hcode : clamp s.coder.a.toNat (ctxSplit p c s) ≤ s.coder.code.toNat)
      (ht : t = mpsState (raisedCtx p c s) (clamp s.coder.a.toNat (ctxSplit p c s)))
      (hbits : bitsLeft t + 1 = bitsLeft s) :
      CtxDecision s (mpsOf (tableGet s.ctx c)) t

theorem ctxSplit_bounds (s : State) :
    s.coder.a.toNat < ctxSplit p c s ∧ ctxSplit p c s ≤ s.coder.a.toNat + 0x8000 := by
  have hle : p.zptab.p (tableGet s.ctx c) ≤ 0x8000 := (p.zptab.pPred _).isLt
  have hpos : 1 ≤ p.zptab.p (tableGet s.ctx c) := Nat.succ_pos _
  unfold ctxSplit
  omega

/-- The clamped split lies above `a`, by at most half the range, and below 0xC000 (R136). -/
theorem clamp_bounds (ha : s.coder.a.toNat < 0x8000) :
    s.coder.a.toNat < clamp s.coder.a.toNat (ctxSplit p c s) ∧
      clamp s.coder.a.toNat (ctxSplit p c s) ≤ s.coder.a.toNat + 0x8000 ∧
      clamp s.coder.a.toNat (ctxSplit p c s) < 0xC000 := by
  have hsplit := ctxSplit_bounds p c s
  unfold clamp CLAMPBASE
  omega

/-- On the slow path the clamped split of a decision for the more probable symbol is in the upper half (R134). -/
theorem le_clamp (h : CoderInv s) (hfence : s.coder.fence.toNat < ctxSplit p c s)
    (hcode : clamp s.coder.a.toNat (ctxSplit p c s) ≤ s.coder.code.toNat) :
    0x8000 ≤ clamp s.coder.a.toNat (ctxSplit p c s) := by
  obtain ⟨-, hfenceEq, -⟩ := h
  unfold clamp CLAMPBASE at *
  omega

theorem lpsShift_pos (ha : s.coder.a.toNat < 0x8000) :
    1 ≤ lpsShift s (clamp s.coder.a.toNat (ctxSplit p c s)) := by
  have hz := clamp_bounds p c ha
  refine one_le_leadingOnes _ ?_
  rw [BitVec.toNat_ofNat]
  omega

/-- The low end of the bits left at which a context decision may run short of input. -/
theorem bitsLeft_of_runsShort {n : Nat} (hn : n ≤ 16) (h : RunsShort s n) : bitsLeft s < 48 := by
  obtain ⟨-, hbits, -⟩ := h
  omega

/-- `ZPCTX` (R135), every way it can end. -/
theorem zpctx_streamOp (h : CoderInv s) : StreamOp p s (zpctx p c s) (CtxDecision p c s) (bitsLeft s < 48) := by
  obtain ⟨ha, hfenceEq, hlow, hhigh, hrp, hdelay⟩ := id h
  have hz := clamp_bounds p c ha
  unfold zpctx
  dsimp only
  split
  next hfence =>
    have hsmall : (trunc16 (ctxSplit p c s)).toNat < 0x8000 := by
      have : ctxSplit p c s ≤ s.coder.fence.toNat := hfence
      rw [trunc16, BitVec.toNat_ofNat]
      omega
    exact ⟨coderFrame_setCoder _ _, ⟨hsmall, hfenceEq, hlow, hhigh, hrp, hdelay⟩, le_refl _, .fast hfence⟩
  next hfence =>
    have hfence : s.coder.fence.toNat < ctxSplit p c s := Nat.lt_of_not_le hfence
    unfold zpsub
    dsimp only
    split
    next hcode =>
      have hop := renormLps_streamOp p (s := s.setCtx c (p.zptab.dn (tableGet s.ctx c))) h hz.1 (by omega)
      refine streamOp_after (coderFrame_setCtx _ _ _) rfl (streamOp_bind
        (streamOp_mono hop (fun _ _ _ _ _ h => h) (bitsLeft_of_runsShort (lpsShift_le s _))) ?_)
      rintro _ t - hinv - ⟨ht, hbits⟩
      exact streamOp_ok hinv (.lps hfence hcode ht hbits (lpsShift_pos p c ha))
    next hcode =>
      have hcode := Nat.le_of_not_lt hcode
      have hraised : CoderFrame s (raisedCtx p c s) ∧ (raisedCtx p c s).coder = s.coder := by
        unfold raisedCtx
        split
        · exact ⟨coderFrame_setCtx _ _ _, rfl⟩
        · exact ⟨coderFrame_refl _, rfl⟩
      obtain ⟨hframe, hcoder⟩ := hraised
      have hlen := coderFrame_len hframe
      have hbitsEq : bitsLeft (raisedCtx p c s) = bitsLeft s := by
        unfold bitsLeft deliverable
        rw [hcoder, hlen]
      have hinv' : CoderInv (raisedCtx p c s) := by
        unfold CoderInv
        rw [hcoder, hlen]
        exact h
      have hop := renormMps_streamOp p hinv' (le_clamp p c h hfence hcode) hz.2.2
      refine streamOp_after hframe hbitsEq (streamOp_bind
        (streamOp_mono hop (fun _ _ _ _ _ h => h)
          fun hs => hbitsEq ▸ bitsLeft_of_runsShort (by decide) hs) ?_)
      rintro _ t - hinv - ⟨ht, hbits⟩
      exact streamOp_ok hinv (.mps hfence hcode ht (hbitsEq ▸ hbits))

end Context

end Operations

/-! ### The statements about one decision -/

theorem exec_ready {i : Instr} {s : State} (hst : s.st = .ready) (hwf : i.wf = true)
    (hlegal : legalIn i .ready = true) : exec i s = finish (perform i s) :=
  exec_accepted (by rw [hst]; rfl) hwf (by rw [hst]; exact hlegal)

theorem wf_zpctx {c : BitVec 9} (hc : c.toNat ≤ 299) : (Instr.zpctx c).wf = true :=
  decide_eq_true (Nat.lt_succ_of_le hc)

/-- Two more bytes are enough for a raw decision. -/
theorem not_rawShort {p : Params} {s : State} (hs : Supplied p 2 s) : ¬ RawShort s := by
  have henough := le_deliverable hs
  rintro (⟨-, -, hshort⟩ | ⟨-, -, -, hshort⟩) <;> have := hshort (by decide) <;> omega

/-- Four more bytes are enough for a context decision. -/
theorem not_ctxShort {p : Params} {s : State} (h : CoderInv s) (hs : Supplied p 4 s) : ¬ bitsLeft s < 48 := by
  have henough := le_deliverable hs
  obtain ⟨-, -, hlow, -⟩ := h
  unfold bitsLeft
  omega

/-- Settles O25. -/
theorem zprawDecodesOneRawBit : Obligations.ZprawDecodesOneRawBit := by
  intro s hst hinv hs
  dsimp only
  obtain ⟨b, t, hr, -, -, -, hb⟩ := streamOp_returns (zpraw_streamOp params hinv) hs.2.1 (not_rawShort hs)
  rw [exec_ready hst rfl rfl, perform, hr]
  cases b with
  | true =>
    obtain ⟨hcode, rfl, -⟩ := hb
    exact (if_pos hcode).symm
  | false =>
    obtain ⟨hcode, rfl, -⟩ := hb
    exact (if_neg (Nat.not_lt.mpr hcode)).symm

/-- The bit as the value of `res`. -/
theorem storeRes_bit (b : Bool) (t : State) :
    finish (storeRes (bitValue (.ok b t))) = .next { t with res := if b then 1 else 0 } := by
  cases b <;> rfl

/-- Settles O26. -/
theorem zpctxFastPathMovesOnlyA : Obligations.ZpctxFastPathMovesOnlyA := by
  intro c s hc hst hfence
  have hr : zpctx params c.toNat s = _ := if_pos hfence
  rw [exec_ready hst (wf_zpctx hc) rfl, perform, hr, storeRes_bit]
  rfl

/-- Settles O27. -/
theorem zpctxLessProbableSymbol : Obligations.ZpctxLessProbableSymbol := by
  intro c s hc hst hinv hs q z0 z a1 c1 hfence hcode
  obtain ⟨b, t, hr, -, -, -, hb⟩ := streamOp_returns (zpctx_streamOp params c.toNat hinv) hs.2.1 (not_ctxShort hinv hs)
  rw [exec_ready hst (wf_zpctx hc) rfl, perform, hr, storeRes_bit]
  cases hb with
  | fast hfast => exact absurd hfast (Nat.not_le.mpr hfence)
  | mps _ hmps => exact absurd hmps (Nat.not_le.mpr hcode)
  | lps _ _ ht =>
    subst ht
    unfold mpsOf
    cases q.getLsbD 0 <;> rfl

/-- Settles O28. -/
theorem zpctxMoreProbableSymbol : Obligations.ZpctxMoreProbableSymbol := by
  intro c s hc hst hinv hs q z0 z hfence hcode
  obtain ⟨b, t, hr, -, -, -, hb⟩ := streamOp_returns (zpctx_streamOp params c.toNat hinv) hs.2.1 (not_ctxShort hinv hs)
  rw [exec_ready hst (wf_zpctx hc) rfl, perform, hr, storeRes_bit]
  cases hb with
  | fast hfast => exact absurd hfast (Nat.not_le.mpr hfence)
  | lps _ hlps => exact absurd hlps (Nat.not_lt.mpr hcode)
  | mps _ _ ht =>
    subst ht
    by_cases hm : (params.zptab.m q).toNat ≤ s.coder.a.toNat
    · have hraised : raisedCtx params c.toNat s = s.setCtx c.toNat (params.zptab.up q) := if_pos (decide_eq_true hm)
      rw [hraised, if_pos hm]
      rfl
    · have hraised : raisedCtx params c.toNat s = s := if_neg (Bool.not_eq_true _ ▸ decide_eq_false hm)
      rw [hraised, if_neg hm]
      rfl

/-- Settles O31. -/
theorem decisionsKeepTheCoderInvariants : Obligations.DecisionsKeepTheCoderInvariants := by
  intro p s t b hinv
  refine ⟨fun hr => ?_, fun c hr => ?_⟩
  · obtain ⟨-, ht, -⟩ := all_ok (zpraw_streamOp p hinv) hr
    exact ht
  · obtain ⟨-, ht, -⟩ := all_ok (zpctx_streamOp p c hinv) hr
    exact ht

/-- Settles O32. -/
theorem decisionsConsumeTheirBits : Obligations.DecisionsConsumeTheirBits := by
  intro p s t b hinv
  refine ⟨fun hr => ?_, fun c hr => ?_⟩
  · obtain ⟨hframe, ht, -, hb⟩ := all_ok (zpraw_streamOp p hinv) hr
    rw [bitsConsumed_eq hinv ht (coderFrame_len hframe)]
    cases b with
    | true =>
      obtain ⟨-, -, hbits⟩ := hb
      simp only [true_and]
      split at hbits <;> omega
    | false =>
      obtain ⟨-, -, hbits⟩ := hb
      rw [if_neg (by simp)]
      omega
  · obtain ⟨hframe, ht, -, hb⟩ := all_ok (zpctx_streamOp p c hinv) hr
    have hconsumed := bitsConsumed_eq hinv ht (coderFrame_len hframe)
    show if ctxSplit p c s ≤ s.coder.fence.toNat then bitsConsumed s t = 0
      else if clamp s.coder.a.toNat (ctxSplit p c s) ≤ s.coder.code.toNat then bitsConsumed s t = 1
      else bitsConsumed s t = (lpsShift s (clamp s.coder.a.toNat (ctxSplit p c s)) : Int) ∧
        1 ≤ lpsShift s (clamp s.coder.a.toNat (ctxSplit p c s)) ∧
        lpsShift s (clamp s.coder.a.toNat (ctxSplit p c s)) ≤ 16
    cases hb with
    | fast hfence =>
      rw [if_pos hfence, hconsumed]
      exact sub_self _
    | mps hfence hcode _ hbits =>
      rw [if_neg (Nat.not_le.mpr hfence), if_pos hcode]
      omega
    | lps hfence hcode _ hbits hpos =>
      rw [if_neg (Nat.not_le.mpr hfence), if_neg (Nat.not_le.mpr hcode)]
      exact ⟨by omega, hpos, lpsShift_le s _⟩

end Sys2Proof.Machine
end

section
/-! What the operations of the coder depend on: the coder registers, the contexts, `LEN` and the bytes below it. Begun in
two states that agree on these they end alike, and keep any relation that a write of the coder or of a context keeps. -/

namespace Sys2Proof.Machine

/-- A relation between two states under which the operations of the coder behave alike, and which they keep. -/
structure StreamRel (R : State → State → Prop) : Prop where
  coder : ∀ {s u}, R s u → s.coder = u.coder
  ctx : ∀ {s u}, R s u → s.ctx = u.ctx
  len : ∀ {s u}, R s u → s.len = u.len
  input : ∀ {s u}, R s u → ∀ k < s.len.toNat, s.imemRead k = u.imemRead k
  setCoder : ∀ {s u} c, R s u → R (s.setCoder c) (u.setCoder c)
  setCtx : ∀ {s u} c v, R s u → R (s.setCtx c v) (u.setCtx c v)

/-- Two outcomes of the same kind, with the same value, in related states. -/
inductive Related (R : State → State → Prop) {α : Type} : Res α → Res α → Prop where
  | ok (v : α) {s u : State} (h : R s u) : Related R (.ok v s) (.ok v u)
  | raise (e : Err) (info : Word32) {s u : State} (h : R s u) : Related R (.raise e info s) (.raise e info u)
  | stop (f : Fault) : Related R (.stop f) (.stop f)
  | refuse (f : Refusal) : Related R (.refuse f) (.refuse f)

section Rules

variable {α β : Type} {R : State → State → Prop}

theorem related_bind {Q : State → State → Prop} {r q : Res α} {k l : α → State → Res β}
    (hraise : ∀ s u, R s u → Q s u) (h : Related R r q) (hk : ∀ v s u, R s u → Related Q (k v s) (l v u)) :
    Related Q (r.bind k) (q.bind l) := by
  cases h with
  | ok v h => exact hk v _ _ h
  | raise e info h => exact .raise e info (hraise _ _ h)
  | stop f => exact .stop f
  | refuse f => exact .refuse f

theorem related_call {r q : Res α} {k l : α → State → Res β} (h : Related R r q)
    (hk : ∀ v s u, R s u → Related R (k v s) (l v u)) : Related R (r.bind k) (q.bind l) :=
  related_bind (fun _ _ h => h) h hk

theorem related_ite {b c : Prop} [Decidable b] [Decidable c] {r r' q q' : Res α} (hbc : b ↔ c)
    (ht : b → Related R r q) (hf : ¬ b → Related R r' q') :
    Related R (if b then r else r') (if c then q else q') := by
  by_cases h : b
  · rw [if_pos h, if_pos (hbc.mp h)]
    exact ht h
  · rw [if_neg h, if_neg (mt hbc.mpr h)]
    exact hf h

end Rules

section Coder

variable {R : State → State → Prop} (hR : StreamRel R) (p : Params) {s u : State} (h : R s u)
include hR h

theorem nextByte_related (counted : Bool) : Related R (nextByte p counted s) (nextByte p counted u) := by
  unfold nextByte
  rw [← hR.coder h, ← hR.len h]
  refine related_ite Iff.rfl (fun hlt => related_ite Iff.rfl (fun _ => .stop _) fun _ => ?_)
    fun _ => related_ite Iff.rfl (fun _ => related_ite Iff.rfl (fun _ => ?_) fun _ => ?_) fun _ => .ok _ h
  · rw [← hR.input h _ hlt]
    exact .ok _ (hR.setCoder _ h)
  · exact .raise _ _ (hR.setCoder _ h)
  · exact .ok _ (hR.setCoder _ h)

theorem shiftInByte_related (b : Byte) : R (shiftInByte b s) (shiftInByte b u) := by
  unfold shiftInByte
  rw [← hR.coder h]
  exact hR.setCoder _ h

theorem setFence_related : R (setFence s) (setFence u) := by
  unfold setFence
  rw [← hR.coder h]
  exact hR.setCoder _ h

theorem shiftCoder_related (a1 c1 n : Nat) : R (shiftCoder a1 c1 n s) (shiftCoder a1 c1 n u) := by
  unfold shiftCoder
  rw [← hR.coder h]
  exact hR.setCoder _ h

theorem preloadLoop_related (n : Nat) : Related R (preloadLoop p n s) (preloadLoop p n u) := by
  induction n generalizing s u with
  | zero => exact .ok _ h
  | succ n ih =>
    unfold preloadLoop
    rw [← hR.coder h]
    refine related_ite Iff.rfl (fun _ => related_call (nextByte_related hR p h true) fun b _ _ h' => ?_) fun _ => .ok _ h
    exact ih (shiftInByte_related hR h' b)

theorem preload_related : Related R (preload p s) (preload p u) := preloadLoop_related hR p h 4

theorem refill_related : Related R (refill p s) (refill p u) := by
  unfold refill
  rw [← hR.coder h]
  exact related_call (related_ite Iff.rfl (fun _ => preload_related hR p h) fun _ => .ok _ h)
    fun _ _ _ h' => .ok _ (setFence_related hR h')

theorem renormLps_related (z : Nat) : Related R (renormLps p z s) (renormLps p z u) := by
  unfold renormLps
  rw [← hR.coder h]
  exact refill_related hR p (shiftCoder_related hR h _ _ _)

theorem renormMps_related (z : Nat) : Related R (renormMps p z s) (renormMps p z u) := by
  unfold renormMps
  rw [← hR.coder h]
  exact refill_related hR p (shiftCoder_related hR h _ _ _)

theorem zpraw_related : Related R (zpraw p s) (zpraw p u) := by
  unfold zpraw
  rw [← hR.coder h]
  exact related_ite Iff.rfl (fun _ => related_call (renormLps_related hR p h _) fun _ _ _ h' => .ok _ h')
    fun _ => related_call (renormMps_related hR p h _) fun _ _ _ h' => .ok _ h'

theorem zpsub_related (c : Nat) (q : Byte) (z : Nat) : Related R (zpsub p c q z s) (zpsub p c q z u) := by
  unfold zpsub zpsubLps zpsubMps
  rw [← hR.coder h]
  refine related_ite Iff.rfl
    (fun _ => related_call (renormLps_related hR p (hR.setCtx _ _ h) _) fun _ _ _ h' => .ok _ h')
    fun _ => related_call (renormMps_related hR p ?_ _) fun _ _ _ h' => .ok _ h'
  split
  · exact hR.setCtx _ _ h
  · exact h

theorem zpctx_related (c : Nat) : Related R (zpctx p c s) (zpctx p c u) := by
  unfold zpctx
  rw [← hR.coder h, ← hR.ctx h]
  exact related_ite Iff.rfl (fun _ => .ok _ (hR.setCoder _ h)) fun _ => zpsub_related hR p h _ _ _

theorem rawLoop_related (n v : Nat) : Related R (rawLoop p n v s) (rawLoop p n v u) := by
  induction n generalizing s u v with
  | zero => exact .ok _ h
  | succ n ih => exact related_call (zpraw_related hR p h) fun b _ _ h' => ih h' _

theorem rawn_related (n : Nat) : Related R (rawn p n s) (rawn p n u) :=
  related_call (rawLoop_related hR p h n 1) fun _ _ _ h' => .ok _ h'

theorem treeLoop_related (base nb n : Nat) : Related R (treeLoop p base nb n s) (treeLoop p base nb n u) := by
  induction nb generalizing s u n with
  | zero => exact .ok _ h
  | succ nb ih => exact related_call (zpctx_related hR p h _) fun b _ _ h' => ih h' _

theorem binn_related (nb base : Nat) : Related R (binn p nb base s) (binn p nb base u) :=
  related_call (treeLoop_related hR p h base nb 1) fun _ _ _ h' => .ok _ h'

theorem bandLadder_related (left j : Nat) : Related R (bandLadder p left j s) (bandLadder p left j u) := by
  induction left generalizing s u j with
  | zero => exact .ok _ h
  | succ left ih =>
    refine related_call (zpctx_related hR p h _) fun b _ _ h' => related_ite Iff.rfl (fun _ => ?_) fun _ => ih h' _
    exact related_call (binn_related hR p h' _ _) fun _ _ _ h'' => .ok _ h''

theorem rankdec_related (cid : Nat) : Related R (rankdec p cid s) (rankdec p cid u) :=
  related_call (zpctx_related hR p h _) fun _ _ _ h' => related_ite Iff.rfl (fun _ => .ok _ h') fun _ =>
    related_call (zpctx_related hR p h' _) fun _ _ _ h'' =>
      related_ite Iff.rfl (fun _ => .ok _ h'') fun _ => bandLadder_related hR p h'' 7 1

theorem fshiftField_related : Related R (fshiftField p s) (fshiftField p u) :=
  related_ite Iff.rfl
    (fun _ => related_call (zpraw_related hR p h) fun _ _ _ h' => related_ite Iff.rfl
      (fun _ => related_call (zpraw_related hR p h') fun _ _ _ h'' => .ok _ h'') fun _ => .ok _ h')
    fun _ => rawn_related hR p h 2

end Coder

/-- A change of a register the coder does not read is such a relation. -/
theorem streamRel_setRes (v : BitVec 24) : StreamRel fun s u => u = s.setRes v where
  coder := by rintro s _ rfl; rfl
  ctx := by rintro s _ rfl; rfl
  len := by rintro s _ rfl; rfl
  input := by rintro s _ rfl _ _; rfl
  setCoder := by rintro s _ _ rfl; rfl
  setCtx := by rintro s _ _ _ rfl; rfl

end Sys2Proof.Machine
end

section
/-! `RAWN` and `BINN` (`spec/41_zp_decoder.md` section 5) as sequences of the decision commands, and the input their loops
need: a raw decision takes two bits only when `a` is at its greatest, which no decision leaves behind. -/

namespace Sys2Proof.Machine

section Commands

variable {s : State}

/-- What a decision command comes to (R227): its bit in `res`, or how the decision ended otherwise. -/
theorem decisionOutcome_storeRes {r : Res Bool} (hr : CoderOp params s r fun _ _ => True) (hst : s.st = .ready) :
    decisionOutcome (finish (storeRes (bitValue r))) =
      match r with
      | .ok b t => .ok (b.toNat, t.setRes (BitVec.ofNat 24 b.toNat))
      | .raise e info t => .error (.next (faultEntry e info t))
      | .stop f => .error (.fault f)
      | .refuse f => .error (.refused f) := by
  cases r with
  | ok b t =>
    have ht : t.st = .ready := (coderFrame_st hr.1).trans hst
    have hb : (BitVec.ofNat 24 b.toNat).toNat = b.toNat := by cases b <;> rfl
    show (if t.st = .ready then _ else _) = _
    rw [if_pos ht]
    show Except.ok ((BitVec.ofNat 24 b.toNat).toNat, _) = _
    rw [hb]
  | raise e info t => rfl
  | stop f => rfl
  | refuse f => rfl

/-- The outcome of a sequence of decision commands begun with some `res`, against the loop of the primitive: the same
number read from another start, and the same end but for `res`. -/
def SameDecisions (offset start : Nat) (r : Res Nat) (q : Except (Host.Outcome State Fault Refusal) (Nat × State)) : Prop :=
  match r with
  | .ok x t => ∃ w y, q = .ok (y, t.setRes w) ∧ y + start = x + offset
  | .raise e info t => ∃ w, q = .error (.next ((faultEntry e info t).setRes w))
  | .stop f => q = .error (.fault f)
  | .refuse f => q = .error (.refused f)

theorem sameDecisions_of_add {k offset start : Nat} {r : Res Nat}
    {q : Except (Host.Outcome State Fault Refusal) (Nat × State)} (h : SameDecisions (offset + k) (start + k) r q) :
    SameDecisions offset start r q := by
  cases r with
  | ok x t =>
    obtain ⟨w, y, hq, hy⟩ := h
    exact ⟨w, y, hq, by omega⟩
  | raise e info t => exact h
  | stop f => exact h
  | refuse f => exact h

/-- One decision of a primitive against one command, and the rest of both after the same bit. -/
theorem sameDecisions_step {r q : Res Bool} {w : BitVec 24} {offset start : Nat} {k : Bool → State → Res Nat}
    {l : Nat → State → Except (Host.Outcome State Fault Refusal) (Nat × State)}
    (hrel : Related (fun s u => u = s.setRes w) r q) (hq : CoderOp params (s.setRes w) q fun _ _ => True)
    (hst : s.st = .ready)
    (hk : ∀ b t, t.st = .ready → SameDecisions offset start (k b t) (l b.toNat (t.setRes (BitVec.ofNat 24 b.toNat)))) :
    SameDecisions offset start (r.bind k)
      ((decisionOutcome (finish (storeRes (bitValue q)))).bind fun e => l e.1 e.2) := by
  rw [decisionOutcome_storeRes hq hst]
  cases hrel with
  | ok b h =>
    subst h
    exact hk b _ ((coderFrame_st hq.1).trans hst)
  | raise e info h =>
    subst h
    exact ⟨w, rfl⟩
  | stop f => rfl
  | refuse f => rfl

theorem rawCommands_succ (n y : Nat) (s : State) : rawCommands (n + 1) y s =
    (decisionOutcome (exec .zpraw s)).bind fun e => rawCommands n (2 * y + e.1) e.2 := by
  rw [rawCommands]
  cases decisionOutcome (exec .zpraw s) <;> rfl

theorem treeCommands_succ (base nb n : Nat) (s : State) : treeCommands base (nb + 1) n s =
    (decisionOutcome (exec (.zpctx (BitVec.ofNat 9 (base + n - 1))) s)).bind fun e =>
      treeCommands base nb (2 * n + e.1) e.2 := by
  rw [treeCommands]
  cases decisionOutcome (exec (.zpctx (BitVec.ofNat 9 (base + n - 1))) s) <;> rfl

theorem exec_zpraw (hst : s.st = .ready) : exec .zpraw s = finish (storeRes (bitValue (zpraw params s))) :=
  exec_ready hst rfl rfl

theorem rawCommands_sameDecisions (n v y : Nat) (w : BitVec 24) (hst : s.st = .ready) :
    SameDecisions (y * 2 ^ n) (v * 2 ^ n) (rawLoop params n v s) (rawCommands n y (s.setRes w)) := by
  induction n generalizing s v y w with
  | zero => exact ⟨w, y, rfl, by ring⟩
  | succ n ih =>
    rw [rawCommands_succ, exec_zpraw (s := s.setRes w) hst]
    refine sameDecisions_step (l := fun b t => rawCommands n (2 * y + b) t)
      (zpraw_related (streamRel_setRes w) params rfl) (zpraw_coderOp _ _) hst fun b t ht => ?_
    have hrest := ih (2 * v + b.toNat) (2 * y + b.toNat) (BitVec.ofNat 24 b.toNat) ht
    refine sameDecisions_of_add (k := b.toNat * 2 ^ n) ?_
    convert hrest using 1 <;> ring

/-- The nodes of a tree of `nb` more levels below `n` name contexts of the table. -/
theorem treeCommands_sameDecisions {base nb n : Nat} (w : BitVec 24) (hst : s.st = .ready) (hpos : 1 ≤ n)
    (hbase : 2 * base + (n + 1) * 2 ^ nb ≤ 602) :
    SameDecisions 0 0 (treeLoop params base nb n s) (treeCommands base nb n (s.setRes w)) := by
  induction nb generalizing s n w with
  | zero => exact ⟨w, n, rfl, rfl⟩
  | succ nb ih =>
    have hpow : 1 ≤ 2 ^ nb := Nat.one_le_two_pow
    have hroot : (n + 1) * 2 ≤ (n + 1) * 2 ^ (nb + 1) := Nat.mul_le_mul_left _ (by omega)
    have hcontext : (BitVec.ofNat 9 (base + n - 1)).toNat = base + n - 1 := Nat.mod_eq_of_lt (by omega)
    have hexec : exec (.zpctx (BitVec.ofNat 9 (base + n - 1))) (s.setRes w) =
        finish (storeRes (bitValue (zpctx params (base + n - 1) (s.setRes w)))) := by
      rw [exec_ready (s := s.setRes w) hst (wf_zpctx (by omega)) rfl, perform, hcontext]
    rw [treeCommands_succ, hexec]
    refine sameDecisions_step (l := fun b t => treeCommands base nb (2 * n + b) t)
      (zpctx_related (streamRel_setRes w) params rfl _) (zpctx_coderOp _ _ _) hst fun b t ht => ?_
    have hb : b.toNat ≤ 1 := Bool.toNat_le b
    have hnode : (2 * n + b.toNat + 1) * 2 ^ nb ≤ (n + 1) * 2 ^ (nb + 1) := by
      rw [pow_succ', ← Nat.mul_assoc]
      exact Nat.mul_le_mul_right _ (by omega)
    exact ih _ ht (by omega) (by omega)

end Commands

section Need

/-- The lookahead buffer and pairs of bytes of the Bit Source cover `m` more bits of raw decisions, each refill of
which takes two bytes. -/
def Covers (m : Nat) (s : State) : Prop := ∃ pairs, 16 + m ≤ s.coder.scount.toNat + 16 * pairs ∧ 2 * pairs ≤ deliverable s

/-- The second bit of a raw decision of bit 1 at the greatest `a` (R144). -/
def extraBit (s : State) : Nat := if s.coder.a.toNat = 0x7FFF then 1 else 0

theorem extraBit_le (s : State) : extraBit s ≤ 1 := by
  unfold extraBit
  split <;> omega

variable {p : Params} {s t : State}

theorem covers_mono {m n : Nat} (hmn : m ≤ n) (h : Covers n s) : Covers m s := by
  obtain ⟨pairs, hbits, hbytes⟩ := h
  exact ⟨pairs, by omega, hbytes⟩

theorem covers_of_supplied {m : Nat} (hm : m ≤ 32) (h : CoderInv s) (hs : Supplied p 4 s) : Covers m s := by
  obtain ⟨-, -, hlow, -⟩ := h
  exact ⟨2, by omega, le_deliverable hs⟩

theorem not_rawShort_of_covers {m : Nat} (h : Covers (1 + extraBit s + m) s) : ¬ RawShort s := by
  obtain ⟨pairs, hbits, hbytes⟩ := h
  rintro (⟨hlow, -, hshort⟩ | ⟨hmax, hlow, -, hshort⟩)
  · have := hshort (by decide)
    omega
  · have := hshort (by decide)
    have : extraBit s = 1 := if_pos hmax
    omega

/-- A renormalisation by `n ≥ 1` bits leaves `a` even, so not at its greatest. -/
theorem extraBit_renormed {a1 c1 n : Nat} (hn : 1 ≤ n) : extraBit (renormed s a1 c1 n) = 0 := by
  refine if_neg ?_
  show (settled s (shifted s.coder a1 c1 n)).a.toNat ≠ 0x7FFF
  rw [settled_eq]
  show (BitVec.ofNat 16 (a1 * 2 ^ n)).toNat ≠ 0x7FFF
  rw [BitVec.toNat_ofNat, show n = n - 1 + 1 by omega, pow_succ, ← Nat.mul_assoc]
  omega

/-- The bytes a renormalisation that completes has pulled, from the bits it took. -/
theorem covers_renormed (h : CoderInv s) {a1 c1 n m : Nat} (hn : n ≤ 2)
    (hbits : bitsLeft (renormed s a1 c1 n) + n = bitsLeft s) (hcovers : Covers (n + m) s) :
    Covers m (renormed s a1 c1 n) := by
  have hshifted := shifted_scount_toNat h (hn.trans (by decide)) a1 c1
  obtain ⟨-, -, hlow, hhigh, hrp, -⟩ := h
  have hscount : (renormed s a1 c1 n).coder.scount.toNat = _ :=
    settled_scount_toNat s (c := shifted s.coder a1 c1 n) (by omega)
  have hleft : deliverable (renormed s a1 c1 n) = deliverable s - settleBytes (shifted s.coder a1 c1 n) :=
    deliverable_settled (c := shifted s.coder a1 c1 n) hrp
  have hsettle : settleBytes (shifted s.coder a1 c1 n) = if s.coder.scount.toNat - n < 16 then 2 else 0 := by
    unfold settleBytes refillBytes
    rw [hshifted]
    split
    next => rw [if_pos (by omega)]; omega
    next => rfl
  obtain ⟨pairs, henough, hbytes⟩ := hcovers
  unfold bitsLeft at hbits
  unfold Covers
  rw [hscount, hleft, hshifted, hsettle] at hbits ⊢
  by_cases hrefill : s.coder.scount.toNat - n < 16
  · rw [if_pos hrefill] at hbits ⊢
    exact ⟨pairs - 1, by omega, by omega⟩
  · rw [if_neg hrefill] at hbits ⊢
    exact ⟨pairs, by omega, by omega⟩

theorem covers_of_rawDecision {b : Bool} {m : Nat} (h : CoderInv s) (hd : RawDecision s b t)
    (hcovers : Covers (1 + extraBit s + m) s) : Covers (extraBit t + m) t := by
  have hshift := lpsShift_rawSplit h.1
  cases b with
  | true =>
    obtain ⟨-, rfl, hbits⟩ := hd
    rw [← hshift] at hbits
    have hpos : 1 ≤ lpsShift s (rawSplit s) := by rw [hshift]; split <;> omega
    have hle : lpsShift s (rawSplit s) ≤ 1 + extraBit s := by rw [hshift, extraBit]; split <;> omega
    have hextra := extraBit_le s
    rw [lpsState, extraBit_renormed hpos]
    refine covers_renormed h (by omega) hbits (covers_mono ?_ hcovers)
    omega
  | false =>
    obtain ⟨-, rfl, hbits⟩ := hd
    rw [mpsState, extraBit_renormed (le_refl 1)]
    exact covers_renormed h (by decide) hbits (covers_mono (by omega) hcovers)

variable (p)

/-- What `n` raw decisions leave: the contexts as they were, `n` bits taken, and what still covers `m` more bits. -/
def RawRun (n : Nat) (s t : State) : Prop :=
  t.ctx = s.ctx ∧ bitsLeft t + n ≤ bitsLeft s ∧ ∀ m, Covers (n + extraBit s + m) s → Covers (extraBit t + m) t

theorem coderFrame_ctx_of_rawDecision {b : Bool} (hd : RawDecision s b t) : t.ctx = s.ctx := by
  cases b with
  | true =>
    obtain ⟨-, rfl, -⟩ := hd
    rfl
  | false =>
    obtain ⟨-, rfl, -⟩ := hd
    rfl

theorem bitsLeft_of_rawDecision {b : Bool} (hd : RawDecision s b t) : bitsLeft t + 1 ≤ bitsLeft s := by
  cases b with
  | true =>
    obtain ⟨-, -, hbits⟩ := hd
    split at hbits <;> omega
  | false => exact le_of_eq hd.2.2

theorem rawLoop_streamOp {n : Nat} (v : Nat) (h : CoderInv s) :
    StreamOp p s (rawLoop p n v s) (fun x t => v * 2 ^ n ≤ x ∧ x < (v + 1) * 2 ^ n ∧ RawRun n s t)
      (¬ Covers (n + extraBit s) s) := by
  induction n generalizing s v with
  | zero => exact streamOp_ok h ⟨by omega, by omega, rfl, by omega, fun m hm => by simpa using hm⟩
  | succ n ih =>
    refine streamOp_bind (streamOp_mono (zpraw_streamOp p h) (fun _ _ _ _ _ h => h) ?_) fun b t _ hinv _ hd => ?_
    · intro hshort hcovers
      exact not_rawShort_of_covers (m := n) (covers_mono (by omega) hcovers) hshort
    · have hstep : ∀ m, Covers (n + 1 + extraBit s + m) s → Covers (n + extraBit t + m) t := fun m hm =>
        covers_mono (by omega) (covers_of_rawDecision (m := n + m) h hd (covers_mono (by omega) hm))
      refine streamOp_mono (ih _ hinv) ?_ (mt fun hc => hstep 0 hc)
      rintro x u - - - ⟨hlow, hhigh, hctx, hbits, hcov⟩
      have hb : b.toNat ≤ 1 := Bool.toNat_le b
      have hbits' := bitsLeft_of_rawDecision hd
      refine ⟨le_trans ?_ hlow, lt_of_lt_of_le hhigh ?_, hctx.trans (coderFrame_ctx_of_rawDecision hd), by omega,
        fun m hm => hcov m (hstep m hm)⟩
      · rw [pow_succ', ← Nat.mul_assoc]
        exact Nat.mul_le_mul_right _ (by omega)
      · rw [pow_succ', ← Nat.mul_assoc]
        exact Nat.mul_le_mul_right _ (by omega)

theorem rawn_streamOp {n : Nat} (h : CoderInv s) :
    StreamOp p s (rawn p n s) (fun x t => x < 2 ^ n ∧ RawRun n s t) (¬ Covers (n + extraBit s) s) :=
  streamOp_bind (rawLoop_streamOp p 1 h) fun _ _ _ hinv _ ⟨_, _, hrun⟩ => streamOp_ok hinv ⟨by omega, hrun⟩

/-- A context decision takes at most 16 bits (R144). -/
theorem bitsLeft_of_ctxDecision {c : Nat} {b : Bool} (hd : CtxDecision p c s b t) : bitsLeft s ≤ bitsLeft t + 16 := by
  cases hd with
  | fast => exact Nat.le_add_right _ _
  | lps _ _ _ hbits =>
    have := lpsShift_le s (clamp s.coder.a.toNat (ctxSplit p c s))
    omega
  | mps _ _ _ hbits => omega

theorem treeLoop_streamOp {nb : Nat} (base n : Nat) (h : CoderInv s) :
    StreamOp p s (treeLoop p base nb n s) (fun x _ => n * 2 ^ nb ≤ x ∧ x < (n + 1) * 2 ^ nb)
      (bitsLeft s < 32 + 16 * nb) := by
  induction nb generalizing s n with
  | zero => exact streamOp_ok h ⟨by omega, by omega⟩
  | succ nb ih =>
    refine streamOp_bind (streamOp_mono (zpctx_streamOp p _ h) (fun _ _ _ _ _ h => h) (by omega)) fun b _ _ hinv _ hd => ?_
    have hbits := bitsLeft_of_ctxDecision p hd
    refine streamOp_mono (ih _ hinv) ?_ (by omega)
    rintro x u - - - ⟨hlow, hhigh⟩
    have hb : b.toNat ≤ 1 := Bool.toNat_le b
    refine ⟨le_trans ?_ hlow, lt_of_lt_of_le hhigh ?_⟩
    · rw [pow_succ', ← Nat.mul_assoc]
      exact Nat.mul_le_mul_right _ (by omega)
    · rw [pow_succ', ← Nat.mul_assoc]
      exact Nat.mul_le_mul_right _ (by omega)

theorem binn_streamOp {nb : Nat} (base : Nat) (h : CoderInv s) :
    StreamOp p s (binn p nb base s) (fun x _ => x < 2 ^ nb) (bitsLeft s < 32 + 16 * nb) :=
  streamOp_bind (treeLoop_streamOp p base 1 h) fun _ _ _ hinv _ ⟨_, _⟩ => streamOp_ok hinv (by omega)

end Need

/-! ### The statements about the primitives -/

/-- Fault entry keeps `res`, so a primitive that raises leaves the `res` it found. -/
theorem withRes_faultEntry {s t : State} (h : CoderFrame s t) (e : Err) (info : Word32) (w : BitVec 24) :
    withRes s.res (.next ((faultEntry e info t).setRes w)) = .next (faultEntry e info t) := by
  rw [withRes, ← coderFrame_res h]
  rfl

/-- Where the loop of a primitive does not return, neither do the commands, and both end alike. -/
theorem sameDecisions_error {s : State} {offset start : Nat} {r : Res Nat} {P : Nat → State → Prop}
    {q : Except (Host.Outcome State Fault Refusal) (Nat × State)} (k : Nat → State → Res Unit)
    (h : SameDecisions offset start r q) (hop : CoderOp params s r P) (hr : ∀ x t, r ≠ .ok x t) :
    ∃ o, q = .error o ∧ finish (r.bind k) = withRes s.res o := by
  cases r with
  | ok x t => exact absurd rfl (hr x t)
  | raise e info t =>
    obtain ⟨w, hq⟩ := h
    obtain ⟨-, -, -, -, hframe⟩ := hop
    exact ⟨_, hq, (withRes_faultEntry hframe e info w).symm⟩
  | stop f => exact ⟨_, h, rfl⟩
  | refuse f => exact ⟨_, h, rfl⟩

/-- A number computed from what the loop returns. -/
theorem sameDecisions_map {o o' st st' : Nat} {r : Res Nat} {f : Nat → Nat}
    {q : Except (Host.Outcome State Fault Refusal) (Nat × State)}
    (hf : ∀ x t, r = .ok x t → ∀ y, y + st = x + o → y + st' = f x + o') (h : SameDecisions o st r q) :
    SameDecisions o' st' (r.bind fun v s => .ok (f v) s) q := by
  cases r with
  | ok x t =>
    obtain ⟨w, y, hq, hy⟩ := h
    exact ⟨w, y, hq, hf x t rfl y hy⟩
  | raise e info t => exact h
  | stop f => exact h
  | refuse f => exact h

section Rawn

variable {s : State}

theorem rawn_sameDecisions (n : Nat) (hst : s.st = .ready) :
    SameDecisions 0 0 (rawn params n s) (rawCommands n 0 s) := by
  have hsame := rawCommands_sameDecisions n 1 0 s.res hst
  rw [setRes_self] at hsame
  refine sameDecisions_map (fun x t hr y hy => ?_) hsame
  obtain ⟨-, hlow, -⟩ := all_ok (rawLoop_coderOp params s n 1) hr
  omega

theorem rawCommands_of_rawn_ok {n y : Nat} {t : State} (hst : s.st = .ready) (hr : rawn params n s = .ok y t) :
    y < 2 ^ n ∧ ∃ w, rawCommands n 0 s = .ok (y, t.setRes w) := by
  have hsame := rawn_sameDecisions n hst
  obtain ⟨-, hlt⟩ := all_ok (rawn_coderOp params s n) hr
  rw [hr] at hsame
  obtain ⟨w, y', hq, hy⟩ := hsame
  obtain rfl : y' = y := hy
  exact ⟨hlt, w, hq⟩

end Rawn

/-- Settles O29. -/
theorem rawnIsRepeatedZpraw : Obligations.RawnIsRepeatedZpraw := by
  intro n s hlow hhigh hst
  have hexec : exec (.rawn n) s = finish (storeRes (rawn params n.toNat s)) :=
    exec_ready hst (decide_eq_true ⟨hlow, hhigh⟩) rfl
  constructor
  · by_cases hr : ∃ y t, rawn params n.toNat s = .ok y t
    · obtain ⟨y, t, hr⟩ := hr
      obtain ⟨hlt, w, hq⟩ := rawCommands_of_rawn_ok hst hr
      rw [hq, hexec, hr]
      exact ⟨hlt, rfl⟩
    · obtain ⟨o, hq, hends⟩ := sameDecisions_error (fun v s => .ok () (s.setRes (BitVec.ofNat 24 v)))
        (rawn_sameDecisions n.toNat hst) (rawn_coderOp params s n.toNat) fun y t h => hr ⟨y, t, h⟩
      rw [hq, hexec]
      exact hends
  · intro hinv hs
    have hextra := extraBit_le s
    obtain ⟨y, t, hr, -⟩ := streamOp_returns (rawn_streamOp params (n := n.toNat) hinv) hs.2.1
      (not_not.mpr (covers_of_supplied (by omega) hinv hs))
    obtain ⟨-, w, hq⟩ := rawCommands_of_rawn_ok hst hr
    refine ⟨y, _, hq, ?_⟩
    rw [hexec, hr]
    rfl

section Binn

variable {s : State}

theorem binn_sameDecisions {base nb : Nat} (hnb : 1 ≤ nb) (hbase : base + 2 ^ nb - 2 ≤ 299) (hst : s.st = .ready) :
    SameDecisions (2 ^ nb) 0 (binn params nb base s) (treeCommands base nb 1 s) := by
  have hpow : 2 ^ 1 ≤ 2 ^ nb := Nat.pow_le_pow_right (by decide) hnb
  have hsame := treeCommands_sameDecisions (base := base) s.res hst (le_refl 1) (nb := nb) (by omega)
  rw [setRes_self] at hsame
  refine sameDecisions_map (fun x t hr y hy => ?_) hsame
  obtain ⟨-, hlow, -⟩ := all_ok (treeLoop_coderOp params s base nb 1) hr
  omega

theorem treeCommands_of_binn_ok {base nb y : Nat} {t : State} (hnb : 1 ≤ nb) (hbase : base + 2 ^ nb - 2 ≤ 299)
    (hst : s.st = .ready) (hr : binn params nb base s = .ok y t) :
    y < 2 ^ nb ∧ ∃ w, treeCommands base nb 1 s = .ok (y + 2 ^ nb, t.setRes w) := by
  have hsame := binn_sameDecisions hnb hbase hst
  obtain ⟨-, hlt⟩ := all_ok (binn_coderOp params s nb base) hr
  rw [hr] at hsame
  obtain ⟨w, y', hq, hy⟩ := hsame
  obtain rfl : y' = y + 2 ^ nb := hy
  exact ⟨hlt, w, hq⟩

end Binn

/-- Settles O30. -/
theorem binnIsATreeWalk : Obligations.BinnIsATreeWalk := by
  intro nb base s hnb hbase hst
  have hwf : (Instr.binn nb base).wf = true := by
    rw [Instr.wf, wfTreeBits, wfTreeBase, decide_eq_true hnb, decide_eq_true (Nat.lt_succ_of_le hbase)]
    rfl
  have hexec : exec (.binn nb base) s = finish (storeRes (binn params nb.toNat base.toNat s)) :=
    exec_ready hst hwf rfl
  constructor
  · by_cases hr : ∃ y t, binn params nb.toNat base.toNat s = .ok y t
    · obtain ⟨y, t, hr⟩ := hr
      obtain ⟨hlt, w, hq⟩ := treeCommands_of_binn_ok hnb hbase hst hr
      rw [hq, hexec, hr]
      refine ⟨by omega, by omega, ?_⟩
      rw [Nat.add_sub_cancel]
      rfl
    · obtain ⟨o, hq, hends⟩ := sameDecisions_error (fun v s => .ok () (s.setRes (BitVec.ofNat 24 v)))
        (binn_sameDecisions hnb hbase hst) (binn_coderOp params s nb.toNat base.toNat) fun y t h => hr ⟨y, t, h⟩
      rw [hq, hexec]
      exact hends
  · intro hinv hs
    have henough := le_deliverable hs
    obtain ⟨-, -, hlow, -⟩ := id hinv
    obtain ⟨y, t, hr, -⟩ := streamOp_returns (binn_streamOp params (nb := nb.toNat) base.toNat hinv) hs.2.1
      (by unfold bitsLeft; omega)
    obtain ⟨-, w, hq⟩ := treeCommands_of_binn_ok hnb hbase hst hr
    refine ⟨y + 2 ^ nb.toNat, _, hq, ?_⟩
    rw [hexec, hr, Nat.add_sub_cancel]
    rfl

end Sys2Proof.Machine
end

section
/-! Which entries of the ContextTable an operation writes (R33, R168), in every state: a decision its own, a tree its
nodes', the rank ladder none from 260 on, and the raw decisions and `PRELOAD` none. -/

namespace Sys2Proof.Machine

/-- However the operation begun in `s` ends, no context outside `A` is changed. -/
def Touches {α : Type} (A : Nat → Prop) (s : State) (r : Res α) : Prop :=
  r.All (fun _ t => ∀ k, ¬ A k → tableGet t.ctx k = tableGet s.ctx k)
    (fun _ _ t => ∀ k, ¬ A k → tableGet t.ctx k = tableGet s.ctx k) (fun _ => True) (fun _ => True)

section Rules

variable {α β : Type} {A B : Nat → Prop} {s : State}

theorem touches_mono {r : Res α} (hAB : ∀ k, A k → B k) (h : Touches A s r) : Touches B s r :=
  all_mono h (fun _ _ h k hk => h k (mt (hAB k) hk)) (fun _ _ _ h k hk => h k (mt (hAB k) hk)) (fun _ h => h)
    (fun _ h => h)

theorem touches_after {t : State} {r : Res α} (ht : ∀ k, ¬ A k → tableGet t.ctx k = tableGet s.ctx k)
    (h : Touches A t r) : Touches A s r :=
  all_mono h (fun _ _ h k hk => (h k hk).trans (ht k hk)) (fun _ _ _ h k hk => (h k hk).trans (ht k hk))
    (fun _ h => h) (fun _ h => h)

theorem touches_same {t : State} {r : Res α} (ht : t.ctx = s.ctx) (h : Touches A t r) : Touches A s r :=
  touches_after (fun _ _ => by rw [ht]) h

theorem touches_bind {r : Res α} {k : α → State → Res β} (h : Touches A s r) (hk : ∀ v t, Touches A t (k v t)) :
    Touches A s (r.bind k) :=
  all_bind h fun v t ht => touches_after ht (hk v t)

end Rules

section Coder

variable (A : Nat → Prop) (p : Params) (s : State)

theorem nextByte_touches (counted : Bool) : Touches A s (nextByte p counted s) := by
  unfold nextByte
  split
  · split
    · trivial
    · exact fun _ _ => rfl
  · split
    · split <;> exact fun _ _ => rfl
    · exact fun _ _ => rfl

theorem preloadLoop_touches (n : Nat) : Touches A s (preloadLoop p n s) := by
  induction n generalizing s with
  | zero => exact fun _ _ => rfl
  | succ n ih =>
    unfold preloadLoop
    split
    · exact touches_bind (nextByte_touches A p s true) fun b t => touches_same rfl (ih (shiftInByte b t))
    · exact fun _ _ => rfl

theorem preload_touches : Touches A s (preload p s) := preloadLoop_touches A p s 4

theorem refill_touches : Touches A s (refill p s) := by
  unfold refill
  refine touches_bind ?_ fun _ _ _ _ => rfl
  split
  · exact preload_touches A p s
  · exact fun _ _ => rfl

theorem renormLps_touches (z : Nat) : Touches A s (renormLps p z s) := touches_same rfl (refill_touches A p (shiftCoder _ _ _ s))

theorem renormMps_touches (z : Nat) : Touches A s (renormMps p z s) := touches_same rfl (refill_touches A p (shiftCoder _ _ _ s))

theorem zpraw_touches : Touches A s (zpraw p s) := by
  unfold zpraw
  dsimp only
  split
  · exact touches_bind (renormLps_touches A p s _) fun _ _ _ _ => rfl
  · exact touches_bind (renormMps_touches A p s _) fun _ _ _ _ => rfl

theorem rawLoop_touches (n v : Nat) : Touches A s (rawLoop p n v s) := by
  induction n generalizing s v with
  | zero => exact fun _ _ => rfl
  | succ n ih => exact touches_bind (zpraw_touches A p s) fun _ t => ih t _

theorem rawn_touches (n : Nat) : Touches A s (rawn p n s) :=
  touches_bind (rawLoop_touches A p s n 1) fun _ _ _ _ => rfl

theorem fshiftField_touches : Touches A s (fshiftField p s) := by
  unfold fshiftField
  split
  · refine touches_bind (zpraw_touches A p s) fun b t => ?_
    split
    · exact touches_bind (zpraw_touches A p t) fun _ _ _ _ => rfl
    · exact fun _ _ => rfl
  · exact rawn_touches A p s 2

theorem blkhdr_touches : Touches A s (blkhdr p s) := by
  refine touches_bind (rawn_touches A p s 24) fun v t => ?_
  dsimp only
  split
  · exact fun _ _ => rfl
  · split
    · exact fun _ _ => rfl
    · exact touches_same rfl (touches_bind (fshiftField_touches A p (t.setBlk _)) fun _ _ _ _ => rfl)

end Coder

section Decisions

variable (p : Params) (s : State)

theorem setCtx_other {c k : Nat} (v : Byte) (h : ¬ k = c) : tableGet (s.setCtx c v).ctx k = tableGet s.ctx k :=
  tableGet_put_other _ _ (Ne.symm h)

/-- A decision writes its own context (R168). -/
theorem zpctx_touches (c : Nat) : Touches (· = c) s (zpctx p c s) := by
  unfold zpctx zpsub zpsubLps zpsubMps
  dsimp only
  split
  · exact fun _ _ => rfl
  · split
    · exact touches_after (fun _ hk => setCtx_other s _ hk)
        (touches_bind (renormLps_touches _ p _ _) fun _ _ _ _ => rfl)
    · refine touches_bind ?_ fun _ _ _ _ => rfl
      split
      · exact touches_after (fun _ hk => setCtx_other s _ hk) (renormMps_touches _ p _ _)
      · exact renormMps_touches _ p s _

/-- The contexts of the tree below the node `n` with `nb` more levels (R85). -/
theorem treeLoop_touches (base nb n : Nat) (hn : 1 ≤ n) :
    Touches (fun k => base ≤ k ∧ 2 * (k + 1) < 2 * base + (n + 1) * 2 ^ nb) s (treeLoop p base nb n s) := by
  induction nb generalizing s n with
  | zero => exact fun _ _ => rfl
  | succ nb ih =>
    have hpow : 1 ≤ 2 ^ nb := Nat.one_le_two_pow
    have hroot : (n + 1) * 2 ≤ (n + 1) * 2 ^ (nb + 1) := Nat.mul_le_mul_left _ (by omega)
    refine touches_bind (touches_mono ?_ (zpctx_touches p s _)) fun b t => touches_mono ?_ (ih t (2 * n + b.toNat) (by omega))
    · rintro k rfl
      unfold treeContext
      omega
    · rintro k ⟨hlow, hhigh⟩
      have hb : b.toNat ≤ 1 := Bool.toNat_le b
      have hnode : (2 * n + b.toNat + 1) * 2 ^ nb ≤ (n + 1) * 2 ^ (nb + 1) := by
        rw [pow_succ', ← Nat.mul_assoc]
        exact Nat.mul_le_mul_right _ (by omega)
      omega

/-- `BINN nb, B` writes the contexts of its tree (R85, R99). -/
theorem binn_touches (nb base : Nat) :
    Touches (fun k => base ≤ k ∧ k + 1 < base + 2 ^ nb) s (binn p nb base s) :=
  touches_bind (touches_mono (fun k hk => ⟨hk.1, by omega⟩) (treeLoop_touches p s base nb 1 (le_refl 1)))
    fun _ _ _ _ => rfl

end Decisions

section Symbols

variable (s : State)

theorem band_eq (j : Nat) : band params j = 4 + 2 ^ j := by
  show 2 * 3 + 2 ^ j - 2 = _
  have := Nat.one_le_two_pow (n := j)
  omega

theorem bandLadder_touches (left j : Nat) (hj : left + j = 8) :
    Touches (· < 260) s (bandLadder params left j s) := by
  induction left generalizing s j with
  | zero => exact fun _ _ => rfl
  | succ left ih =>
    have hpow : 2 ^ j ≤ 2 ^ 7 := Nat.pow_le_pow_right (by decide) (by omega)
    refine touches_bind (touches_mono ?_ (zpctx_touches params s _)) fun b t => ?_
    · rintro k rfl
      rw [band_eq]
      omega
    · split
      · refine touches_bind (touches_mono ?_ (binn_touches params t _ _)) fun _ _ _ _ => rfl
        rintro k ⟨-, hk⟩
        rw [band_eq] at hk
        omega
      · exact ih t (j + 1) (by omega)

/-- `RANKDEC` writes no context from 260 on (R181, R183). -/
theorem rankdec_touches {cid : Nat} (hcid : cid ≤ 2) : Touches (· < 260) s (rankdec params cid s) := by
  refine touches_bind (touches_mono ?_ (zpctx_touches params s _)) fun b t => ?_
  · rintro k rfl
    omega
  · split
    · exact fun _ _ => rfl
    · refine touches_bind (touches_mono ?_ (zpctx_touches params t _)) fun b u => ?_
      · rintro k rfl
        show 3 + cid < 260
        omega
      · split
        · exact fun _ _ => rfl
        · exact bandLadder_touches u 7 1 rfl

theorem contextId_le : contextId params s ≤ 2 := Nat.min_le_left _ _

theorem symdec_touches : Touches (· < 260) s (symdec params s) := by
  refine touches_bind (rankdec_touches s (contextId_le s)) fun r t => ?_
  split
  · trivial
  · exact fun _ _ => rfl

theorem symdecLoop_touches (n : Nat) : Touches (· < 260) s (symdecLoop params n s) := by
  induction n generalizing s with
  | zero => exact fun _ _ => rfl
  | succ n ih =>
    unfold symdecLoop
    split
    · exact touches_bind (symdec_touches s) fun _ t => ih t
    · exact fun _ _ => rfl

theorem ibwt_touches (A : Nat → Prop) : Touches A s (ibwt params s) := by
  refine all_mono (ibwt_all params s) ?_ ?_ (fun _ _ => trivial) (fun _ _ => trivial)
  · rintro _ t ⟨-, -, -, rfl, -⟩ _ _
    rfl
  · rintro e info t ⟨-, ⟨-, rfl⟩ | ⟨-, rfl⟩ | ⟨-, rfl⟩⟩ _ _ <;> rfl

theorem emit_touches (A : Nat → Prop) : Touches A s (emit s) := by
  refine all_mono (emit_all s) ?_ (fun _ _ _ h => h.elim) (fun _ _ => trivial) (fun _ _ => trivial)
  rintro _ t ⟨-, -, rfl⟩ _ _
  rfl

theorem block_touches : Touches (· < 260) s (block params s) := by
  refine touches_bind (blkhdr_touches _ params s) fun _ t => ?_
  split
  · exact fun _ _ => rfl
  · exact touches_bind (symdecLoop_touches t _) fun _ u => touches_bind (ibwt_touches u _) fun _ v => emit_touches v _

end Symbols

/-- A command writes the contexts what it performs writes, and none where it is not performed. -/
theorem ctx_of_exec {i : Instr} {s t : State} {A : Nat → Prop} (hsreset : i ≠ .sreset) (h : exec i s = .next t)
    (hA : Touches A s (perform i s)) (k : Nat) (hk : ¬ A k) : tableGet t.ctx k = tableGet s.ctx k := by
  rcases exec_next hsreset h with ⟨-, rfl⟩ | ⟨-, -, rfl⟩ | ⟨-, -, -, rfl⟩ | ⟨-, -, -, hperf | ⟨e, info, u, hperf, rfl⟩⟩
  · rfl
  · rfl
  · rfl
  · exact all_ok (P := fun (_ : Unit) t => ∀ k, ¬ A k → tableGet t.ctx k = tableGet s.ctx k) hA hperf k hk
  · exact all_raise (R := fun _ _ t => ∀ k, ¬ A k → tableGet t.ctx k = tableGet s.ctx k) hA hperf k hk

theorem storeRes_touches {A : Nat → Prop} {s : State} {r : Res Nat} (h : Touches A s r) : Touches A s (storeRes r) :=
  touches_bind h fun _ _ _ _ => rfl

theorem bitValue_touches {A : Nat → Prop} {s : State} {r : Res Bool} (h : Touches A s r) : Touches A s (bitValue r) :=
  touches_bind h fun _ _ _ _ => rfl

/-- Settles O14. -/
theorem contextsAreWrittenAtTheirIndex : Obligations.ContextsAreWrittenAtTheirIndex := by
  intro s t
  refine ⟨fun c h => ?_, fun nb base h k hk => ?_, fun h k hk => ?_, fun h k hk => ?_, fun i hi h => ?_⟩
  · exact ctx_of_exec (by simp) h (storeRes_touches (bitValue_touches (zpctx_touches params s c.toNat)))
  · exact ctx_of_exec (by simp) h (storeRes_touches (binn_touches params s nb.toNat base.toNat)) k (by omega)
  · exact ctx_of_exec (by simp) h (symdec_touches s) k (by omega)
  · exact ctx_of_exec (by simp) h (block_touches s) k (by omega)
  · have htouch : Touches (fun _ => False) s (perform i s) := by
      rcases hi with rfl | rfl | rfl | ⟨n, rfl⟩
      · exact blkhdr_touches _ params s
      · exact preload_touches _ params s
      · exact storeRes_touches (bitValue_touches (zpraw_touches _ params s))
      · exact storeRes_touches (rawn_touches _ params s n.toNat)
    have hsreset : i ≠ .sreset := by rcases hi with rfl | rfl | rfl | ⟨n, rfl⟩ <;> simp
    exact table_ext fun k _ => ctx_of_exec hsreset h htouch k id

end Sys2Proof.Machine
end

section
/-! `BLKHDR` (R221, R83) as raw decision commands: the size, the checks on it, and the speed field. -/

namespace Sys2Proof.Machine

/-- The state with the size register written (R34). -/
def sized (v : Nat) (s : State) : State := s.setBlk { s.blk with size := BitVec.ofNat 24 v }

/-- `BLKHDR` once the size is read (R221). -/
def headerRest (p : Params) (v : Nat) (s : State) : Res Unit :=
  if v = 0 then .ok () ((sized v s).setSt .done)
  else if MAXSIZE < v then .raise .blockTooLarge (BitVec.ofNat 32 v) (sized v s)
  else (fshiftField p (sized v s)).bind fun f s => .ok () ((s.setBlk (freshBlock p f s.blk)).setSt .block)

theorem blkhdr_eq (p : Params) (s : State) : blkhdr p s = (rawn p 24 s).bind fun v t => headerRest p v t := rfl

section Raw

variable {p : Params} {s t : State}

/-- A raw operation changes the coder registers only. -/
theorem eq_setCoder_of_touches {α : Type} {r : Res α} {v : α} {P : α → State → Prop} (hop : CoderOp p s r P)
    (htouch : Touches (fun _ => False) s r) (hr : r = .ok v t) : t = s.setCoder t.coder := by
  obtain ⟨hframe, -⟩ := all_ok hop hr
  have hctx : t.ctx = s.ctx := table_ext fun k _ =>
    all_ok (P := fun _ t => ∀ k, ¬ False → tableGet t.ctx k = tableGet s.ctx k) htouch hr k id
  rw [hframe, hctx]
  rfl

theorem rawn_eq_setCoder {n v : Nat} (hr : rawn p n s = .ok v t) : t = s.setCoder t.coder :=
  eq_setCoder_of_touches (rawn_coderOp p s n) (rawn_touches _ p s n) hr

theorem fshiftField_eq_setCoder {f : Nat} (hr : fshiftField p s = .ok f t) : t = s.setCoder t.coder :=
  eq_setCoder_of_touches (fshiftField_coderOp p s) (fshiftField_touches _ p s) hr

end Raw

section Speed

theorem rawCommands_one (s : State) : rawCommands 1 0 s = decisionOutcome (exec .zpraw s) := by
  rw [rawCommands_succ]
  rcases decisionOutcome (exec .zpraw s) with o | ⟨b, t⟩
  · rfl
  · show Except.ok (2 * 0 + b, t) = _
    rw [Nat.mul_zero, Nat.zero_add]

theorem speedCommands_eq (s : State) : speedCommands s =
    (decisionOutcome (exec .zpraw s)).bind fun e =>
      if e.1 = 1 then (decisionOutcome (exec .zpraw e.2)).bind fun c => .ok (1 + c.1, c.2) else .ok (0, e.2) := by
  rw [speedCommands, rawCommands_one]
  rcases decisionOutcome (exec .zpraw s) with o | ⟨b, t⟩
  · rfl
  · show (if b = 1 then _ else _) = (if b = 1 then _ else _)
    rw [rawCommands_one]
    rcases decisionOutcome (exec .zpraw t) with o | ⟨c, u⟩ <;> rfl

/-- The speed field against its commands. -/
theorem speedCommands_sameDecisions {s : State} (w : BitVec 24) (hst : s.st = .ready) :
    SameDecisions 0 0 (fshiftField params s) (speedCommands (s.setRes w)) := by
  rw [speedCommands_eq, exec_zpraw (s := s.setRes w) hst]
  show SameDecisions 0 0 (fshiftUnary params s) _
  refine sameDecisions_step (l := fun b t =>
      if b = 1 then (decisionOutcome (exec .zpraw t)).bind fun c => .ok (1 + c.1, c.2) else .ok (0, t))
    (zpraw_related (streamRel_setRes w) params rfl) (zpraw_coderOp _ _) hst fun b t ht => ?_
  cases b with
  | true =>
    show SameDecisions 0 0 ((zpraw params t).bind fun b s => .ok (1 + b.toNat) s)
      ((decisionOutcome (exec .zpraw (t.setRes 1))).bind fun c => .ok (1 + c.1, c.2))
    rw [exec_zpraw (s := t.setRes 1) ht]
    exact sameDecisions_step (l := fun c u => .ok (1 + c, u))
      (zpraw_related (streamRel_setRes _) params rfl) (zpraw_coderOp _ _) ht fun c u _ => ⟨_, _, rfl, rfl⟩
  | false => exact ⟨0, 0, rfl, rfl⟩

variable {p : Params} {s : State}

/-- The speed field takes at most two raw decisions. -/
theorem fshiftUnary_streamOp (h : CoderInv s) :
    StreamOp p s (fshiftUnary p s) (fun _ _ => True) (¬ Covers (2 + extraBit s) s) := by
  refine streamOp_bind (streamOp_mono (zpraw_streamOp p h) (fun _ _ _ _ _ h => h) ?_) fun b t _ hinv _ hd => ?_
  · exact fun hshort hc => not_rawShort_of_covers (m := 1) (covers_mono (by omega) hc) hshort
  · have hstep : Covers (2 + extraBit s) s → Covers (1 + extraBit t) t := fun hc =>
      covers_mono (by omega) (covers_of_rawDecision (m := 1) h hd (covers_mono (by omega) hc))
    split
    · refine streamOp_bind (streamOp_mono (zpraw_streamOp p hinv) (fun _ _ _ _ _ h => h) ?_)
        fun _ _ _ hinv' _ _ => streamOp_ok hinv' trivial
      exact fun hshort hc => not_rawShort_of_covers (m := 0) (hstep hc) hshort
    · exact streamOp_ok hinv trivial

end Speed

section Header

theorem exec_blkhdr {s : State} (hst : s.st = .ready) :
    exec .blkhdr s = finish ((rawn params 24 s).bind fun v t => headerRest params v t) :=
  exec_ready hst rfl rfl

end Header

section Rest

variable {v : Nat} {s t : State}

theorem headerRest_zero (p : Params) (t : State) :
    headerRest p 0 t = .ok () ((sized 0 t).setSt .done) := by
  rw [headerRest, if_pos rfl]

theorem headerRest_tooLarge (p : Params) (t : State) (h : MAXSIZE < v) :
    headerRest p v t = .raise .blockTooLarge (BitVec.ofNat 32 v) (sized v t) := by
  rw [headerRest, if_neg (by omega), if_pos h]

theorem headerRest_block (p : Params) (t : State) (hpos : 1 ≤ v) (hle : v ≤ MAXSIZE) : headerRest p v t =
    (fshiftField p (sized v t)).bind fun f s =>
      .ok () ((s.setBlk (freshBlock p f s.blk)).setSt .block) := by
  rw [headerRest, if_neg (by omega), if_neg (by omega)]

end Rest

section Speeds

variable {s : State}

theorem speedCommands_of_fshiftField_ok {f : Nat} {y : State} (w : BitVec 24) (hst : s.st = .ready)
    (hr : fshiftField params s = .ok f y) : f ≤ 2 ∧ ∃ w', speedCommands (s.setRes w) = .ok (f, y.setRes w') := by
  have hsame := speedCommands_sameDecisions w hst
  obtain ⟨-, -, hf⟩ := all_ok (fshiftField_coderOp params s) hr
  rw [hr] at hsame
  obtain ⟨w', f', hq, hf'⟩ := hsame
  obtain rfl : f' = f := hf'
  exact ⟨hf rfl, w', hq⟩

/-- Four more bytes are enough for a header: 24 bits of the size, two of the speed field, and one extra bit. -/
theorem header_supplied (h : CoderInv s) (hs : Supplied params 4 s) : ∃ v t, rawn params 24 s = .ok v t ∧ CoderInv t ∧
    Covers (2 + extraBit t) t := by
  have hextra := extraBit_le s
  obtain ⟨v, t, hr, -, hinv, -, -, -, -, hcovers⟩ := streamOp_returns (rawn_streamOp params (n := 24) h) hs.2.1
    (not_not.mpr (covers_of_supplied (by omega) h hs))
  exact ⟨v, t, hr, hinv, covers_mono (by omega) (hcovers 2 (covers_of_supplied (by omega) h hs))⟩

end Speeds

/-- Settles O40. -/
theorem blkhdrReadsTheHeader : Obligations.BlkhdrReadsTheHeader := by
  intro s hst
  have hexec := exec_blkhdr hst
  constructor
  · by_cases hr : ∃ v t, rawn params 24 s = .ok v t
    · obtain ⟨v, t, hr⟩ := hr
      obtain ⟨hv, w, hq⟩ := rawCommands_of_rawn_ok hst hr
      obtain ⟨c, rfl⟩ : ∃ c, t = s.setCoder c := ⟨_, rawn_eq_setCoder hr⟩
      rw [hr, bind_ok] at hexec
      rw [hq, hexec]
      refine ⟨hv, fun h0 => ?_, fun hbig => ?_, fun hpos hle => ?_⟩
      · subst h0
        rw [headerRest_zero]
        rfl
      · rw [headerRest_tooLarge params _ hbig]
        rfl
      · rw [headerRest_block params _ hpos hle]
        by_cases hr : ∃ f y, fshiftField params (sized v (s.setCoder c)) = .ok f y
        · obtain ⟨f, y, hr⟩ := hr
          obtain ⟨hf, w', hq'⟩ := speedCommands_of_fshiftField_ok (s := sized v (s.setCoder c)) w hst hr
          have hq'' : speedCommands { (s.setCoder c).setRes w with blk := { s.blk with size := BitVec.ofNat 24 v } } =
            .ok (f, y.setRes w') := hq'
          have hy := fshiftField_eq_setCoder hr
          rw [hq'', hr, bind_ok, hy]
          exact ⟨hf, rfl⟩
        · obtain ⟨o, hq', hends⟩ := sameDecisions_error
            (fun f s => .ok () ((s.setBlk (freshBlock params f s.blk)).setSt .block))
            (speedCommands_sameDecisions (s := sized v (s.setCoder c)) w hst) (fshiftField_coderOp params _) fun f y h => hr ⟨f, y, h⟩
          have hq'' : speedCommands { (s.setCoder c).setRes w with blk := { s.blk with size := BitVec.ofNat 24 v } } =
            .error o := hq'
          rw [hq'']
          exact hends
    · obtain ⟨o, hq, hends⟩ := sameDecisions_error (fun v t => headerRest params v t)
        (rawn_sameDecisions 24 hst) (rawn_coderOp params s 24) fun v t h => hr ⟨v, t, h⟩
      rw [hq, hexec]
      exact hends
  · intro hinv hs
    obtain ⟨v, t, hr, hinvt, hcovers⟩ := header_supplied hinv hs
    obtain ⟨-, w, hq⟩ := rawCommands_of_rawn_ok hst hr
    have hlen : t.len = s.len := by rw [rawn_eq_setCoder hr]; rfl
    rw [hr, bind_ok] at hexec
    rcases Nat.eq_zero_or_pos v with rfl | hpos
    · rw [headerRest_zero] at hexec
      exact ⟨0, _, _, hq, hexec, .inl ⟨rfl, rfl⟩⟩
    · by_cases hle : v ≤ MAXSIZE
      · rw [headerRest_block params t hpos hle] at hexec
        obtain ⟨f, y, hf, -⟩ := streamOp_returns
          (fshiftUnary_streamOp (p := params) (s := sized v t) hinvt)
          (hlen ▸ hs.2.1) (not_not.mpr hcovers)
        have hf : fshiftField params (sized v t) = .ok f y := hf
        rw [hf] at hexec
        exact ⟨v, _, _, hq, hexec, .inr (.inl ⟨hpos, hle, rfl⟩)⟩
      · rw [headerRest_tooLarge params t (by omega)] at hexec
        exact ⟨v, _, _, hq, hexec, .inr (.inr ⟨by unfold MAXSIZE at hle; omega, rfl, rfl⟩)⟩

end Sys2Proof.Machine
end

section
/-! The rank code (R84 to R86, R183): `RANKDEC` returns a rank exactly when the decisions of the rank's path, in order,
have the path's bits. -/

namespace Sys2Proof.Machine

section Paths

variable {p : Params} {s t : State}

theorem decisionsAlong_nil : decisionsAlong p [] s = some t ↔ s = t := Option.some_inj

theorem decisionsAlong_cons {c : Nat} {b : Bool} {rest : List (Nat × Bool)} :
    decisionsAlong p ((c, b) :: rest) s = some t ↔
      ∃ u, zpctx p c s = .ok b u ∧ decisionsAlong p rest u = some t := by
  rw [decisionsAlong]
  cases zpctx p c s with
  | ok x u =>
    show (if x = b then _ else _) = _ ↔ _
    split
    next h =>
      subst h
      simp
    next h => simp [h]
  | raise e info u => simp
  | stop f => simp
  | refuse f => simp

/-- What a sequence returns, its parts return. -/
theorem bind_eq_ok {α β : Type} {r : Res α} {k : α → State → Res β} {x : β} :
    r.bind k = .ok x t ↔ ∃ v u, r = .ok v u ∧ k v u = .ok x t := by
  cases r with
  | ok v u => simp
  | raise e info u => simp
  | stop f => simp
  | refuse f => simp

/-- The decisions of a tree of `nb` levels that lead to the leaf `x`: the node after `k` of them is the first `k + 1` bits
of `x` (R85). -/
def treePath (base nb x : Nat) : List (Nat × Bool) :=
  (List.range nb).map fun k => (treeContext base (x / 2 ^ (nb - k)), x.testBit (nb - 1 - k))

theorem treePath_succ (base nb x : Nat) :
    treePath base (nb + 1) x = (treeContext base (x / 2 ^ (nb + 1)), x.testBit nb) :: treePath base nb x := by
  rw [treePath, List.range_succ_eq_map, List.map_cons, List.map_map, treePath]
  congr 1
  refine List.map_congr_left fun k _ => ?_
  show (treeContext base (x / 2 ^ (nb + 1 - (k + 1))), x.testBit (nb + 1 - 1 - (k + 1))) = _
  rw [show nb + 1 - (k + 1) = nb - k by omega, show nb + 1 - 1 - (k + 1) = nb - 1 - k by omega]

theorem div_eq_two_mul_add_iff {x n nb : Nat} {b : Bool} :
    x / 2 ^ nb = 2 * n + b.toNat ↔ x / 2 ^ (nb + 1) = n ∧ x.testBit nb = b := by
  rw [Nat.testBit_eq_decide_div_mod_eq, pow_succ, ← Nat.div_div_eq_div_mul]
  cases b with
  | true =>
    rw [decide_eq_true_iff]
    show _ = 2 * n + 1 ↔ _
    omega
  | false =>
    rw [decide_eq_false_iff_not]
    show _ = 2 * n + 0 ↔ _
    omega

theorem treeLoop_eq_ok_iff {base nb n x : Nat} : treeLoop p base nb n s = .ok x t ↔
    x / 2 ^ nb = n ∧ decisionsAlong p (treePath base nb x) s = some t := by
  induction nb generalizing s n with
  | zero =>
    show Res.ok n s = .ok x t ↔ x / 1 = n ∧ decisionsAlong p [] s = some t
    rw [decisionsAlong_nil, Nat.div_one]
    constructor
    · rintro ⟨⟩
      exact ⟨rfl, rfl⟩
    · rintro ⟨rfl, rfl⟩
      rfl
  | succ nb ih =>
    rw [treeLoop, bind_eq_ok, treePath_succ, decisionsAlong_cons]
    simp only [ih, div_eq_two_mul_add_iff]
    constructor
    · rintro ⟨b, u, hz, ⟨rfl, rfl⟩, hrest⟩
      exact ⟨rfl, u, hz, hrest⟩
    · rintro ⟨rfl, u, hz, hrest⟩
      exact ⟨_, u, hz, ⟨rfl, rfl⟩, hrest⟩

theorem binn_eq_ok_iff {base nb y : Nat} : binn p nb base s = .ok y t ↔
    y < 2 ^ nb ∧ decisionsAlong p (treePath base nb (2 ^ nb + y)) s = some t := by
  rw [binn, bind_eq_ok]
  simp only [treeLoop_eq_ok_iff, Res.ok.injEq]
  have hpow : 0 < 2 ^ nb := Nat.two_pow_pos nb
  constructor
  · rintro ⟨x, u, ⟨hroot, hpath⟩, rfl, rfl⟩
    have hx : 2 ^ nb ≤ x ∧ x < 2 * 2 ^ nb := by
      rw [Nat.div_eq_iff hpow] at hroot
      omega
    rw [show 2 ^ nb + (x - 2 ^ nb) = x by omega]
    exact ⟨by omega, hpath⟩
  · rintro ⟨hy, hpath⟩
    refine ⟨2 ^ nb + y, t, ⟨?_, hpath⟩, by omega, rfl⟩
    rw [Nat.div_eq_iff hpow]
    omega

end Paths

section Ladder

variable {s t : State}

/-- The decisions of the ladder from band `j` on, `left` bands of it, that lead to the rank `r` (R86). -/
def ladderPath (left j r : Nat) : List (Nat × Bool) :=
  match left with
  | 0 => []
  | left + 1 =>
    if r < 2 ^ (j + 1) then (band params j, true) :: treePath (band params j + 1) j r
    else (band params j, false) :: ladderPath left (j + 1) r

theorem bandLadder_eq_ok_iff {left j r : Nat} (hj : left + j = 8) : bandLadder params left j s = .ok r t ↔
    2 ^ j ≤ r ∧ r ≤ 256 ∧ decisionsAlong params (ladderPath left j r) s = some t := by
  induction left generalizing s j with
  | zero =>
    obtain rfl : j = 8 := by omega
    show Res.ok 256 s = .ok r t ↔ 256 ≤ r ∧ r ≤ 256 ∧ decisionsAlong params [] s = some t
    rw [decisionsAlong_nil]
    constructor
    · rintro ⟨⟩
      exact ⟨le_refl _, le_refl _, rfl⟩
    · rintro ⟨hlow, hhigh, rfl⟩
      rw [show r = 256 by omega]
  | succ left ih =>
    have hpow : 2 ^ (j + 1) = 2 ^ j + 2 ^ j := by ring
    have hmax : 2 ^ (j + 1) ≤ 2 ^ 8 := Nat.pow_le_pow_right (by decide) (by omega)
    have hnext := fun u => ih (s := u) (j := j + 1) (by omega)
    rw [bandLadder, bind_eq_ok, ladderPath]
    constructor
    · rintro ⟨b, u, hz, hrest⟩
      cases b with
      | true =>
        obtain ⟨y, v, hbinn, hr⟩ := bind_eq_ok.mp hrest
        obtain ⟨hy, hpath⟩ := binn_eq_ok_iff.mp hbinn
        cases hr
        rw [if_pos (by omega), decisionsAlong_cons]
        exact ⟨by omega, by omega, u, hz, hpath⟩
      | false =>
        obtain ⟨hlow, hhigh, hpath⟩ := (hnext u).mp hrest
        rw [if_neg (by omega), decisionsAlong_cons]
        exact ⟨by omega, hhigh, u, hz, hpath⟩
    · rintro ⟨hlow, hhigh, hpath⟩
      split at hpath
      next hband =>
        obtain ⟨u, hz, hpath⟩ := decisionsAlong_cons.mp hpath
        refine ⟨true, u, hz, bind_eq_ok.mpr ⟨r - 2 ^ j, t, binn_eq_ok_iff.mpr ⟨by omega, ?_⟩, ?_⟩⟩
        · rwa [show 2 ^ j + (r - 2 ^ j) = r by omega]
        · rw [show 2 ^ j + (r - 2 ^ j) = r by omega]
      next hband =>
        obtain ⟨u, hz, hpath⟩ := decisionsAlong_cons.mp hpath
        exact ⟨false, u, hz, (hnext u).mpr ⟨by omega, hhigh, hpath⟩⟩

/-- The ladder to a rank in the band `j + n`: the `n` bands below it are passed. -/
theorem ladderPath_band {left j n r : Nat} (hn : n < left) (hlow : 2 ^ (j + n) ≤ r) (hhigh : r < 2 ^ (j + n + 1)) :
    ladderPath left j r = ((List.range n).map fun k => (4 + 2 ^ (k + j), false)) ++
      (4 + 2 ^ (j + n), true) :: treePath (4 + 2 ^ (j + n) + 1) (j + n) r := by
  induction n generalizing left j with
  | zero =>
    obtain ⟨left, rfl⟩ : ∃ m, left = m + 1 := ⟨left - 1, by omega⟩
    rw [ladderPath, if_pos hhigh, band_eq]
    rfl
  | succ n ih =>
    obtain ⟨left, rfl⟩ : ∃ m, left = m + 1 := ⟨left - 1, by omega⟩
    have hpow : 2 ^ (j + 1) ≤ 2 ^ (j + (n + 1)) := Nat.pow_le_pow_right (by decide) (by omega)
    have hsum : j + 1 + n = j + (n + 1) := by omega
    have hrest := ih (left := left) (j := j + 1) (by omega) (by rwa [hsum]) (by rwa [hsum])
    rw [ladderPath, if_neg (by omega), hrest, hsum, band_eq, List.range_succ_eq_map, List.map_cons, List.map_map,
      List.cons_append, Nat.zero_add]
    congr 2
    refine List.map_congr_left fun k _ => ?_
    show (4 + 2 ^ (k + (j + 1)), false) = (4 + 2 ^ (k + 1 + j), false)
    rw [show k + (j + 1) = k + 1 + j by omega]

/-- The path of a rank of a band, in the words of the statements. -/
theorem rankPath_of_two_le {cid r : Nat} (hlow : 2 ≤ r) (hhigh : r ≤ 256) :
    rankPath cid r = (cid, false) :: (3 + cid, false) :: ladderPath 7 1 r := by
  rw [rankPath, if_neg (by omega), if_neg (by omega)]
  split
  next h =>
    subst h
    rfl
  next h =>
    have hlog : 2 ^ Nat.log2 r ≤ r := Nat.log2_self_le (by omega)
    have hlog' : r < 2 ^ (Nat.log2 r + 1) := Nat.lt_log2_self
    have hpos : 1 ≤ Nat.log2 r := (Nat.le_log2 (by omega)).mpr hlow
    have hlt : Nat.log2 r < 8 := (Nat.log2_lt (by omega)).mpr (by omega)
    obtain ⟨n, hn⟩ : ∃ n, Nat.log2 r = 1 + n := ⟨Nat.log2 r - 1, by omega⟩
    have hn7 : n < 7 := by omega
    rw [hn] at hlog hlog' ⊢
    rw [ladderPath_band (left := 7) (j := 1) hn7 hlog hlog']
    have htree : treePath (4 + 2 ^ (1 + n) + 1) (1 + n) r = (List.range (1 + n)).map fun k =>
        (4 + 2 ^ (1 + n) + r / 2 ^ (1 + n - k), r.testBit (n - k)) := by
      refine List.map_congr_left fun k _ => ?_
      rw [treeContext, show 1 + n - 1 - k = n - k by omega]
      generalize r / 2 ^ (1 + n - k) = node
      congr 1
      omega
    rw [htree]
    dsimp only
    rw [show 1 + n - 1 = n by omega]
    rfl

variable {cid r : Nat}

/-- `RANKDEC` and the path of a rank (R84 to R86, R183). -/
theorem rankdec_eq_ok_iff : rankdec params cid s = .ok r t ↔
    r ≤ 256 ∧ decisionsAlong params (rankPath cid r) s = some t := by
  have hladder := fun u => bandLadder_eq_ok_iff (s := u) (t := t) (left := 7) (j := 1) (r := r) rfl
  rw [rankdec, bind_eq_ok]
  constructor
  · rintro ⟨b, u, hz, hrest⟩
    cases b with
    | true =>
      cases hrest
      exact ⟨by omega, decisionsAlong_cons.mpr ⟨_, hz, rfl⟩⟩
    | false =>
      obtain ⟨b, v, hz', hrest⟩ := bind_eq_ok.mp hrest
      cases b with
      | true =>
        cases hrest
        exact ⟨by omega, decisionsAlong_cons.mpr ⟨u, hz, decisionsAlong_cons.mpr ⟨_, hz', rfl⟩⟩⟩
      | false =>
        obtain ⟨hlow, hhigh, hpath⟩ := (hladder v).mp hrest
        rw [rankPath_of_two_le hlow hhigh]
        exact ⟨hhigh, decisionsAlong_cons.mpr ⟨u, hz, decisionsAlong_cons.mpr ⟨v, hz', hpath⟩⟩⟩
  · rintro ⟨hhigh, hpath⟩
    rcases Nat.lt_or_ge r 2 with hr | hlow
    · interval_cases r
      · obtain ⟨u, hz, hpath⟩ := decisionsAlong_cons.mp hpath
        cases decisionsAlong_nil.mp hpath
        exact ⟨true, _, hz, rfl⟩
      · obtain ⟨u, hz, hpath⟩ := decisionsAlong_cons.mp hpath
        obtain ⟨v, hz', hpath⟩ := decisionsAlong_cons.mp hpath
        cases decisionsAlong_nil.mp hpath
        exact ⟨false, u, hz, bind_eq_ok.mpr ⟨true, _, hz', rfl⟩⟩
    · rw [rankPath_of_two_le hlow hhigh] at hpath
      obtain ⟨u, hz, hpath⟩ := decisionsAlong_cons.mp hpath
      obtain ⟨v, hz', hpath⟩ := decisionsAlong_cons.mp hpath
      exact ⟨false, u, hz, bind_eq_ok.mpr ⟨false, v, hz', (hladder v).mpr ⟨hlow, hhigh, hpath⟩⟩⟩

end Ladder

/-- The contexts of a tree of `nb` levels (R85). -/
theorem treePath_context_lt {base nb x : Nat} (hx : x < 2 ^ (nb + 1)) {e : Nat × Bool} (he : e ∈ treePath base nb x) :
    e.1 + 1 < base + 2 ^ nb := by
  obtain ⟨k, hk, rfl⟩ := List.mem_map.mp he
  have hk : k < nb := List.mem_range.mp hk
  have hnode : x / 2 ^ (nb - k) < 2 ^ (k + 1) := by
    rw [Nat.div_lt_iff_lt_mul (Nat.two_pow_pos _), ← pow_add]
    rwa [show k + 1 + (nb - k) = nb + 1 by omega]
  have hle : 2 ^ (k + 1) ≤ 2 ^ nb := Nat.pow_le_pow_right (by decide) (by omega)
  show treeContext base _ + 1 < _
  unfold treeContext
  generalize x / 2 ^ (nb - k) = node at hnode ⊢
  omega

theorem ladderPath_context_le {left j r : Nat} (hj : left + j = 8) {e : Nat × Bool} (he : e ∈ ladderPath left j r) :
    e.1 ≤ 259 := by
  induction left generalizing j with
  | zero => cases he
  | succ left ih =>
    have hpow : 2 ^ j ≤ 2 ^ 7 := Nat.pow_le_pow_right (by decide) (by omega)
    rw [ladderPath, band_eq] at he
    split at he
    next hr =>
      rcases List.mem_cons.mp he with rfl | he
      · show 4 + 2 ^ j ≤ 259
        omega
      · have := treePath_context_lt hr he
        omega
    next =>
      rcases List.mem_cons.mp he with rfl | he
      · show 4 + 2 ^ j ≤ 259
        omega
      · exact ih (by omega) he

theorem rankPath_context_le {cid r : Nat} (hcid : cid ≤ 2) (hr : r ≤ 256) {e : Nat × Bool} (he : e ∈ rankPath cid r) :
    e.1 ≤ 259 := by
  rcases Nat.lt_or_ge r 2 with hlow | hlow
  · interval_cases r
    · rcases List.mem_cons.mp he with rfl | he
      · show cid ≤ 259
        omega
      · cases he
    · rcases List.mem_cons.mp he with rfl | he
      · show cid ≤ 259
        omega
      · rcases List.mem_cons.mp he with rfl | he
        · show 3 + cid ≤ 259
          omega
        · cases he
  · rw [rankPath_of_two_le hlow hr] at he
    rcases List.mem_cons.mp he with rfl | he
    · show cid ≤ 259
      omega
    · rcases List.mem_cons.mp he with rfl | he
      · show 3 + cid ≤ 259
        omega
      · exact ladderPath_context_le rfl he

section Input

variable {p : Params} {s : State}

/-- A ladder of `left` bands takes at most `left + 7` decisions: it is longest when it ends in the last band. -/
theorem bandLadder_streamOp {left j : Nat} (h : CoderInv s) (hj : left + j = 8) :
    StreamOp p s (bandLadder p left j s) (fun _ _ => True) (bitsLeft s < 32 + 16 * (left + 7)) := by
  induction left generalizing s j with
  | zero => exact streamOp_ok h trivial
  | succ left ih =>
    refine streamOp_bind (streamOp_mono (zpctx_streamOp p _ h) (fun _ _ _ _ _ h => h) (by omega)) fun b t _ hinv _ hd => ?_
    have hbits := bitsLeft_of_ctxDecision p hd
    split
    · exact streamOp_bind (streamOp_mono (binn_streamOp p _ hinv) (fun _ _ _ _ _ h => h) (by omega))
        fun _ _ _ hinv' _ _ => streamOp_ok hinv' trivial
    · exact streamOp_mono (ih hinv (by omega)) (fun _ _ _ _ _ h => h) (by omega)

/-- `RANKDEC` takes at most 16 decisions (R144, R183). -/
theorem rankdec_streamOp (cid : Nat) (h : CoderInv s) :
    StreamOp p s (rankdec p cid s) (fun _ _ => True) (bitsLeft s < 32 + 16 * 16) := by
  refine streamOp_bind (streamOp_mono (zpctx_streamOp p _ h) (fun _ _ _ _ _ h => h) (by omega)) fun b t _ hinv _ hd => ?_
  have hbits := bitsLeft_of_ctxDecision p hd
  split
  · exact streamOp_ok hinv trivial
  · refine streamOp_bind (streamOp_mono (zpctx_streamOp p _ hinv) (fun _ _ _ _ _ h => h) (by omega))
      fun b u _ hinv' _ hd' => ?_
    have hbits' := bitsLeft_of_ctxDecision p hd'
    split
    · exact streamOp_ok hinv' trivial
    · exact streamOp_mono (bandLadder_streamOp hinv' rfl) (fun _ _ _ _ _ h => h) (by omega)

end Input

/-- Settles O33. -/
theorem rankdecFollowsTheLadder : Obligations.RankdecFollowsTheLadder := fun _ _ _ _ _ hr hpath =>
  rankdec_eq_ok_iff.mpr ⟨hr, hpath⟩

section Permutation

variable (p : Params) {r : Nat} {b : Block}

/-- Where the entry a rotation from rank `r` leaves at `j` came from (R185). -/
def rotSource (k r j : Nat) : Nat := if j = k then r else if k < j ∧ j ≤ r then j - 1 else j

theorem rotSource_lt {k : Nat} (hr : r < 256) {j : Nat} (hj : j < 256) : rotSource k r j < 256 := by
  unfold rotSource
  split_ifs <;> omega

theorem rotSource_injective {k : Nat} (hk : k ≤ r) {i j : Nat} (h : rotSource k r i = rotSource k r j) : i = j := by
  unfold rotSource at h
  split_ifs at h <;> omega

theorem mtfrot_mtf_rotSource (hr : r < 256) (j : Nat) :
    tableGet (mtfrot p r (tableGet b.mtf r) b).mtf j = tableGet b.mtf (rotSource (rotWalk p b r).1 r j) := by
  rw [mtfrot_mtf p b hr, movedUp, rotSource, apply_ite (tableGet b.mtf), apply_ite (tableGet b.mtf)]

theorem mtfrot_permutes (hr : r < 256) (h : MtfPermutes b) : MtfPermutes (mtfrot p r (tableGet b.mtf r) b) := by
  intro i hi j hj hij
  rw [mtfrot_mtf_rotSource p hr, mtfrot_mtf_rotSource p hr] at hij
  have hk : (rotWalk p b r).1 ≤ r := (rotWalk_ends p b).place_le.trans (Nat.min_le_left _ _)
  exact rotSource_injective hk (h _ (rotSource_lt hr hi) _ (rotSource_lt hr hj) hij)

/-- A table of 256 bytes that holds none twice holds them all. -/
theorem exists_of_mtfPermutes (h : MtfPermutes b) (v : Byte) : ∃ k < 256, tableGet b.mtf k = v := by
  have hinj : Function.Injective fun j : Fin 256 => (tableGet b.mtf j).toFin := fun i j hij =>
    Fin.ext (h i i.isLt j j.isLt (BitVec.eq_of_toFin_eq hij))
  obtain ⟨k, hk⟩ := Finite.surjective_of_injective hinj v.toFin
  exact ⟨k, k.isLt, BitVec.eq_of_toFin_eq hk⟩

end Permutation

/-- Settles O36: the rotation permutes the ranks, and 256 different bytes are all the bytes. -/
theorem mtfrotKeepsThePermutation : Obligations.MtfrotKeepsThePermutation := fun p _ _ hr h =>
  ⟨mtfrot_permutes p hr h, exists_of_mtfPermutes (mtfrot_permutes p hr h)⟩

section Symdec

variable {s : State}

theorem exec_symdec (hst : s.st = .block) : exec .symdec s = finish (symdec params s) :=
  exec_accepted (by rw [hst]; rfl) rfl (by rw [hst]; rfl)

/-- The state one position leaves, once its rank is decoded (R182). -/
def positioned (r : Nat) (s u : State) : State :=
  (u.setBlk (takeRank params r s.blk)).setSt (if s.blk.i.toNat + 1 = s.blk.size.toNat then .ranked else s.st)

theorem next_position {b : Block} (hi : b.i.toNat < b.size.toNat) (hsize : b.size.toNat ≤ MAXSIZE) :
    (b.i + 1).toNat = b.i.toNat + 1 := by
  rw [BitVec.toNat_add]
  exact Nat.mod_eq_of_lt (by unfold MAXSIZE at hsize; show _ + 1 < 2 ^ 23; omega)

theorem symdec_of_rankdec_ok {r : Nat} {u : State} (hi : s.blk.i.toNat < s.blk.size.toNat)
    (hsize : s.blk.size.toNat ≤ MAXSIZE) (hr : rankdec params (contextId params s) s = .ok r u) :
    symdec params s = .ok () (positioned r s u) := by
  obtain ⟨hframe, -⟩ := all_ok (rankdec_coderOp params s (contextId params s)) hr
  have hblk := coderFrame_blk hframe
  have hbi : (takeRank params r s.blk).i = s.blk.i + 1 := by rw [takeRank_frame]
  have hbsize : (takeRank params r s.blk).size = s.blk.size := by rw [takeRank_frame]
  rw [symdec, hr, bind_ok, if_neg (by rw [hblk]; omega)]
  dsimp only
  rw [hblk, hbi, hbsize, next_position hi hsize, coderFrame_st hframe]
  rfl

theorem positioned_dataRead {r : Nat} {u : State} (hframe : CoderFrame s u) (k : Nat) :
    (positioned r s u).dataRead k =
      if k = s.blk.i.toNat then tableGet s.blk.mtf (if r = 256 then 0 else r) else s.dataRead k := by
  have hepoch : (positioned r s u).resetCount = s.resetCount := by
    show u.resetCount = _
    exact coderFrame_resetCount hframe
  have hdata : (positioned r s u).blk.data =
      Memory.write s.blk.data s.blk.i.toNat (tableGet s.blk.mtf (if r = 256 then 0 else r)) := by
    show (takeRank params r s.blk).data = _
    rw [takeRank_frame]
  rw [State.dataRead, hepoch, hdata]
  exact (read_write _ _ _ _ _ _).trans (if_congr eq_comm rfl rfl)

end Symdec

/-- Settles O34. -/
theorem symdecDecodesOnePosition : Obligations.SymdecDecodesOnePosition := by
  intro s hst hi hsize
  have hexec := exec_symdec hst
  have hop := rankdec_coderOp params s (contextId params s)
  refine ⟨?_, fun hinv hs => ?_⟩
  · have hcid : min 2 s.blk.mtfno.toNat = contextId params s := rfl
    rw [hcid]
    cases hr : rankdec params (contextId params s) s with
    | ok r u =>
      rw [hr] at hop
      obtain ⟨hframe, hle⟩ := hop
      rw [symdec_of_rankdec_ok hi hsize hr] at hexec
      refine ⟨hle, positioned r s u, hexec, by rw [positioned, hframe]; rfl, by rw [← hst]; rfl,
        ?_, ?_, positioned_dataRead hframe, ?_, ?_, ?_⟩
      · show (takeRank params r s.blk).i.toNat = _
        rw [takeRank_frame]
        exact next_position hi hsize
      · show (takeRank params r s.blk).mtfno.toNat = _
        rw [takeRank_frame]
        exact Nat.mod_eq_of_lt (by omega)
      · rintro rfl
        refine ⟨?_, ?_, takeRank_marker params s.blk⟩
        · show (takeRank params 256 s.blk).markerpos = _
          rw [takeRank_frame]
          rfl
        · show (takeRank params 256 s.blk).mcount.toNat = _
          rw [takeRank_frame]
          exact Nat.mod_eq_of_lt (by omega)
      · intro hne
        refine ⟨?_, ?_, takeRank_rank params hne s.blk⟩
        · show (takeRank params r s.blk).markerpos = _
          rw [takeRank_frame]
          exact if_neg hne
        · show (takeRank params r s.blk).mcount = _
          rw [takeRank_frame]
          exact if_neg hne
      · show (takeRank params r s.blk).size = _ ∧ (takeRank params r s.blk).fshift = _ ∧
          (takeRank params r s.blk).posn = _ ∧ (takeRank params r s.blk).count = _ ∧
          (takeRank params r s.blk).last = _ ∧ (takeRank params r s.blk).ptr = _
        rw [takeRank_frame]
        exact ⟨rfl, rfl, rfl, rfl, rfl, rfl⟩
    | raise e info u =>
      rw [hr] at hop
      obtain ⟨rfl, hinfo, -, -, hframe⟩ := hop
      refine ⟨rfl, hinfo, ?_⟩
      rw [hexec, symdec, hr, bind_raise, finish, hframe]
      rfl
    | stop f =>
      show exec .symdec s = _
      rw [hexec, symdec, hr]
      rfl
    | refuse f =>
      rw [hr] at hop
      exact hop
  · have henough := le_deliverable hs
    obtain ⟨-, -, hlow, -⟩ := id hinv
    obtain ⟨r, u, hr, -⟩ := streamOp_returns (rankdec_streamOp (p := params) (contextId params s) hinv) hs.2.1
      (by unfold bitsLeft; omega)
    rw [symdec_of_rankdec_ok hi hsize hr] at hexec
    refine ⟨r, u, _, hr, hexec, ?_⟩
    show (if _ then SeqState.ranked else s.st) ≠ _
    rw [hst]
    split <;> simp

end Sys2Proof.Machine
end

section
/-! A session, command by command (`spec/45_orchestrator.md`): from a state whose coder and positions are in their ranges
an operation never stops, leaves such a state, gives no bit back, and says why it raises. -/

namespace Sys2Proof.Machine

theorem commandFrame_trans {s t u : State} (h : CommandFrame s t) (k : CommandFrame t u) : CommandFrame s u := by
  unfold CommandFrame at *
  rw [k, h]

/-- The part of the invariant the course of a session depends on: the coder (R32, R45) and the positions (R21, R22,
R34). -/
structure Core (s : State) : Prop where
  coder : InSession s.st → CoderInv s
  launched : InSession s.st → s.len.toNat ≤ params.inCap.toNat
  size_le : InBlock s.st → s.blk.size.toNat ≤ MAXSIZE
  block_pos : s.st = .block → s.blk.i.toNat < s.blk.size.toNat
  ranked_pos : s.st = .ranked → 0 < s.blk.size.toNat ∧ s.blk.i.toNat = s.blk.size.toNat

theorem core_of_inv {s : State} (h : Inv s) : Core s := ⟨h.coder, h.launched, h.size_le, h.block_pos, h.ranked_pos⟩

theorem core_of_ready {s : State} (hst : s.st = .ready) (hinv : CoderInv s) (hcap : s.len.toNat ≤ params.inCap.toNat) :
    Core s where
  coder _ := hinv
  launched _ := hcap
  size_le h := by simp [hst, InBlock] at h
  block_pos h := by simp [hst] at h
  ranked_pos h := by simp [hst] at h

theorem core_of_outside {s : State} (hst : ¬ InSession s.st) : Core s where
  coder h := absurd h hst
  launched h := absurd h hst
  size_le h := absurd (.inr h) hst
  block_pos h := absurd (.inr (.inl h)) hst
  ranked_pos h := absurd (.inr (.inr (.inl h))) hst

theorem core_of_coderFrame {s t : State} (h : Core s) (hframe : CoderFrame s t) (hinv : CoderInv t) : Core t where
  coder _ := hinv
  launched hst := coderFrame_len hframe ▸ h.launched (coderFrame_st hframe ▸ hst)
  size_le hst := coderFrame_blk hframe ▸ h.size_le (coderFrame_st hframe ▸ hst)
  block_pos hst := coderFrame_blk hframe ▸ h.block_pos (coderFrame_st hframe ▸ hst)
  ranked_pos hst := coderFrame_blk hframe ▸ h.ranked_pos (coderFrame_st hframe ▸ hst)

/-- What an operation leaves for fault entry (R250 to R253), by the fault it raises. -/
def RaisesFault (e : Err) (info : Word32) (u : State) : Prop :=
  match e with
  | .truncatedStream => info = u.coder.rp ∧ u.coder.rp = u.len ∧ u.coder.delay = 0
  | .blockTooLarge => info.toNat = u.blk.size.toNat ∧ MAXSIZE < info.toNat ∧ info.toNat < 2 ^ 24
  | .corruptBlock => info = 1 ∨ info = 2 ∨ info = 3
  | _ => False

/-- An operation of a session begun in `s`: it never stops; where it returns, the core of the invariant holds, no bit has
been given back, and `P` holds; it raises as `RaisesFault` says, and is refused only for an output too long, where `Over`
holds. -/
def SessionOp {α : Type} (s : State) (r : Res α) (P : α → State → Prop) (Over : Prop) : Prop :=
  r.All (fun v t => CommandFrame s t ∧ Core t ∧ bitsLeft t ≤ bitsLeft s ∧ P v t)
    (fun e info u => CommandFrame s u ∧ RaisesFault e info u) (fun _ => False)
    (fun f => f = .outputTooLong ∧ Over)

section Rules

variable {α β : Type} {s : State} {r : Res α} {P Q : α → State → Prop} {Over Over' : Prop}

theorem sessionOp_ok {v : α} (hs : Core s) (hp : P v s) : SessionOp s (.ok v s) P Over :=
  ⟨commandFrame_refl s, hs, le_refl _, hp⟩

theorem sessionOp_mono (h : SessionOp s r P Over)
    (hPQ : ∀ v t, CommandFrame s t → Core t → bitsLeft t ≤ bitsLeft s → P v t → Q v t) (hOver : Over → Over') :
    SessionOp s r Q Over' :=
  all_mono h (fun v t ⟨hf, hc, hb, hp⟩ => ⟨hf, hc, hb, hPQ v t hf hc hb hp⟩) (fun _ _ _ h => h) (fun _ h => h)
    (fun _ ⟨hf, ho⟩ => ⟨hf, hOver ho⟩)

theorem sessionOp_bind {k : α → State → Res β} {Q : β → State → Prop} (h : SessionOp s r P Over)
    (hk : ∀ v t, CommandFrame s t → Core t → bitsLeft t ≤ bitsLeft s → P v t → SessionOp t (k v t) Q Over) :
    SessionOp s (r.bind k) Q Over :=
  all_bind h fun v t ⟨hf, hc, hb, hp⟩ => all_mono (hk v t hf hc hb hp)
    (fun _ _ ⟨hf', hc', hb', hq⟩ => ⟨commandFrame_trans hf hf', hc', hb'.trans hb, hq⟩)
    (fun _ _ _ ⟨hf', hr⟩ => ⟨commandFrame_trans hf hf', hr⟩) (fun _ h => h) (fun _ h => h)

theorem sessionOp_eq (h : SessionOp s r P Over) : SessionOp s r (fun v t => r = .ok v t ∧ P v t) Over := by
  cases r with
  | ok v t =>
    obtain ⟨hf, hc, hb, hp⟩ := h
    exact ⟨hf, hc, hb, rfl, hp⟩
  | raise e info u => exact h
  | stop f => exact h
  | refuse f => exact h

/-- An operation begun after a change of registers that leaves the bits as they are. -/
theorem sessionOp_after {t : State} (hf : CommandFrame s t) (hbits : bitsLeft t = bitsLeft s)
    (h : SessionOp t r P Over) : SessionOp s r P Over :=
  all_mono h (fun _ _ ⟨hf', hc, hb, hp⟩ => ⟨commandFrame_trans hf hf', hc, hbits ▸ hb, hp⟩)
    (fun _ _ _ ⟨hf', hr⟩ => ⟨commandFrame_trans hf hf', hr⟩) (fun _ h => h) (fun _ h => h)

/-- A raise of the source, as fault entry finds it. -/
theorem raisesFault_of_truncated {e : Err} {info : Word32} {u : State} (h : RaisesTruncated s e info u)
    (hend : u.coder.rp = u.len) : RaisesFault e info u := by
  obtain ⟨rfl, hinfo, -, hdelay, -⟩ := h
  exact ⟨hinfo, hend, hdelay⟩

/-- An operation of the coder in a session. -/
theorem sessionOp_of_streamOp {Short : Prop} (h : Core s) (hst : InSession s.st) (hop : StreamOp params s r P Short) :
    SessionOp s r (fun v t => CoderFrame s t ∧ P v t) Over :=
  all_mono hop
    (fun _ _ ⟨hf, hi, hb, hp⟩ => ⟨commandFrame_of_coderFrame hf, core_of_coderFrame h hf hi, hb, hf, hp⟩)
    (fun _ _ _ ⟨hr, hend, _⟩ => ⟨commandFrame_of_coderFrame (raisesTruncated_frame hr), raisesFault_of_truncated hr hend⟩)
    (fun _ ⟨_, hcap⟩ => absurd (h.launched hst) (Nat.not_le.mpr hcap)) (fun _ h => h.elim)

theorem core_setRes (h : Core s) (v : BitVec 24) : Core (s.setRes v) :=
  ⟨h.coder, h.launched, h.size_le, h.block_pos, h.ranked_pos⟩

theorem sessionOp_storeRes {r : Res Nat} {P : Nat → State → Prop} (h : SessionOp s r P Over) :
    SessionOp s (storeRes r) (fun _ t => ∃ v u, P v u ∧ t = u.setRes (BitVec.ofNat 24 v)) Over :=
  sessionOp_bind h fun v t _ hc _ hp => ⟨rfl, core_setRes hc _, le_refl _, v, t, hp, rfl⟩

end Rules

/-- `PRELOAD` in a session (R112). -/
theorem preload_streamOp {s : State} (h : CoderInv s) : StreamOp params s (preload params s) (fun _ _ => True) True := by
  obtain ⟨ha, hfence, hlow, hhigh, hrp, hdelay⟩ := h
  refine all_mono (preload_all params hrp) ?_ ?_ (fun _ h => h) (fun _ h => h)
  · rintro _ t ⟨rfl, hle⟩
    have hcount : 16 ≤ s.coder.scount.toNat + 8 * refillBytes s.coder.scount.toNat ∧
        s.coder.scount.toNat + 8 * refillBytes s.coder.scount.toNat ≤ 32 := by
      unfold refillBytes
      split <;> omega
    have hscount := pulled_scount_toNat (s := s) (c := s.coder) (n := refillBytes s.coder.scount.toNat) (by omega)
    have hleft := deliverable_pulled (n := refillBytes s.coder.scount.toNat) hrp
    have hdelay' : 1 ≤ (pulled s s.coder (refillBytes s.coder.scount.toNat)).delay.toNat := by
      rw [pulled_delay_toNat]
      unfold deliverable at hle
      omega
    refine ⟨coderFrame_setCoder _ _, ⟨ha, hfence, ?_, ?_, pulled_rp_le hrp _, hdelay'⟩, ?_, trivial⟩
    · rw [setCoder_coder, hscount]
      exact hcount.1
    · rw [setCoder_coder, hscount]
      exact hcount.2
    · rw [bitsLeft, hleft, bitsLeft, setCoder_coder, hscount]
      omega
  · rintro e info t ⟨rfl, rfl, rfl, hlt⟩
    have hbytes := refillBytes_le s.coder.scount.toNat
    have hend : (pulled s s.coder (deliverable s)).rp = s.len := by
      apply BitVec.eq_of_toNat_eq
      rw [pulled_rp_toNat hrp]
      unfold deliverable
      omega
    exact ⟨⟨rfl, hend.symm, le_of_eq (congrArg BitVec.toNat hend.symm), rfl, coderFrame_setCoder _ _⟩, hend, trivial⟩

section Operations

variable {s : State} {Over : Prop} (h : Core s)
include h

/-- `BLKHDR` in a session (R221): it takes the 24 bits of the size at least. -/
theorem blkhdr_sessionOp (hst : s.st = .ready) : SessionOp s (blkhdr params s)
    (fun _ t => bitsLeft t + 24 ≤ bitsLeft s ∧ t.olen = s.olen ∧
      ((t.st = .done ∧ t.blk.size = 0) ∨ (t.st = .block ∧ t.blk.i = 0 ∧ 0 < t.blk.size.toNat))) Over := by
  have hsession : InSession s.st := .inl hst
  rw [blkhdr_eq]
  refine sessionOp_bind (sessionOp_of_streamOp h hsession (rawn_streamOp params (n := 24) (h.coder hsession)))
    fun v t _ hct _ ⟨hframe, hv, _, hbits, _⟩ => ?_
  have hstt : t.st = .ready := (coderFrame_st hframe).trans hst
  have hsession' : InSession t.st := .inl hstt
  have holen := coderFrame_olen hframe
  have hsize : v < 2 ^ 24 → (sized v t).blk.size.toNat = v := fun hv => Nat.mod_eq_of_lt hv
  rcases Nat.eq_zero_or_pos v with rfl | hpos
  · rw [headerRest_zero]
    exact ⟨rfl, core_of_outside (by simp [InSession]), le_refl _, hbits, holen, .inl ⟨rfl, rfl⟩⟩
  · by_cases hle : v ≤ MAXSIZE
    · rw [headerRest_block params t hpos hle]
      have hcs : Core (sized v t) := core_of_ready hstt (hct.coder hsession') (hct.launched hsession')
      refine sessionOp_after (t := sized v t) rfl rfl (sessionOp_bind
        (sessionOp_of_streamOp hcs hsession' (fshiftUnary_streamOp (hct.coder hsession'))) ?_)
      rintro f u - hcu hbu ⟨hframe', -⟩
      have hblk := coderFrame_blk hframe'
      have hsize' : u.blk.size.toNat = v := hblk ▸ hsize hv
      have hsession'' : InSession u.st := .inl ((coderFrame_st hframe').trans hstt)
      have hbu' : bitsLeft u ≤ bitsLeft t := hbu
      refine ⟨rfl, ⟨fun _ => hcu.coder hsession'', fun _ => hcu.launched hsession'', fun _ => ?_, fun _ => ?_, ?_⟩,
        le_refl _, le_trans (Nat.add_le_add_right hbu' 24) hbits,
        (coderFrame_olen hframe').trans holen, .inr ⟨rfl, rfl, ?_⟩⟩
      · exact hsize'.le.trans hle
      · exact hsize' ▸ hpos
      · exact SeqState.noConfusion
      · exact hsize' ▸ hpos
    · rw [headerRest_tooLarge params t (by omega)]
      have hinfo : (BitVec.ofNat 32 v).toNat = v := Nat.mod_eq_of_lt (by omega)
      refine ⟨rfl, ?_⟩
      show (BitVec.ofNat 32 v).toNat = (sized v t).blk.size.toNat ∧ MAXSIZE < (BitVec.ofNat 32 v).toNat ∧
        (BitVec.ofNat 32 v).toNat < 2 ^ 24
      rw [hinfo, hsize hv]
      exact ⟨rfl, by omega, hv⟩

/-- `SYMDEC` in a session (R182). -/
theorem symdec_sessionOp (hst : s.st = .block) : SessionOp s (symdec params s)
    (fun _ t => t.olen = s.olen ∧ t.blk.size = s.blk.size ∧ t.blk.i.toNat = s.blk.i.toNat + 1 ∧
      t.st = if s.blk.i.toNat + 1 = s.blk.size.toNat then .ranked else .block) Over := by
  have hsession : InSession s.st := .inr (.inl hst)
  have hi := h.block_pos hst
  have hsize := h.size_le (.inl hst)
  have hnext := next_position hi hsize
  refine sessionOp_bind (sessionOp_of_streamOp h hsession
    (rankdec_streamOp (p := params) (contextId params s) (h.coder hsession))) fun r t _ hct _ ⟨hframe, _⟩ => ?_
  have hblk := coderFrame_blk hframe
  have holen := coderFrame_olen hframe
  have hsession' : InSession t.st := coderFrame_st hframe ▸ hsession
  have hbi : (takeRank params r s.blk).i = s.blk.i + 1 := by rw [takeRank_frame]
  have hbsize : (takeRank params r s.blk).size = s.blk.size := by rw [takeRank_frame]
  dsimp only
  rw [hblk, if_neg (by omega), hbi, hbsize, hnext, coderFrame_st hframe, hst]
  have hcoder := hct.coder hsession'
  have hlaunched := hct.launched hsession'
  refine ⟨rfl, ⟨fun _ => hcoder, fun _ => hlaunched, fun _ => ?_, fun hb => ?_, fun hr => ?_⟩, le_refl _,
    holen, hbsize, (congrArg BitVec.toNat hbi).trans hnext, rfl⟩
  · exact (congrArg BitVec.toNat hbsize).le.trans hsize
  · show (takeRank params r s.blk).i.toNat < (takeRank params r s.blk).size.toNat
    rw [hbi, hbsize, hnext]
    refine Nat.lt_of_le_of_ne hi fun hlast => ?_
    rw [setSt_st, if_pos hlast] at hb
    cases hb
  · show 0 < (takeRank params r s.blk).size.toNat ∧ (takeRank params r s.blk).i.toNat = (takeRank params r s.blk).size.toNat
    rw [hbi, hbsize, hnext]
    refine ⟨by omega, ?_⟩
    by_contra hlast
    rw [setSt_st, if_neg hlast] at hr
    cases hr

omit h in
/-- The positions of a block (R223). -/
theorem symdecLoop_sessionOp {n : Nat} (h : Core s) (hst : s.st = .block)
    (hn : s.blk.i.toNat + n = s.blk.size.toNat) : SessionOp s (symdecLoop params n s)
      (fun _ t => t.olen = s.olen ∧ t.blk.size = s.blk.size ∧ t.st = .ranked) Over := by
  induction n generalizing s with
  | zero =>
    have := h.block_pos hst
    omega
  | succ n ih =>
    rw [symdecLoop, if_pos hst]
    refine sessionOp_bind (symdec_sessionOp h hst) fun _ t _ hct _ ⟨holen, hsize, hi, hstt⟩ => ?_
    split at hstt
    next hlast =>
      obtain rfl : n = 0 := by omega
      exact sessionOp_ok hct ⟨holen, hsize, hstt⟩
    next =>
      refine sessionOp_mono (ih hct hstt (by rw [hsize]; omega)) (fun _ u _ _ _ ⟨ho, hs, hu⟩ => ?_) id
      exact ⟨ho.trans holen, hs.trans hsize, hu⟩

/-- `IBWT` in a session (R201). -/
theorem ibwt_sessionOp (hst : s.st = .ranked) : SessionOp s (ibwt params s)
    (fun _ t => t.olen = s.olen ∧ t.blk.size = s.blk.size ∧ t.st = .recon) Over := by
  have hsession : InSession s.st := .inr (.inr (.inl hst))
  have hsize := h.size_le (.inr (.inl hst))
  refine all_mono (ibwt_all params s) ?_ ?_ (fun f hf => Nat.not_lt.mpr hsize hf.2) (fun _ hf => hf.elim)
  · rintro _ t ⟨-, -, -, rfl, -⟩
    exact ⟨rfl, ⟨fun _ => h.coder hsession, fun _ => h.launched hsession, fun _ => hsize, SeqState.noConfusion,
      SeqState.noConfusion⟩, le_refl _, rfl, rfl, rfl⟩
  · rintro _ info t ⟨rfl, ⟨rfl, rfl⟩ | ⟨rfl, rfl⟩ | ⟨rfl, rfl⟩⟩
    · exact ⟨rfl, .inl rfl⟩
    · exact ⟨rfl, .inr (.inl rfl)⟩
    · exact ⟨rfl, .inr (.inr rfl)⟩

/-- `EMIT` in a session (R222). -/
theorem emit_sessionOp (hst : s.st = .recon) : SessionOp s (emit s) (fun _ t => t.st = .ready)
    (2 ^ 32 ≤ s.olen.toNat + (s.blk.size.toNat - 1)) := by
  have hsession : InSession s.st := .inr (.inr (.inr hst))
  have hsize := h.size_le (.inr (.inr hst))
  refine all_mono (emit_all s) ?_ (fun _ _ _ hf => hf.elim) (fun f hf => absurd hf.2 (by omega)) (fun _ hf => hf)
  rintro _ t ⟨-, -, rfl⟩
  exact ⟨rfl, core_of_ready rfl (h.coder hsession) (h.launched hsession), le_refl _, rfl⟩

end Operations

end Sys2Proof.Machine
end

section
/-! `BLOCK` and `RUN` as command sequences (R223, R224), and why they end (R237). -/

namespace Sys2Proof.Machine

section Sequences

variable {s t : State} {is : List Instr}

theorem execAll_next {i : Instr} (h : exec i s = .next t) : execAll (i :: is) s = execAll is t := by
  rw [execAll, h]

/-- A stopped block ignores every sequence of commands without `SRESET` (R257). -/
theorem execAll_terminal (hterm : s.st.terminal = true) (his : .sreset ∉ is) : execAll is s = .next s := by
  induction is with
  | nil => rfl
  | cons i is ih =>
    obtain ⟨hi, his⟩ := not_or.mp (mt List.mem_cons.mpr his)
    rw [execAll_next (exec_terminal (Ne.symm hi) hterm), ih his]

/-- `call` as a sequence: a command and the commands after it come to what the two operations come to, one called after
the other; where the first raises, the rest is ignored. -/
theorem execAll_cons {i : Instr} {r : Res Unit} {k : Unit → State → Res Unit} (hi : exec i s = finish r)
    (his : .sreset ∉ is) (hk : ∀ t, r = .ok () t → execAll is t = finish (k () t)) :
    execAll (i :: is) s = finish (r.bind k) := by
  cases r with
  | ok v t => rw [execAll_next hi, hk t rfl]; rfl
  | raise e info u => rw [execAll_next hi]; exact execAll_terminal rfl his
  | stop f => rw [execAll, hi]; rfl
  | refuse f => rw [execAll, hi]; rfl

theorem sreset_notMem_replicate (n : Nat) {i : Instr} (hi : i ≠ .sreset) : .sreset ∉ List.replicate n i := fun h =>
  hi (List.eq_of_mem_replicate h).symm

end Sequences

section Block

variable {s t : State}

theorem exec_block (hst : s.st = .ready) : exec .block s = finish (block params s) := exec_ready hst rfl rfl

theorem exec_ibwt (hst : s.st = .ranked) : exec .ibwt s = finish (ibwt params s) :=
  exec_accepted (by rw [hst]; rfl) rfl (by rw [hst]; rfl)

theorem exec_emit (hst : s.st = .recon) : exec .emit s = finish (emit s) :=
  exec_accepted (by rw [hst]; rfl) rfl (by rw [hst]; rfl)

/-- What a position leaves of the state of its block (R182, R236). -/
theorem symdec_position (hst : s.st = .block) (hi : s.blk.i.toNat < s.blk.size.toNat)
    (hsize : s.blk.size.toNat ≤ MAXSIZE) (hr : symdec params s = .ok () t) :
    t.blk.size = s.blk.size ∧ t.blk.i.toNat = s.blk.i.toNat + 1 ∧
      t.st = if s.blk.i.toNat + 1 = s.blk.size.toNat then .ranked else .block := by
  obtain ⟨r, u, -, -, -, rfl⟩ := all_ok (symdec_all params s) hr
  have hb : ((u.setBlk (takeRank params r s.blk)).setSt
      (if (s.blk.i + 1).toNat = s.blk.size.toNat then .ranked else s.st)).blk = takeRank params r s.blk := rfl
  have hbi : (takeRank params r s.blk).i = s.blk.i + 1 := by rw [takeRank_frame]
  have hbsize : (takeRank params r s.blk).size = s.blk.size := by rw [takeRank_frame]
  rw [hb, hbi, hbsize, setSt_st, next_position hi hsize, hst]
  exact ⟨rfl, rfl, rfl⟩

/-- The positions of a block and what follows them. -/
theorem execAll_positions {is : List Instr} {k : Unit → State → Res Unit} {n : Nat} (his : .sreset ∉ is)
    (hk : ∀ t, t.st = .ranked → execAll is t = finish (k () t)) (hst : s.st = .block)
    (hi : s.blk.i.toNat < s.blk.size.toNat) (hn : s.blk.i.toNat + n = s.blk.size.toNat)
    (hsize : s.blk.size.toNat ≤ MAXSIZE) :
    execAll (List.replicate n .symdec ++ is) s = finish ((symdecLoop params n s).bind k) := by
  induction n generalizing s with
  | zero => omega
  | succ n ih =>
    rw [symdecLoop, if_pos hst, bind_assoc, List.replicate_succ, List.cons_append]
    refine execAll_cons (exec_symdec hst) ?_ fun t ht => ?_
    · rw [List.mem_append]
      exact not_or.mpr ⟨sreset_notMem_replicate n Instr.noConfusion, his⟩
    · obtain ⟨hts, hti, htst⟩ := symdec_position hst hi hsize ht
      split at htst
      next hlast =>
        obtain rfl : n = 0 := by omega
        exact hk t htst
      next => exact ih htst (by rw [hts]; omega) (by rw [hts]; omega) (by rw [hts]; exact hsize)

/-- What a header that returns leaves (R221, R236). -/
theorem blkhdr_header (hr : blkhdr params s = .ok () t) : (t.st = .done ∧ t.blk.size = 0) ∨
    (t.st = .block ∧ t.blk.i = 0 ∧ 0 < t.blk.size.toNat ∧ t.blk.size.toNat ≤ MAXSIZE) := by
  obtain ⟨v, u, -, ⟨-, rfl⟩ | ⟨hpos, hle, f, -, -, rfl⟩⟩ := all_ok (blkhdr_all params s) hr
  · exact .inl ⟨rfl, rfl⟩
  · have hsize : (BitVec.ofNat 24 v).toNat = v := Nat.mod_eq_of_lt (by unfold MAXSIZE at hle; omega)
    exact .inr ⟨rfl, rfl, hsize.symm ▸ hpos, hsize.symm ▸ hle⟩

/-- A header and a sequence that begins with the positions of its block. -/
theorem execAll_afterHeader {is : List Instr} {k : Unit → State → Res Unit} (his : .sreset ∉ is)
    (hk : ∀ t, t.st = .ranked → execAll is t = finish (k () t)) (hr : blkhdr params s = .ok () t) :
    execAll (List.replicate t.blk.size.toNat .symdec ++ is) t =
      finish (if t.st = .done then .ok () t else (symdecLoop params t.blk.size.toNat t).bind k) := by
  rcases blkhdr_header hr with ⟨hst, -⟩ | ⟨hst, hi, hpos, hle⟩
  · rw [if_pos hst]
    refine execAll_terminal (by rw [hst]; rfl) ?_
    rw [List.mem_append]
    exact not_or.mpr ⟨sreset_notMem_replicate _ Instr.noConfusion, his⟩
  · rw [if_neg (by rw [hst]; exact SeqState.noConfusion)]
    exact execAll_positions his hk hst (by rw [hi]; exact hpos) (by rw [hi]; exact Nat.zero_add _) hle

/-- Settles O43. -/
theorem blockIsItsCommandSequence : Obligations.BlockIsItsCommandSequence := by
  intro s t hst hexec
  rw [exec_ready hst rfl rfl] at hexec
  rw [exec_block hst, block]
  rcases finish_next hexec with hr | ⟨e, info, u, hr, rfl⟩
  · have hr : blkhdr params s = .ok () t := hr
    rw [hr, execAll_afterHeader (by decide) (fun u hu => ?_) hr]
    · rfl
    · exact execAll_cons (exec_ibwt hu) (by decide) fun v hv => execAll_cons (k := fun _ w => .ok () w) (r := emit v)
        (exec_emit (all_ok (ibwt_engineOp params u) hv).2) (by decide) (fun _ _ => rfl) |>.trans (by cases emit v <;> rfl)
  · have hr : blkhdr params s = .raise e info u := hr
    rw [hr, execAll_terminal rfl (by
      rw [List.mem_append]
      exact not_or.mpr ⟨sreset_notMem_replicate _ Instr.noConfusion, by decide⟩)]
    rfl

end Block

section Ends

variable {s t : State}

/-- `BLOCK` up to `EMIT` (R223). -/
def decodeBlock (s : State) : Res Unit :=
  (blkhdr params s).bind fun _ t =>
    if t.st = .done then .ok () t else (symdecLoop params t.blk.size.toNat t).bind fun _ u => ibwt params u

theorem block_eq (s : State) :
    block params s = (decodeBlock s).bind fun _ t => if t.st = .done then .ok () t else emit t := by
  have hemit (u : State) : ((ibwt params u).bind fun _ t => if t.st = .done then .ok () t else emit t) =
      (ibwt params u).bind fun _ t => emit t := by
    cases hr : ibwt params u with
    | ok v t =>
      rw [bind_ok, bind_ok, if_neg]
      rw [(all_ok (ibwt_engineOp params u) hr).2]
      exact SeqState.noConfusion
    | raise e info u => rfl
    | stop f => rfl
    | refuse f => rfl
  rw [block, decodeBlock, bind_assoc]
  congr 1
  funext _ t
  split
  next hdone => rw [bind_ok, if_pos hdone]
  next => rw [bind_assoc]; simp only [hemit]

/-- `BLOCK` up to `EMIT` as a command sequence. -/
theorem execAll_decodeBlock (hst : s.st = .ready) (hr : decodeBlock s = .ok () t)
    (hsize : ∀ u, blkhdr params s = .ok () u → u.blk.size = t.blk.size) :
    execAll (.blkhdr :: (List.replicate t.blk.size.toNat .symdec ++ [.ibwt])) s = .next t := by
  have hseq : execAll (.blkhdr :: (List.replicate t.blk.size.toNat .symdec ++ [.ibwt])) s = finish (decodeBlock s) := by
    refine execAll_cons (exec_ready hst rfl rfl) ?_ fun u hu => ?_
    · rw [List.mem_append]
      exact not_or.mpr ⟨sreset_notMem_replicate _ Instr.noConfusion, by decide⟩
    · rw [← hsize u hu]
      refine execAll_afterHeader (by decide) (fun v hv => ?_) hu
      rw [execAll, exec_ibwt hv]
      cases ibwt params v <;> rfl
  rw [hseq, hr]
  rfl

/-- `BLOCK` up to `EMIT` in a session. -/
theorem decodeBlock_sessionOp (h : Core s) (hst : s.st = .ready) : SessionOp s (decodeBlock s)
    (fun _ t => bitsLeft t + 24 ≤ bitsLeft s ∧ (t.st = .done ∨
      t.st = .recon ∧ t.olen = s.olen ∧ ∀ u, blkhdr params s = .ok () u → u.blk.size = t.blk.size)) False := by
  refine sessionOp_bind (sessionOp_eq (blkhdr_sessionOp h hst)) fun _ t _ hct _ ⟨hr, hbits, holen, hcase⟩ => ?_
  rcases hcase with ⟨hdone, -⟩ | ⟨hblock, hi, -⟩
  · rw [if_pos hdone]
    exact sessionOp_ok hct ⟨hbits, .inl hdone⟩
  · rw [if_neg (by rw [hblock]; exact SeqState.noConfusion)]
    refine sessionOp_bind (symdecLoop_sessionOp hct hblock (by rw [hi]; exact Nat.zero_add _))
      fun _ u _ hcu hbu ⟨holenu, hsizeu, hranked⟩ => ?_
    refine sessionOp_mono (ibwt_sessionOp hcu hranked) (fun _ v _ _ hbv ⟨holenv, hsizev, hrecon⟩ => ?_) id
    refine ⟨by omega, .inr ⟨hrecon, by rw [holenv, holenu, holen], fun w hw => ?_⟩⟩
    rw [hr] at hw
    cases hw
    rw [hsizev, hsizeu]

/-- `BLOCK` in a session (R223, R237): it returns in `READY` or `DONE`, takes a header's bits at least, and is refused only
where its block overflows the output. -/
theorem block_sessionOp (h : Core s) (hst : s.st = .ready) : SessionOp s (block params s)
    (fun _ t => bitsLeft t + 24 ≤ bitsLeft s ∧ (t.st = .ready ∨ t.st = .done)) (NextBlockOverflows s) := by
  rw [block_eq]
  refine sessionOp_bind (sessionOp_mono (sessionOp_eq (decodeBlock_sessionOp h hst)) (fun _ _ _ _ _ h => h) False.elim)
    fun _ t _ hct _ ⟨hr, hbits, hcase⟩ => ?_
  rcases hcase with hdone | ⟨hrecon, holen, hsize⟩
  · rw [if_pos hdone]
    exact sessionOp_ok hct ⟨hbits, .inr hdone⟩
  · rw [if_neg (by rw [hrecon]; exact SeqState.noConfusion)]
    refine sessionOp_mono (emit_sessionOp hct hrecon) (fun _ u _ _ hbu hready => ⟨by omega, .inl hready⟩) fun hover => ?_
    exact ⟨t, execAll_decodeBlock hst hr hsize, hrecon, holen, hct.size_le (.inr (.inr hrecon)), holen ▸ hover⟩

/-- Settles O46. -/
theorem blockAlwaysEnds : Obligations.BlockAlwaysEnds := by
  intro s hst hinv hcap
  have hop := block_sessionOp (core_of_ready hst hinv hcap) hst
  rw [exec_block hst]
  cases hr : block params s with
  | ok v t =>
    rw [hr] at hop
    obtain ⟨-, -, -, -, hready | hdone⟩ := hop
    · exact .inl ⟨t, rfl, .inl hready⟩
    · exact .inl ⟨t, rfl, .inr (.inl hdone)⟩
  | raise e info u => exact .inl ⟨_, rfl, .inr (.inr rfl)⟩
  | stop f =>
    rw [hr] at hop
    exact hop.elim
  | refuse f =>
    rw [hr] at hop
    obtain ⟨rfl, hover⟩ := hop
    exact .inr ⟨rfl, hover⟩

end Ends

section Loop

variable {s t : State}

theorem blockLoop_of_ne_ready (n : Nat) (h : s.st ≠ .ready) : blockLoop params n s = .ok () s := by
  cases n with
  | zero => rfl
  | succ n => rw [blockLoop, if_neg h]

theorem blockLoop_add (m n : Nat) (s : State) :
    blockLoop params (m + n) s = (blockLoop params m s).bind fun _ t => blockLoop params n t := by
  induction m generalizing s with
  | zero => rw [Nat.zero_add]; rfl
  | succ m ih =>
    by_cases h : s.st = .ready
    · rw [Nat.add_right_comm, blockLoop, blockLoop, if_pos h, if_pos h, bind_assoc]
      simp only [ih]
    · rw [blockLoop_of_ne_ready _ h, blockLoop_of_ne_ready _ h, bind_ok, blockLoop_of_ne_ready _ h]

/-- The rounds of `RUN` as commands. -/
theorem execAll_blocks (n : Nat) (hst : s.st = .ready ∨ s.st = .done) :
    execAll (List.replicate n .block) s = finish (blockLoop params n s) := by
  induction n generalizing s with
  | zero => rfl
  | succ n ih =>
    rcases hst with hready | hdone
    · rw [List.replicate_succ, blockLoop, if_pos hready]
      exact execAll_cons (exec_block hready) (sreset_notMem_replicate n Instr.noConfusion)
        fun t ht => ih (all_ok (block_engineOp params s) ht).2
    · rw [blockLoop_of_ne_ready _ (by rw [hdone]; exact SeqState.noConfusion)]
      exact execAll_terminal (by rw [hdone]; rfl) (sreset_notMem_replicate _ Instr.noConfusion)

/-- The rounds of `RUN` in a session: each takes 24 bits at least. -/
theorem blockLoop_sessionOp (n : Nat) (h : Core s) (hst : s.st = .ready) : SessionOp s (blockLoop params n s)
    (fun _ t => (t.st = .ready ∧ bitsLeft t + 24 * n ≤ bitsLeft s) ∨ t.st = .done)
    (∃ m u, execAll (List.replicate m .block) s = .next u ∧ u.st = .ready ∧ NextBlockOverflows u) := by
  induction n generalizing s with
  | zero => exact sessionOp_ok h (.inl ⟨hst, le_refl _⟩)
  | succ n ih =>
    rw [blockLoop, if_pos hst]
    refine sessionOp_bind (sessionOp_mono (sessionOp_eq (block_sessionOp h hst)) (fun _ _ _ _ _ h => h)
      fun hover => ⟨0, s, rfl, hst, hover⟩) fun _ t _ hct _ ⟨hr, hbits, hcase⟩ => ?_
    rcases hcase with hready | hdone
    · refine sessionOp_mono (ih hct hready) (fun _ u _ _ _ hu => hu.imp_left fun ⟨hu, hb⟩ => ⟨hu, by omega⟩) ?_
      rintro ⟨m, u, hseq, hu, hover⟩
      refine ⟨m + 1, u, ?_, hu, hover⟩
      rw [List.replicate_succ, execAll_next ((exec_block hst).trans (by rw [hr]; rfl)), hseq]
    · rw [blockLoop_of_ne_ready _ (by rw [hdone]; exact SeqState.noConfusion)]
      exact sessionOp_ok hct (.inr hdone)

end Loop

section Launch

variable {s t : State}

theorem launched_coderInv (s : State) : CoderInv (launched s) := by
  have hlen := s.len.isLt
  have hcode' : (primedCoder s).code.toNat = (streamByte s 0).toNat * 256 + (streamByte s 1).toNat :=
    Nat.mod_eq_of_lt (streamByte_mul_add_lt s 0 1)
  have hscount : (launched s).coder.scount.toNat = 32 := (by decide : (32 : BitVec 6).toNat = 32)
  refine ⟨(by decide : (0 : Word16).toNat < 0x8000), ?_, by omega, by omega, ?_, ?_⟩
  · show (primedCoder s).fence.toNat = min (primedCoder s).code.toNat 0x7FFF
    rw [hcode']
    exact Nat.mod_eq_of_lt (by omega)
  · show (BitVec.ofNat 32 (min s.len.toNat 6)).toNat ≤ s.len.toNat
    rw [BitVec.toNat_ofNat]
    omega
  · show 1 ≤ (BitVec.ofNat 8 (25 - (4 - min 4 (s.len.toNat - 2)))).toNat
    rw [BitVec.toNat_ofNat]
    omega

theorem launched_core (hcap : s.len.toNat ≤ params.inCap.toNat) : Core (launched s) :=
  core_of_ready rfl (launched_coderInv s) hcap

/-- A session is given at most `8 * (LEN + GRACE + 1)` bits (R237), so it has no room for `blockBound` headers. -/
theorem bitsLeft_launched_lt (s : State) : bitsLeft (launched s) < 24 * blockBound params (launched s) := by
  have hlen := s.len.isLt
  have hscount : (launched s).coder.scount.toNat = 32 := (by decide : (32 : BitVec 6).toNat = 32)
  have hrp : (launched s).coder.rp.toNat = min s.len.toNat 6 := Nat.mod_eq_of_lt (by omega)
  have hdelay : (launched s).coder.delay.toNat = 25 - (4 - min 4 (s.len.toNat - 2)) := Nat.mod_eq_of_lt (by omega)
  have hbound : blockBound params (launched s) = 8 * (s.len.toNat + 25 + 1) / 24 + 1 := rfl
  rw [hbound, bitsLeft, deliverable, hscount, hrp, hdelay]
  show 8 * (s.len.toNat - _ + _) + 32 < _
  omega

theorem exec_dinit (hst : s.st = .reset) : exec .dinit s = finish (dinit params s) :=
  exec_accepted (by rw [hst]; rfl) rfl (by rw [hst]; rfl)

theorem exec_run (hst : s.st = .reset) : exec .run s = finish (run params s) :=
  exec_accepted (by rw [hst]; rfl) rfl (by rw [hst]; rfl)

/-- `DINIT` either refuses the input or leaves the launched state. -/
theorem dinit_next (hst : s.st = .reset) (hexec : exec .dinit s = .next t) :
    s.len.toNat ≤ params.inCap.toNat ∧ t = launched s := by
  rw [exec_dinit hst] at hexec
  by_cases hcap : s.len.toNat ≤ params.inCap.toNat
  · rw [dinit_eq hcap] at hexec
    cases hexec
    exact ⟨hcap, rfl⟩
  · rw [dinit, if_pos (Nat.lt_of_not_le hcap)] at hexec
    cases hexec

theorem run_eq (hcap : s.len.toNat ≤ params.inCap.toNat) :
    run params s = blockLoop params (blockBound params (launched s)) (launched s) := by
  rw [run, dinit_eq hcap]
  rfl

/-- `RUN` in a session: no block is left to decode (R237). -/
theorem run_sessionOp (hcap : s.len.toNat ≤ params.inCap.toNat) :
    SessionOp (launched s) (run params s) (fun _ t => t.st = .done)
      (∃ m u, execAll (List.replicate m .block) (launched s) = .next u ∧ u.st = .ready ∧ NextBlockOverflows u) := by
  rw [run_eq hcap]
  refine sessionOp_mono (blockLoop_sessionOp _ (launched_core hcap) rfl) (fun _ t _ _ _ ht => ?_) id
  have := bitsLeft_launched_lt s
  exact ht.resolve_left fun ⟨_, hb⟩ => by omega

end Launch

/-- Settles O45: from the bound on `blockLoop` has left `READY`, so further rounds do nothing. -/
theorem runIsItsCommandSequence : Obligations.RunIsItsCommandSequence := by
  intro s t hst hexec
  obtain ⟨hcap, rfl⟩ := dinit_next hst hexec
  have hop := run_sessionOp hcap
  refine ⟨fun n hn => ?_, fun u hu => ?_⟩
  · obtain ⟨k, rfl⟩ := Nat.exists_eq_add_of_le hn
    have hrun : blockLoop params (8 * (s.len.toNat + 25 + 1) / 24 + 1) (launched s) = run params s := (run_eq hcap).symm
    rw [exec_run hst, execAll_blocks _ (.inl rfl), blockLoop_add, hrun]
    cases hr : run params s with
    | ok v t =>
      rw [hr] at hop
      obtain ⟨-, -, -, hdone⟩ := hop
      rw [bind_ok, blockLoop_of_ne_ready _ (by rw [hdone]; exact SeqState.noConfusion)]
    | raise e info u => rfl
    | stop f => rfl
    | refuse f => rfl
  · rw [exec_run hst] at hu
    rcases finish_next hu with hr | ⟨e, info, v, -, rfl⟩
    · obtain ⟨-, -, -, hdone⟩ := all_ok hop hr
      rw [hdone]
      exact SeqState.noConfusion
    · exact SeqState.noConfusion

/-- Settles O47. -/
theorem runAlwaysEnds : Obligations.RunAlwaysEnds := by
  intro s hst hcap
  have hop := run_sessionOp hcap
  rw [exec_run hst]
  cases hr : run params s with
  | ok v t =>
    rw [hr] at hop
    obtain ⟨-, -, -, hdone⟩ := hop
    exact .inl ⟨t, rfl, .inl hdone⟩
  | raise e info u => exact .inl ⟨_, rfl, .inr rfl⟩
  | stop f =>
    rw [hr] at hop
    exact hop.elim
  | refuse f =>
    rw [hr] at hop
    obtain ⟨rfl, m, u, hseq, hready, hover⟩ := hop
    exact .inr ⟨rfl, launched s, m, u, (exec_dinit hst).trans (by rw [dinit_eq hcap]; rfl), hseq, hready, hover⟩

end Sys2Proof.Machine
end

section
/-! What a command that its state accepts comes to, said once for all commands (R236, R250 to R253): the sequencer state it
leaves, or the fault it raises; from a state of the invariant it never stops the machine. -/

namespace Sys2Proof.Machine

/-- The state the sequencer is left in (R236). -/
def Sequenced (i : Instr) (s t : State) : Prop :=
  match i with
  | .nop => t = s
  | .sreset => t.st = .reset
  | .blkhdr => (0 < t.blk.size.toNat ∧ t.st = .block) ∨ (t.blk.size.toNat = 0 ∧ t.st = .done)
  | .symdec => (t.blk.i.toNat < t.blk.size.toNat ∧ t.st = .block) ∨
      (t.blk.i.toNat = t.blk.size.toNat ∧ t.st = .ranked)
  | .ibwt => t.st = .recon
  | .block => t.st = .ready ∨ t.st = .done
  | .run => t.st = .done
  | _ => t.st = .ready

theorem sequenced_ne_fault {i : Instr} {s t : State} (h : Sequenced i s t) (hst : s.st ≠ .fault) : t.st ≠ .fault := by
  cases i with
  | nop => exact (show t = s from h) ▸ hst
  | blkhdr => rcases h with ⟨-, h⟩ | ⟨-, h⟩ <;> rw [h] <;> exact SeqState.noConfusion
  | symdec => rcases h with ⟨-, h⟩ | ⟨-, h⟩ <;> rw [h] <;> exact SeqState.noConfusion
  | block => rcases h with h | h <;> rw [h] <;> exact SeqState.noConfusion
  | _ => rw [show t.st = _ from h]; exact SeqState.noConfusion

/-- The commands that raise a fault of the stream (R251 to R253). -/
def MayRaise (i : Instr) (e : Err) : Prop :=
  match e with
  | .truncatedStream => readsStream i = true
  | .blockTooLarge => i = .blkhdr ∨ i = .block ∨ i = .run
  | .corruptBlock => i = .ibwt ∨ i = .block ∨ i = .run
  | _ => False

/-- What is performed raises only such faults. -/
theorem mayRaise_of_perform {i : Instr} {s u : State} {e : Err} {info : Word32} (hr : perform i s = .raise e info u) :
    MayRaise i e := by
  have of_truncated {i : Instr} {s : State} {e : Err} {info : Word32} {u : State} (hi : readsStream i = true)
      (h : RaisesTruncated s e info u) : MayRaise i e := h.1 ▸ hi
  have of_stream {i : Instr} {e : Err} (hi : i = .block ∨ i = .run) (h : StreamFault e) : MayRaise i e := by
    rcases h with rfl | rfl | rfl
    · rcases hi with rfl | rfl <;> rfl
    · exact .inr hi
    · exact .inr hi
  cases i with
  | nop => cases hr
  | sreset => cases hr
  | dinit => exact (all_raise (dinit_all params s) hr).1 ▸ rfl
  | preload => exact of_truncated rfl (all_raise (preload_coderOp params s) hr)
  | zpraw => exact of_truncated rfl (all_raise (storeRes_all params s (bitValue_coderOp _ s (zpraw_coderOp params s))) hr)
  | zpctx c =>
    exact of_truncated rfl (all_raise (storeRes_all params s (bitValue_coderOp _ s (zpctx_coderOp params s _))) hr)
  | rawn n => exact of_truncated rfl (all_raise (storeRes_all params s (rawn_coderOp params s _)) hr)
  | binn nb base => exact of_truncated rfl (all_raise (storeRes_all params s (binn_coderOp params s _ _)) hr)
  | blkhdr =>
    rcases all_raise (blkhdr_all params s) hr with ⟨rfl, -⟩ | ⟨rfl, -⟩
    · rfl
    · exact .inl rfl
  | symdec => exact of_truncated rfl (all_raise (symdec_all params s) hr)
  | ibwt => exact (all_raise (ibwt_all params s) hr).1 ▸ .inl rfl
  | emit => exact (all_raise (emit_all s) hr).elim
  | block => exact of_stream (.inl rfl) (all_raise (block_engineOp params s) hr).1
  | run => exact of_stream (.inr rfl) (all_raise (run_engineOp params s) hr).1

/-- How what a command performs ends, in a state that accepts it. -/
def Outcome (i : Instr) (s : State) : Prop :=
  (perform i s).All (fun _ t => Sequenced i s t) RaisesFault (fun _ => False) (fun _ => True)

theorem outcome_of_sessionOp {i : Instr} {s t : State} {P : Unit → State → Prop} {Over : Prop}
    (hop : SessionOp t (perform i s) P Over) (hP : ∀ v u, P v u → Sequenced i s u) : Outcome i s :=
  all_mono hop (fun v u ⟨_, _, _, hp⟩ => hP v u hp) (fun _ _ _ ⟨_, hr⟩ => hr) (fun _ h => h) (fun _ _ => trivial)

section Primitives

variable {s : State}

theorem bitValue_streamOp {p : Params} {r : Res Bool} {P : Bool → State → Prop} {Short : Prop}
    (h : StreamOp p s r P Short) : StreamOp p s (bitValue r) (fun _ _ => True) Short :=
  streamOp_bind h fun _ _ _ hinv _ _ => streamOp_ok hinv trivial

/-- A primitive that returns a value leaves `READY`. -/
theorem storeRes_sessionOp {r : Res Nat} {P : Nat → State → Prop} {Short : Prop} (h : Core s) (hst : s.st = .ready)
    (hop : StreamOp params s r P Short) : SessionOp s (storeRes r) (fun _ t => t.st = .ready) False := by
  refine sessionOp_mono (sessionOp_storeRes (sessionOp_of_streamOp h (.inl hst) hop)) ?_ id
  rintro _ _ - - - ⟨v, u, ⟨hframe, -⟩, rfl⟩
  exact (coderFrame_st hframe).trans hst

end Primitives

theorem perform_outcome {i : Instr} {s : State} (h : Core s) (hlegal : legalIn i s.st = true) : Outcome i s := by
  have hready (hst : s.st = .ready) : CoderInv s := h.coder (.inl hst)
  cases i with
  | nop => exact rfl
  | sreset => exact rfl
  | dinit =>
    by_cases hcap : s.len.toNat ≤ params.inCap.toNat
    · rw [Outcome, perform, dinit_eq hcap]
      exact rfl
    · rw [Outcome, perform, dinit, if_pos (Nat.lt_of_not_le hcap)]
      exact trivial
  | preload =>
    have hst : s.st = .ready := of_decide_eq_true hlegal
    exact outcome_of_sessionOp (Over := False)
      (sessionOp_of_streamOp h (.inl hst) (preload_streamOp (hready hst)))
      fun _ u ⟨hframe, _⟩ => (coderFrame_st hframe).trans hst
  | zpraw =>
    have hst : s.st = .ready := of_decide_eq_true hlegal
    exact outcome_of_sessionOp (storeRes_sessionOp h hst (bitValue_streamOp (zpraw_streamOp params (hready hst))))
      fun _ _ ht => ht
  | zpctx c =>
    have hst : s.st = .ready := of_decide_eq_true hlegal
    exact outcome_of_sessionOp (storeRes_sessionOp h hst (bitValue_streamOp (zpctx_streamOp params _ (hready hst))))
      fun _ _ ht => ht
  | rawn n =>
    have hst : s.st = .ready := of_decide_eq_true hlegal
    exact outcome_of_sessionOp (storeRes_sessionOp h hst (rawn_streamOp params (hready hst))) fun _ _ ht => ht
  | binn nb base =>
    have hst : s.st = .ready := of_decide_eq_true hlegal
    exact outcome_of_sessionOp (storeRes_sessionOp h hst (binn_streamOp params _ (hready hst))) fun _ _ ht => ht
  | blkhdr =>
    refine outcome_of_sessionOp (Over := False) (blkhdr_sessionOp h (of_decide_eq_true hlegal)) ?_
    rintro _ t ⟨-, -, ⟨hst, hsize⟩ | ⟨hst, -, hpos⟩⟩
    · exact .inr ⟨by rw [hsize]; rfl, hst⟩
    · exact .inl ⟨hpos, hst⟩
  | symdec =>
    have hst : s.st = .block := of_decide_eq_true hlegal
    have hi := h.block_pos hst
    refine outcome_of_sessionOp (Over := False) (symdec_sessionOp h hst) ?_
    rintro _ t ⟨-, hsize, hti, htst⟩
    show (t.blk.i.toNat < t.blk.size.toNat ∧ t.st = .block) ∨ (t.blk.i.toNat = t.blk.size.toNat ∧ t.st = .ranked)
    rw [hsize, hti, htst]
    split
    next hlast => exact .inr ⟨hlast, rfl⟩
    next => exact .inl ⟨by omega, rfl⟩
  | ibwt =>
    exact outcome_of_sessionOp (Over := False) (ibwt_sessionOp h (of_decide_eq_true hlegal)) fun _ _ ht => ht.2.2
  | emit => exact outcome_of_sessionOp (emit_sessionOp h (of_decide_eq_true hlegal)) fun _ _ ht => ht
  | block => exact outcome_of_sessionOp (block_sessionOp h (of_decide_eq_true hlegal)) fun _ _ ht => ht.2
  | run =>
    by_cases hcap : s.len.toNat ≤ params.inCap.toNat
    · exact outcome_of_sessionOp (run_sessionOp hcap) fun _ _ ht => ht
    · rw [Outcome, perform, run, dinit, if_pos (Nat.lt_of_not_le hcap)]
      exact trivial

/-- No command but `SRESET` is accepted in a stopped state. -/
theorem terminal_eq_false_of_mem {i : Instr} {st : SeqState} (hsreset : i ≠ .sreset) (h : st ∈ acceptedStates i) :
    st.terminal = false := by
  cases i with
  | sreset => exact absurd rfl hsreset
  | nop => cases st <;> first | rfl | exact absurd h (by decide)
  | _ => rw [List.mem_singleton.mp h]; rfl

theorem sequenced_of_perform {i : Instr} {s t : State} (h : Core s) (hlegal : legalIn i s.st = true)
    (hr : perform i s = .ok () t) : Sequenced i s t :=
  all_ok (P := fun _ t => Sequenced i s t) (perform_outcome h hlegal) hr

/-- Settles O10: an accepted command that does not end in `FAULT` was performed. -/
theorem sequencerTable : Obligations.SequencerTable := by
  intro i s t hinv hacc hexec hfault
  have hsequenced : Sequenced i s t := by
    by_cases hsreset : i = .sreset
    · subst hsreset
      cases hexec
      exact rfl
    rcases exec_next hsreset hexec with ⟨hterm, -⟩ | ⟨-, -, rfl⟩ | ⟨-, -, -, rfl⟩ |
      ⟨-, -, hlegal, hperf | ⟨e, info, u, -, rfl⟩⟩
    · rw [terminal_eq_false_of_mem hsreset hacc] at hterm
      cases hterm
    · exact absurd rfl hfault
    · exact absurd rfl hfault
    · exact sequenced_of_perform (core_of_inv hinv) hlegal hperf
    · exact absurd rfl hfault
  cases i with
  | run => exact trivial
  | _ => exact hsequenced

/-- Settles O11: a command that ends in `FAULT` was rejected by the dispatcher, or what it performed raised. -/
theorem faultInformation : Obligations.FaultInformation := by
  intro i s t hinv hst hexec hfault
  by_cases hsreset : i = .sreset
  · subst hsreset
    cases hexec
    cases hfault
  rcases exec_next hsreset hexec with ⟨-, rfl⟩ | ⟨-, hwf, rfl⟩ | ⟨hterm, hwf, hlegal, rfl⟩ |
    ⟨-, -, hlegal, hperf | ⟨e, info, u, hperf, rfl⟩⟩
  · exact absurd hfault hst
  · exact ⟨rfl, rfl, hwf⟩
  · exact ⟨rfl, rfl, hwf, mt (legalIn_iff_mem_acceptedStates hterm).mpr (Bool.eq_false_iff.mp hlegal)⟩
  · exact absurd hfault (sequenced_ne_fault (sequenced_of_perform (core_of_inv hinv) hlegal hperf) hst)
  · have hmay := mayRaise_of_perform hperf
    have hraises : RaisesFault e info u := all_raise (perform_outcome (core_of_inv hinv) hlegal) hperf
    refine ⟨rfl, ?_⟩
    cases e with
    | truncatedStream =>
      obtain ⟨hinfo, hend, hdelay⟩ := hraises
      exact ⟨hinfo, hend, hdelay, hmay⟩
    | blockTooLarge =>
      obtain ⟨hinfo, hlow, hhigh⟩ := hraises
      exact ⟨hinfo, hlow, Nat.le_of_lt_succ hhigh, hmay⟩
    | corruptBlock => exact ⟨hraises, hmay⟩
    | none => exact hraises.elim
    | illegalCmd => exact hraises.elim
    | seqError => exact hraises.elim

theorem exec_ne_stop {i : Instr} {s : State} (h : Core s) (f : Fault) : exec i s ≠ .fault f := by
  intro hexec
  by_cases hnop : i = .nop
  · subst hnop
    cases hexec
  by_cases hsreset : i = .sreset
  · subst hsreset
    cases hexec
  rw [exec_eq_dispatch_perform s hnop hsreset, dispatch] at hexec
  split at hexec
  · cases hexec
  · split at hexec
    · cases hexec
    · split at hexec
      next hlegal =>
        have hout := perform_outcome h hlegal
        unfold Outcome at hout
        cases hr : perform i s with
        | stop f => exact (hr ▸ hout : Res.All (.stop f) _ _ _ _)
        | _ => rw [hr] at hexec; cases hexec
      next => cases hexec

/-- Settles O55: no host access stops the machine, and no command does. -/
theorem invariantStatesNeverStop : Obligations.InvariantStatesNeverStop := by
  intro s f hinv hstep
  have hcore : ∀ rest, Core { s with pend := rest } := fun rest =>
    ⟨hinv.coder, hinv.launched, hinv.size_le, hinv.block_pos, hinv.ranked_pos⟩
  unfold step fetch at hstep
  rcases hp : s.pend with _ | ⟨e, rest⟩ <;> rw [hp] at hstep
  · cases hstep
  cases e with
  | powerOn => cases hstep
  | read offset bits =>
    dsimp only [hostEvent] at hstep
    cases ht : hostTarget offset bits <;> rw [ht] at hstep <;> cases hstep
  | write offset bits v =>
    dsimp only [hostEvent] at hstep
    rcases ht : hostTarget offset bits with _ | r <;> rw [ht] at hstep
    · cases hstep
    · by_cases hr : r = .cmd
      · subst hr
        dsimp only at hstep
        split at hstep
        · exact exec_ne_stop (hcore rest) f hstep
        · cases hstep
      · cases r <;> first | exact absurd rfl hr | cases hstep

end Sys2Proof.Machine
end

section
/-! The invariant of the machine: after reset, kept by every operation, kept by every step. The clauses on the coder and
the positions are `Core`; those on the memories hold whatever the sequencer state is (`Stored`), those on what has been
written hold where it is read (`Filled`). -/

namespace Sys2Proof.Machine

/-- The clauses of the invariant on the block registers and memories that hold in every state (R35, R37, R60). -/
structure StoredBlock (b : Block) : Prop where
  data_wf : Memory.wf b.data
  posn_wf : Memory.wf b.posn
  data_exists : ∀ e ∈ b.data, e.1 < MAXSIZE
  posn_exists : ∀ e ∈ b.posn, e.1 < MAXSIZE
  fshift_le : b.fshift.toNat ≤ 2
  mtfno_le : b.mtfno.toNat ≤ 256
  mcount_le : b.mcount.toNat ≤ 2

/-- The clauses of the invariant that hold in every state, `FAULT` among them. -/
structure Stored (s : State) : Prop where
  imem_wf : Memory.wf s.imem
  omem_wf : Memory.wf s.omem
  imem_exists : ∀ e ∈ s.imem, e.1 < params.inCap.toNat
  block : StoredBlock s.blk

/-- The clauses of the invariant on what has been written in the states that read it (R191, R202, R206, R282). -/
structure Filled (s : State) : Prop where
  recon_marker : s.st = .recon → s.blk.mcount.toNat = 1 ∧ 1 ≤ s.blk.markerpos.toNat ∧
    s.blk.markerpos.toNat < s.blk.size.toNat ∧ s.blk.ptr = s.blk.markerpos
  mtf_permutes : InBlock s.st → MtfPermutes s.blk
  data_written : InBlock s.st → ∀ k < s.blk.i.toNat, Written s.blk.data k
  recon_written : s.st = .recon → s.blk.i.toNat = s.blk.size.toNat
  omem_written : ∀ k < s.olen.toNat, Written s.omem k

/-- The invariant but for its clauses on `FAULT`. -/
structure Sound (s : State) : Prop where
  core : Core s
  stored : Stored s
  filled : Filled s

section Parts

variable {s t : State}

theorem sound_of_inv (h : Inv s) : Sound s where
  core := core_of_inv h
  stored := ⟨h.imem_wf, h.omem_wf, h.imem_exists, h.data_wf, h.posn_wf, h.data_exists, h.posn_exists, h.fshift_le,
    h.mtfno_le, h.mcount_le⟩
  filled := ⟨h.recon_marker, h.mtf_permutes, h.data_written, h.recon_written, h.omem_written⟩

theorem inv_of_sound (h : Sound s) (herr : s.st = .fault ↔ s.err ≠ .none) (holen : s.st = .fault → s.olen = 0) :
    Inv s where
  imem_wf := h.stored.imem_wf
  omem_wf := h.stored.omem_wf
  data_wf := h.stored.block.data_wf
  posn_wf := h.stored.block.posn_wf
  imem_exists := h.stored.imem_exists
  data_exists := h.stored.block.data_exists
  posn_exists := h.stored.block.posn_exists
  coder := h.core.coder
  launched := h.core.launched
  err_iff := herr
  fault_olen := holen
  size_le := h.core.size_le
  block_pos := h.core.block_pos
  ranked_pos := h.core.ranked_pos
  recon_marker := h.filled.recon_marker
  fshift_le := h.stored.block.fshift_le
  mtfno_le := h.stored.block.mtfno_le
  mcount_le := h.stored.block.mcount_le
  mtf_permutes := h.filled.mtf_permutes
  data_written := h.filled.data_written
  recon_written := h.filled.recon_written
  omem_written := h.filled.omem_written

theorem not_inBlock {st : SeqState} (h : st = .reset ∨ st = .ready ∨ st = .done ∨ st = .fault) : ¬ InBlock st := by
  rcases h with rfl | rfl | rfl | rfl <;> simp [InBlock]

/-- Outside a block only the output has been written. -/
theorem filled_of_outside (hst : ¬ InBlock s.st) (homem : ∀ k < s.olen.toNat, Written s.omem k) : Filled s where
  recon_marker h := absurd (.inr (.inr h)) hst
  mtf_permutes h := absurd h hst
  data_written h := absurd h hst
  recon_written h := absurd (.inr (.inr h)) hst
  omem_written := homem

/-- Fault entry needs the clauses of every state alone (R256). -/
theorem inv_of_fault (h : Stored s) {e : Err} (he : e ≠ .none) (info : Word32) : Inv (faultEntry e info s) := by
  refine inv_of_sound ⟨core_of_outside (by simp [InSession]), ⟨h.imem_wf, h.omem_wf, h.imem_exists, h.block⟩,
    filled_of_outside (not_inBlock (.inr (.inr (.inr rfl)))) fun k hk => ?_⟩ (iff_of_true rfl he) fun _ => rfl
  exact absurd hk (Nat.not_lt_zero k)

theorem stored_of_coderFrame (h : Stored s) (hframe : CoderFrame s t) : Stored t := by
  rw [hframe]
  exact ⟨h.imem_wf, h.omem_wf, h.imem_exists, h.block⟩

theorem filled_of_coderFrame (h : Filled s) (hframe : CoderFrame s t) : Filled t := by
  rw [hframe]
  exact ⟨h.recon_marker, h.mtf_permutes, h.data_written, h.recon_written, h.omem_written⟩

end Parts

section Writes

variable {w : Nat} {m : Memory w}

theorem written_write (j k : Nat) (v : BitVec w) : Written (m.write j v) k ↔ j = k ∨ Written m k := by
  unfold Written
  rw [lookup_write]
  by_cases h : j = k <;> simp [h]

theorem written_undoWalk (f : Nat → Word32) (b : Vector Word32 256) (n ptr : Nat) {d : Memory 8} {k : Nat}
    (h : Written d k) : Written (w := 8) (undoWalk f b n ptr d).2 k := by
  induction n generalizing ptr d with
  | zero => exact h
  | succ n ih => exact ih _ ((written_write _ _ _).mpr (.inr h))

theorem undoWalk_bound (f : Nat → Word32) (b : Vector Word32 256) {n N : Nat} (hn : n ≤ N) (ptr : Nat) {d : Memory 8}
    (h : ∀ e ∈ d, e.1 < N) : ∀ e ∈ (undoWalk f b n ptr d).2, e.1 < N := by
  induction n generalizing ptr d with
  | zero => exact h
  | succ n ih => exact ih (by omega) _ (write_bound (by omega) h)

theorem zeroFill_bound {n N : Nat} (hn : n ≤ N) {m : Memory 32} (h : ∀ e ∈ m, e.1 < N) :
    ∀ e ∈ zeroFill n m, e.1 < N := by
  induction n with
  | zero => exact h
  | succ n ih => exact write_bound (by omega) (ih (by omega))

theorem countPass_bound (f : Nat → Byte) (mk : Nat) {n N : Nat} (hn : n ≤ N) {t : Memory 32 × Vector Word32 256}
    (h : ∀ e ∈ t.1, e.1 < N) : ∀ e ∈ (countPass f mk n t).1, e.1 < N := by
  induction n with
  | zero => exact h
  | succ n ih =>
    rw [countPass, countPosition]
    split
    · exact ih (by omega)
    · exact write_bound (by omega) (ih (by omega))

end Writes

/-- An operation keeps the clauses on the memories, and where it returns those on what has been written. -/
def Fills {α : Type} (r : Res α) : Prop :=
  r.All (fun _ t => Stored t ∧ Filled t) (fun _ _ u => Stored u) (fun _ => True) (fun _ => True)

/-- An operation keeps the invariant but for its clauses on `FAULT`, and where it raises what fault entry needs. -/
def InvOp {α : Type} (r : Res α) (P : State → Prop) : Prop :=
  r.All (fun _ t => Sound t ∧ P t) (fun _ _ u => Stored u) (fun _ => True) (fun _ => True)

section Rules

variable {α β : Type} {s : State} {r : Res α} {P Q : State → Prop}

theorem invOp_of_sessionOp {R : α → State → Prop} {Over : Prop} (hop : SessionOp s r R Over)
    (hP : ∀ v t, R v t → P t) (hfills : Fills r) : InvOp r P := by
  cases r with
  | ok v t =>
    obtain ⟨-, hcore, -, hr⟩ := hop
    exact ⟨⟨hcore, hfills.1, hfills.2⟩, hP v t hr⟩
  | raise e info u => exact hfills
  | stop f => trivial
  | refuse f => trivial

theorem invOp_bind {k : α → State → Res β} (h : InvOp r P) (hk : ∀ v t, Sound t → P t → InvOp (k v t) Q) :
    InvOp (r.bind k) Q :=
  all_bind h fun v t ⟨hs, hp⟩ => hk v t hs hp

theorem invOp_mono (h : InvOp r P) (hPQ : ∀ t, P t → Q t) : InvOp r Q :=
  all_mono h (fun _ t ⟨hs, hp⟩ => ⟨hs, hPQ t hp⟩) (fun _ _ _ h => h) (fun _ h => h) (fun _ h => h)

theorem fills_of_coderOp {p : Params} {P : α → State → Prop} (h : Sound s) (hop : CoderOp p s r P) : Fills r :=
  all_mono hop
    (fun _ _ ⟨hf, _⟩ => ⟨stored_of_coderFrame h.stored hf, filled_of_coderFrame h.filled hf⟩)
    (fun _ _ _ hr => stored_of_coderFrame h.stored (raisesTruncated_frame hr)) (fun _ _ => trivial) (fun _ _ => trivial)

theorem fills_storeRes {r : Res Nat} (h : Fills r) : Fills (storeRes r) :=
  all_bind h fun _ _ ⟨hs, hf⟩ => ⟨⟨hs.imem_wf, hs.omem_wf, hs.imem_exists, hs.block⟩,
    ⟨hf.recon_marker, hf.mtf_permutes, hf.data_written, hf.recon_written, hf.omem_written⟩⟩

end Rules

/-- The identity table holds every byte at its own rank (R38). -/
theorem permutes_of_identity {b : Block} (h : b.mtf = identityMtf) : MtfPermutes b := by
  have hget {k : Nat} (hk : k < 256) : (tableGet b.mtf k).toNat = k := by
    rw [h, identityMtf, tableGet_ofFn _ hk]
    exact Nat.mod_eq_of_lt hk
  intro j hj k hk hjk
  rw [← hget hj, hjk, hget hk]

section Operations

variable {s : State} (h : Sound s)
include h

theorem blkhdr_fills : Fills (blkhdr params s) := by
  have hb := h.stored.block
  have homem := h.filled.omem_written
  refine all_mono (blkhdr_all params s) ?_ ?_ (fun _ _ => trivial) (fun _ _ => trivial)
  · rintro _ t ⟨v, u, hframe, ⟨-, rfl⟩ | ⟨-, -, f, -, hf, rfl⟩⟩
    · have hu := stored_of_coderFrame h.stored hframe
      refine ⟨⟨hu.imem_wf, hu.omem_wf, hu.imem_exists, hb.data_wf, hb.posn_wf, hb.data_exists, hb.posn_exists,
        hb.fshift_le, hb.mtfno_le, hb.mcount_le⟩, filled_of_outside (not_inBlock (.inr (.inr (.inl rfl)))) ?_⟩
      exact (filled_of_coderFrame h.filled hframe).omem_written
    · have hu := stored_of_coderFrame h.stored hframe
      have hf2 : (BitVec.ofNat 2 f).toNat ≤ 2 := by
        have := hf rfl
        rw [BitVec.toNat_ofNat]
        omega
      refine ⟨⟨hu.imem_wf, hu.omem_wf, hu.imem_exists, hb.data_wf, hb.posn_wf, hb.data_exists, hb.posn_exists,
        hf2, (by decide : (3 : BitVec 9).toNat ≤ 256), Nat.zero_le _⟩, SeqState.noConfusion,
        fun _ => permutes_of_identity rfl, fun _ k hk => absurd hk (Nat.not_lt_zero k), SeqState.noConfusion,
        (filled_of_coderFrame h.filled hframe).omem_written⟩
  · rintro e info t (⟨-, -, -, -, hframe⟩ | ⟨-, v, u, -, -, -, hframe, rfl⟩)
    · refine stored_of_coderFrame (s := s.setBlk { s.blk with size := t.blk.size }) ?_ hframe
      exact ⟨h.stored.imem_wf, h.stored.omem_wf, h.stored.imem_exists, hb.data_wf, hb.posn_wf, hb.data_exists,
        hb.posn_exists, hb.fshift_le, hb.mtfno_le, hb.mcount_le⟩
    · have hu := stored_of_coderFrame h.stored hframe
      exact ⟨hu.imem_wf, hu.omem_wf, hu.imem_exists, hb.data_wf, hb.posn_wf, hb.data_exists, hb.posn_exists,
        hb.fshift_le, hb.mtfno_le, hb.mcount_le⟩

omit h in
/-- One position of a block keeps the memories in their form. -/
theorem storedBlock_takeRank {r : Nat} {b : Block} (hb : StoredBlock b) (hr : r ≤ 256) (hi : b.i.toNat < MAXSIZE) :
    StoredBlock (takeRank params r b) := by
  rw [takeRank_frame]
  refine ⟨write_wf _ _ hb.data_wf, hb.posn_wf, write_bound hi hb.data_exists, hb.posn_exists, hb.fshift_le, ?_, ?_⟩
  · show (BitVec.ofNat 9 r).toNat ≤ 256
    rw [BitVec.toNat_ofNat]
    omega
  · show (if r = 256 then countMarker b.mcount else b.mcount).toNat ≤ 2
    split
    · rw [countMarker, BitVec.toNat_ofNat]
      omega
    · exact hb.mcount_le

omit h in
theorem takeRank_permutes {r : Nat} {b : Block} (hb : MtfPermutes b) (hr : r ≤ 256) :
    MtfPermutes (takeRank params r b) := by
  by_cases hmarker : r = 256
  · subst hmarker
    unfold MtfPermutes
    rw [(takeRank_marker params b).1]
    exact hb
  · unfold MtfPermutes
    rw [(takeRank_rank params hmarker b).1]
    exact mtfrot_permutes params (by omega) hb

theorem symdec_fills (hst : s.st = .block) : Fills (symdec params s) := by
  have hi := h.core.block_pos hst
  have hsize := h.core.size_le (.inl hst)
  refine all_mono (symdec_all params s) ?_ ?_ (fun _ _ => trivial) (fun _ _ => trivial)
  · rintro _ t ⟨r, u, hr, hframe, hbound, rfl⟩
    have hu := stored_of_coderFrame h.stored hframe
    have hnotRecon : (if (s.blk.i + 1).toNat = s.blk.size.toNat then .ranked else s.st) ≠ SeqState.recon := by
      rw [hst]
      split <;> exact SeqState.noConfusion
    refine ⟨⟨hu.imem_wf, hu.omem_wf, hu.imem_exists, storedBlock_takeRank h.stored.block hr hbound⟩,
      fun hrecon => absurd hrecon hnotRecon, fun _ => takeRank_permutes (h.filled.mtf_permutes (.inl hst)) hr,
      fun _ k hk => ?_, fun hrecon => absurd hrecon hnotRecon, (filled_of_coderFrame h.filled hframe).omem_written⟩
    have hnext : (takeRank params r s.blk).i.toNat = s.blk.i.toNat + 1 := by
      rw [takeRank_frame]
      exact next_position hi hsize
    have hk : k < (takeRank params r s.blk).i.toNat := hk
    show Written (takeRank params r s.blk).data k
    rw [takeRank_frame]
    refine (written_write _ _ _).mpr ?_
    rcases Nat.lt_or_ge k s.blk.i.toNat with hlt | hge
    · exact .inr (h.filled.data_written (.inl hst) k hlt)
    · exact .inl (by omega)
  · exact fun e info u hr => stored_of_coderFrame h.stored (raisesTruncated_frame hr)

theorem storedBlock_reconstruct (hsize : s.blk.size.toNat ≤ MAXSIZE) : StoredBlock (reconstruct s).blk := by
  have hb := h.stored.block
  exact ⟨undoWalk_wf _ _ _ _ hb.data_wf, countPass_wf _ _ _ (zeroFill_wf _ hb.posn_wf),
    undoWalk_bound _ _ (by omega) _ hb.data_exists, countPass_bound _ _ hsize (zeroFill_bound hsize hb.posn_exists),
    hb.fshift_le, hb.mtfno_le, hb.mcount_le⟩

theorem ibwt_fills (hst : s.st = .ranked) : Fills (ibwt params s) := by
  have hsize := h.core.size_le (.inr (.inl hst))
  have hs : Stored (reconstruct s) :=
    ⟨h.stored.imem_wf, h.stored.omem_wf, h.stored.imem_exists, storedBlock_reconstruct h hsize⟩
  refine all_mono (ibwt_all params s) ?_ ?_ (fun _ _ => trivial) (fun _ _ => trivial)
  · rintro _ t ⟨hcount, hplace, -, rfl, hptr⟩
    have hcount : s.blk.mcount = 1 := by simpa [markerCountBad, params] using hcount
    have hplace : 1 ≤ s.blk.markerpos.toNat ∧ s.blk.markerpos.toNat < s.blk.size.toNat := by
      have := of_decide_eq_false hplace
      omega
    refine ⟨⟨hs.imem_wf, hs.omem_wf, hs.imem_exists, hs.block⟩,
      fun _ => ⟨congrArg BitVec.toNat hcount, hplace.1, hplace.2, hptr⟩,
      fun _ => h.filled.mtf_permutes (.inr (.inl hst)),
      fun _ k hk => written_undoWalk _ _ _ _ (h.filled.data_written (.inr (.inl hst)) k hk),
      fun _ => (h.core.ranked_pos hst).2, h.filled.omem_written⟩
  · rintro _ info t ⟨-, ⟨-, rfl⟩ | ⟨-, rfl⟩ | ⟨-, rfl⟩⟩
    · exact h.stored
    · exact h.stored
    · exact hs

theorem emit_fills : Fills (emit s) := by
  refine all_mono (emit_all s) ?_ (fun _ _ _ hr => hr.elim) (fun _ _ => trivial) (fun _ _ => trivial)
  rintro _ t ⟨-, hlen, rfl⟩
  refine ⟨⟨h.stored.imem_wf, appendBytes_wf _ _ _ h.stored.omem_wf, h.stored.imem_exists, h.stored.block⟩,
    filled_of_outside (not_inBlock (.inr (.inl rfl))) fun k hk => ?_⟩
  have hk : k < s.olen.toNat + (s.blk.size.toNat - 1) := by
    rwa [show (BitVec.ofNat 32 (s.olen.toNat + (s.blk.size.toNat - 1))).toNat = _ from Nat.mod_eq_of_lt hlen] at hk
  show (Memory.lookup (appendBytes s.dataRead (s.blk.size.toNat - 1) s.olen.toNat s.omem) k).isSome
  rw [lookup_appendBytes]
  split
  · rfl
  · exact h.filled.omem_written k (by omega)

omit h in
theorem symdecLoop_invOp {n : Nat} (h : Sound s) (hst : s.st = .block) (hn : s.blk.i.toNat + n = s.blk.size.toNat) :
    InvOp (symdecLoop params n s) fun t => t.st = .ranked := by
  induction n generalizing s with
  | zero =>
    have := h.core.block_pos hst
    omega
  | succ n ih =>
    rw [symdecLoop, if_pos hst]
    refine invOp_bind (invOp_of_sessionOp (Over := False) (symdec_sessionOp h.core hst) (fun _ _ hp => hp)
      (symdec_fills h hst)) fun _ t ht ⟨_, hsize, hi, hstt⟩ => ?_
    split at hstt
    next hlast =>
      obtain rfl : n = 0 := by omega
      exact ⟨ht, hstt⟩
    next => exact ih ht hstt (by rw [hsize]; omega)

theorem block_invOp (hst : s.st = .ready) : InvOp (block params s) fun t => t.st = .ready ∨ t.st = .done := by
  refine invOp_bind (invOp_of_sessionOp (Over := False) (blkhdr_sessionOp h.core hst) (fun _ _ hp => hp)
    (blkhdr_fills h)) fun _ t ht ⟨_, _, hcase⟩ => ?_
  rcases hcase with ⟨hdone, -⟩ | ⟨hblock, hi, -⟩
  · rw [if_pos hdone]
    exact ⟨ht, .inr hdone⟩
  · rw [if_neg (by rw [hblock]; exact SeqState.noConfusion)]
    refine invOp_bind (symdecLoop_invOp ht hblock (by rw [hi]; exact Nat.zero_add _)) fun _ u hu hranked => ?_
    refine invOp_bind (invOp_of_sessionOp (Over := False) (ibwt_sessionOp hu.core hranked) (fun _ _ hp => hp.2.2)
      (ibwt_fills hu hranked)) fun _ v hv hrecon => ?_
    exact invOp_of_sessionOp (emit_sessionOp hv.core hrecon) (fun _ _ hp => .inl hp) (emit_fills hv)

omit h in
theorem blockLoop_invOp (n : Nat) (h : Sound s) (hst : s.st = .ready ∨ s.st = .done) :
    InvOp (blockLoop params n s) fun t => t.st = .ready ∨ t.st = .done := by
  induction n generalizing s with
  | zero => exact ⟨h, hst⟩
  | succ n ih =>
    rw [blockLoop]
    split
    next hready => exact invOp_bind (block_invOp h hready) fun _ t ht hstt => ih ht hstt
    next => exact ⟨h, hst⟩

theorem launched_sound (hcap : s.len.toNat ≤ params.inCap.toNat) : Sound (launched s) where
  core := launched_core hcap
  stored := ⟨h.stored.imem_wf, h.stored.omem_wf, h.stored.imem_exists, h.stored.block⟩
  filled := filled_of_outside (not_inBlock (.inr (.inl rfl))) fun k hk => absurd hk (Nat.not_lt_zero k)

/-- What a command that its state accepts performs keeps the invariant. -/
theorem perform_invOp {i : Instr} (hsreset : i ≠ .sreset) (hlegal : legalIn i s.st = true) :
    InvOp (perform i s) fun _ => True := by
  have hready (hst : s.st = .ready) : CoderInv s := h.core.coder (.inl hst)
  have primitive {r : Res Nat} {P Q : Nat → State → Prop} {Short : Prop} (hst : s.st = .ready)
      (hop : StreamOp params s r P Short) (hcop : CoderOp params s r Q) : InvOp (storeRes r) fun _ => True :=
    invOp_of_sessionOp (storeRes_sessionOp h.core hst hop) (fun _ _ _ => trivial)
      (fills_storeRes (fills_of_coderOp h hcop))
  cases i with
  | nop => exact ⟨h, trivial⟩
  | sreset => exact absurd rfl hsreset
  | dinit =>
    by_cases hcap : s.len.toNat ≤ params.inCap.toNat
    · rw [perform, dinit_eq hcap]
      exact ⟨launched_sound h hcap, trivial⟩
    · rw [perform, dinit, if_pos (Nat.lt_of_not_le hcap)]
      exact trivial
  | preload =>
    have hst : s.st = .ready := of_decide_eq_true hlegal
    exact invOp_of_sessionOp (Over := False) (sessionOp_of_streamOp h.core (.inl hst) (preload_streamOp (hready hst)))
      (fun _ _ _ => trivial) (fills_of_coderOp h (preload_coderOp params s))
  | zpraw =>
    have hst : s.st = .ready := of_decide_eq_true hlegal
    exact primitive hst (bitValue_streamOp (zpraw_streamOp params (hready hst)))
      (bitValue_coderOp _ s (zpraw_coderOp params s))
  | zpctx c =>
    have hst : s.st = .ready := of_decide_eq_true hlegal
    exact primitive hst (bitValue_streamOp (zpctx_streamOp params _ (hready hst)))
      (bitValue_coderOp _ s (zpctx_coderOp params s _))
  | rawn n =>
    have hst : s.st = .ready := of_decide_eq_true hlegal
    exact primitive hst (rawn_streamOp params (hready hst)) (rawn_coderOp params s _)
  | binn nb base =>
    have hst : s.st = .ready := of_decide_eq_true hlegal
    exact primitive hst (binn_streamOp params _ (hready hst)) (binn_coderOp params s _ _)
  | blkhdr =>
    exact invOp_of_sessionOp (Over := False) (blkhdr_sessionOp h.core (of_decide_eq_true hlegal))
      (fun _ _ _ => trivial) (blkhdr_fills h)
  | symdec =>
    have hst : s.st = .block := of_decide_eq_true hlegal
    exact invOp_of_sessionOp (Over := False) (symdec_sessionOp h.core hst) (fun _ _ _ => trivial) (symdec_fills h hst)
  | ibwt =>
    have hst : s.st = .ranked := of_decide_eq_true hlegal
    exact invOp_of_sessionOp (Over := False) (ibwt_sessionOp h.core hst) (fun _ _ _ => trivial) (ibwt_fills h hst)
  | emit =>
    exact invOp_of_sessionOp (emit_sessionOp h.core (of_decide_eq_true hlegal)) (fun _ _ _ => trivial) (emit_fills h)
  | block => exact invOp_mono (block_invOp h (of_decide_eq_true hlegal)) fun _ _ => trivial
  | run =>
    by_cases hcap : s.len.toNat ≤ params.inCap.toNat
    · rw [perform, run_eq hcap]
      exact invOp_mono (blockLoop_invOp _ (launched_sound h hcap) (.inl rfl)) fun _ _ => trivial
    · rw [perform, run, dinit, if_pos (Nat.lt_of_not_le hcap)]
      exact trivial

end Operations

section Steps

variable {s t : State}

/-- A state in `RESET` with no fault and no output meets the invariant wherever its memories do. -/
theorem inv_of_reset (h : Stored s) (hst : s.st = .reset) (herr : s.err = .none) (holen : s.olen = 0) : Inv s := by
  refine inv_of_sound ⟨core_of_outside (by simp [InSession, hst]), h,
    filled_of_outside (not_inBlock (.inl hst)) fun k hk => ?_⟩ ?_ fun hf => ?_
  · rw [holen] at hk
    exact absurd hk (Nat.not_lt_zero k)
  · rw [hst, herr]
    exact iff_of_false SeqState.noConfusion fun hne => hne rfl
  · rw [hst] at hf
    cases hf

/-- The block registers of a reset, with nothing listed in the memories. -/
theorem storedBlock_of_reset {b : Block} (hdata : b.data = []) (hposn : b.posn = []) (hfshift : b.fshift = 0)
    (hmtfno : b.mtfno = 0) (hmcount : b.mcount = 0) : StoredBlock b := by
  refine ⟨?_, ?_, ?_, ?_, ?_, ?_, ?_⟩
  · rw [hdata]; exact wf_nil
  · rw [hposn]; exact wf_nil
  · rw [hdata]; exact fun e he => absurd he List.not_mem_nil
  · rw [hposn]; exact fun e he => absurd he List.not_mem_nil
  · rw [hfshift]; exact Nat.zero_le _
  · rw [hmtfno]; exact Nat.zero_le _
  · rw [hmcount]; exact Nat.zero_le _

theorem inv_softReset (h : Inv s) : Inv (softReset s) :=
  inv_of_reset ⟨h.imem_wf, wf_nil, h.imem_exists, storedBlock_of_reset rfl rfl rfl rfl rfl⟩ rfl rfl rfl

theorem inv_powerOn (s : State) : Inv (powerOn s) :=
  inv_of_reset ⟨wf_nil, wf_nil, fun _ he => absurd he List.not_mem_nil, storedBlock_of_reset rfl rfl rfl rfl rfl⟩
    rfl rfl rfl

/-- Registers of the host port other than `LEN` and the input memory are in no clause of the invariant. -/
theorem inv_hostRegisters (h : Inv s) (iaddr oaddr rdata : Word32) (pend : List HostEvent) :
    Inv { s with iaddr := iaddr, oaddr := oaddr, rdata := rdata, pend := pend } :=
  inv_of_sound
    ⟨⟨h.coder, h.launched, h.size_le, h.block_pos, h.ranked_pos⟩,
      ⟨h.imem_wf, h.omem_wf, h.imem_exists, (sound_of_inv h).stored.block⟩,
      ⟨h.recon_marker, h.mtf_permutes, h.data_written, h.recon_written, h.omem_written⟩⟩
    h.err_iff h.fault_olen

/-- In `RESET` the host may change the input (R24, R74). -/
theorem inv_input (h : Inv s) (hst : s.st = .reset) (len : Word32) {imem : List Host.Cell} (hwf : Memory.wf (w := 8) imem)
    (hexists : ∀ e ∈ imem, e.1 < params.inCap.toNat) : Inv { s with len := len, imem := imem } :=
  inv_of_sound
    ⟨core_of_outside (by simp [InSession, hst]), ⟨hwf, h.omem_wf, hexists, (sound_of_inv h).stored.block⟩,
      ⟨h.recon_marker, h.mtf_permutes, h.data_written, h.recon_written, h.omem_written⟩⟩
    h.err_iff h.fault_olen

theorem inv_hostWrite (h : Inv s) (r : HostReg) (v : Word32) : Inv (hostWrite params r v s) := by
  cases r with
  | len =>
    rw [hostWrite]
    split
    next hst => exact inv_input h hst v h.imem_wf h.imem_exists
    next => exact h
  | iaddr => exact inv_hostRegisters h v s.oaddr s.rdata s.pend
  | oaddr => exact inv_hostRegisters h s.iaddr v s.rdata s.pend
  | idata =>
    rw [hostWrite, writeIdata]
    split
    next hst =>
      by_cases hlt : s.iaddr.toNat < params.inCap.toNat
      · rw [if_pos hlt]
        exact inv_hostRegisters (inv_input h hst s.len (write_wf s.iaddr.toNat (v.setWidth 8) h.imem_wf)
          (write_bound hlt h.imem_exists)) (s.iaddr + 1) s.oaddr s.rdata s.pend
      · rw [if_neg hlt]
        exact inv_hostRegisters h (s.iaddr + 1) s.oaddr s.rdata s.pend
    next => exact h
  | _ => exact h

theorem inv_exec {i : Instr} (h : Inv s) (hexec : exec i s = .next t) : Inv t := by
  by_cases hsreset : i = .sreset
  · subst hsreset
    cases hexec
    exact inv_softReset h
  have hsound := sound_of_inv h
  rcases exec_next hsreset hexec with ⟨-, rfl⟩ | ⟨-, -, rfl⟩ | ⟨-, -, -, rfl⟩ |
    ⟨hterm, -, hlegal, hperf | ⟨e, info, u, hperf, rfl⟩⟩
  · exact h
  · exact inv_of_fault hsound.stored Err.noConfusion _
  · exact inv_of_fault hsound.stored Err.noConfusion _
  · have hst : s.st ≠ .fault := by
      intro hst
      rw [hst] at hterm
      cases hterm
    have hstt := sequenced_ne_fault (sequenced_of_perform hsound.core hlegal hperf) hst
    have herr : t.err = .none := by
      rw [commandFrame_err (commandOp_ok (perform_commandOp s hsreset) hperf)]
      exact not_not.mp (mt h.err_iff.mpr hst)
    obtain ⟨ht, -⟩ := all_ok (perform_invOp hsound hsreset hlegal) hperf
    exact inv_of_sound ht (iff_of_false hstt fun hne => hne herr) fun hf => absurd hf hstt
  · have he : e ≠ .none := by
      rcases (commandOp_raise (perform_commandOp s hsreset) hperf).1 with rfl | rfl | rfl <;> exact Err.noConfusion
    exact inv_of_fault (all_raise (perform_invOp hsound hsreset hlegal) hperf) he _

end Steps

/-- Settles O53. -/
theorem resetSatisfiesTheInvariant : Obligations.ResetSatisfiesTheInvariant :=
  inv_of_reset ⟨wf_nil, wf_nil, fun _ he => absurd he List.not_mem_nil, storedBlock_of_reset rfl rfl rfl rfl rfl⟩
    rfl rfl rfl

/-- Settles O54: by the ways a step can end; a command is performed from a state of the invariant. -/
theorem stepKeepsTheInvariant : Obligations.StepKeepsTheInvariant := by
  intro s t h hstep
  have hpend (rest : List HostEvent) : Inv { s with pend := rest } := inv_hostRegisters h s.iaddr s.oaddr s.rdata rest
  rcases step_cases hstep with ⟨-, rfl⟩ | ⟨rest, ⟨_, r, -, -, rfl⟩ | ⟨_, r, v, -, -, -, rfl⟩ | ⟨-, rfl⟩ |
    ⟨_, v, -, -, ⟨i, -, hexec⟩ | ⟨-, rfl⟩⟩⟩
  · exact h
  · exact inv_hostRegisters h _ _ _ _
  · exact inv_hostWrite (hpend rest) r v
  · exact inv_powerOn _
  · exact inv_exec (hpend rest) hexec
  · rw [rejectWord]
    split
    · exact hpend rest
    · exact inv_of_fault (sound_of_inv (hpend rest)).stored Err.noConfusion _

end Sys2Proof.Machine
end

section
/-! What each command writes (R23, R24, R43 to R45, R50, R61), and the checks and the output of a block (R202, R222). -/

namespace Sys2Proof.Machine

/-- What a command writes up to its end or up to a fault it raises, but for what fault entry writes. -/
def Writes (i : Instr) (s t : State) : Prop :=
  match i with
  | .nop => t = s
  | .sreset => False
  | .dinit => t = { s with st := t.st, coder := t.coder, ctx := t.ctx, olen := t.olen }
  | .preload => t = { s with coder := { s.coder with
      buf := t.coder.buf, scount := t.coder.scount, delay := t.coder.delay, rp := t.coder.rp } }
  | .blkhdr => t = { s with
      st := t.st, coder := t.coder, ctx := t.ctx
      blk := { s.blk with
        size := t.blk.size, fshift := t.blk.fshift, fadd := t.blk.fadd, freq := t.blk.freq, mtf := t.blk.mtf,
        mtfno := t.blk.mtfno, markerpos := t.blk.markerpos, mcount := t.blk.mcount, i := t.blk.i } }
  | .symdec => t = { s with
      st := t.st, coder := t.coder, ctx := t.ctx
      blk := { s.blk with
        fadd := t.blk.fadd, freq := t.blk.freq, mtf := t.blk.mtf, mtfno := t.blk.mtfno,
        markerpos := t.blk.markerpos, mcount := t.blk.mcount, i := t.blk.i, data := t.blk.data } }
  | .ibwt => t = { s with
      st := t.st
      blk := { s.blk with
        data := t.blk.data, posn := t.blk.posn, count := t.blk.count, last := t.blk.last, ptr := t.blk.ptr } }
  | .emit => t = { s with st := t.st, omem := t.omem, olen := t.olen }
  | .block => EngineFrame s t
  | .run => EngineFrame s t
  | _ => t = { s with coder := t.coder, ctx := t.ctx, res := t.res }

theorem writes_refl {i : Instr} (s : State) (hsreset : i ≠ .sreset) : Writes i s s := by
  cases i with
  | sreset => exact absurd rfl hsreset
  | _ => exact rfl

section Fields

variable {i : Instr} {s t : State} (h : Writes i s t)
include h

theorem writes_res (hi : returnsValue i = false) : t.res = s.res := by
  cases i with
  | sreset => exact h.elim
  | zpraw | zpctx _ | rawn _ | binn _ _ => cases hi
  | _ => rw [show t = _ from h]

theorem writes_coder (hi : readsStream i = false) : t.coder = s.coder ∧ t.ctx = s.ctx := by
  cases i with
  | nop => rw [show t = s from h]; exact ⟨rfl, rfl⟩
  | sreset => exact h.elim
  | ibwt | emit => rw [show t = _ from h]; exact ⟨rfl, rfl⟩
  | _ => cases hi

theorem writes_omem (hi : appendsOutput i = false) : t.omem = s.omem := by
  cases i with
  | sreset => exact h.elim
  | emit | block | run => cases hi
  | _ => rw [show t = _ from h]

theorem writes_blk (hi : writesBlock i = false) : t.blk = s.blk := by
  cases i with
  | sreset => exact h.elim
  | blkhdr | symdec | ibwt | block | run => cases hi
  | _ => rw [show t = _ from h]

theorem writes_olen (hi : writesOlen i = false) : t.olen = s.olen := by
  cases i with
  | sreset => exact h.elim
  | dinit | emit | block | run => cases hi
  | _ => rw [show t = _ from h]

end Fields

section Operations

variable {s t : State}

/-- An operation of the coder, as a command that returns a value. -/
theorem writes_of_coderFrame {i : Instr} (hi : returnsValue i = true) (h : CoderFrame s t) : Writes i s t := by
  cases i with
  | zpraw | zpctx _ | rawn _ | binn _ _ =>
    show t = { s with coder := t.coder, ctx := t.ctx, res := t.res }
    rw [h]
  | _ => cases hi

theorem preload_trans {u : State} (h : Writes .preload s t) (k : Writes .preload t u) : Writes .preload s u := by
  unfold Writes at *
  rw [k, h]

/-- Both ends of an operation that returns or raises. -/
def Ends {α : Type} (r : Res α) (P : State → Prop) : Prop :=
  r.All (fun _ t => P t) (fun _ _ u => P u) (fun _ => True) (fun _ => True)

theorem ends_bind {α β : Type} {r : Res α} {k : α → State → Res β} {P : State → Prop} (h : Ends r P)
    (hk : ∀ v t, P t → Ends (k v t) P) : Ends (r.bind k) P :=
  all_bind h hk

theorem ends_mono {α : Type} {r : Res α} {P Q : State → Prop} (h : Ends r P) (hPQ : ∀ t, P t → Q t) : Ends r Q :=
  all_mono h (fun _ _ => hPQ _) (fun _ _ _ => hPQ _) (fun _ h => h) (fun _ h => h)

theorem nextByte_writes (p : Params) (counted : Bool) (s : State) : Ends (nextByte p counted s) (Writes .preload s) := by
  unfold nextByte
  split
  · split
    · trivial
    · exact rfl
  · split
    · dsimp only
      split
      · exact rfl
      · exact rfl
    · exact rfl

theorem preloadLoop_writes (p : Params) (n : Nat) (s : State) : Ends (preloadLoop p n s) (Writes .preload s) := by
  induction n generalizing s with
  | zero => exact rfl
  | succ n ih =>
    rw [preloadLoop]
    split
    · refine ends_bind (nextByte_writes p true s) fun b t ht => ?_
      refine ends_mono (ih (shiftInByte b t)) fun u hu => preload_trans (preload_trans ht ?_) hu
      exact rfl
    · exact rfl

theorem preload_writes (p : Params) (s : State) : Ends (preload p s) (Writes .preload s) := preloadLoop_writes p 4 s

theorem storeRes_writes {i : Instr} {p : Params} {r : Res Nat} {P : Nat → State → Prop} (hi : returnsValue i = true)
    (h : CoderOp p s r P) : Ends (storeRes r) (Writes i s) := by
  refine all_mono (storeRes_all p s h) (fun _ t ⟨ht, _⟩ => ?_)
    (fun _ _ _ hr => writes_of_coderFrame hi (raisesTruncated_frame hr)) (fun _ _ => trivial) (fun _ _ => trivial)
  cases i with
  | zpraw | zpctx _ | rawn _ | binn _ _ => exact ht
  | _ => cases hi

theorem blkhdr_writes (p : Params) (s : State) : Ends (blkhdr p s) (Writes .blkhdr s) := by
  refine all_mono (blkhdr_all p s) ?_ ?_ (fun _ _ => trivial) (fun _ _ => trivial)
  · rintro _ t ⟨v, u, hframe, ⟨-, rfl⟩ | ⟨-, -, f, -, -, rfl⟩⟩ <;> rw [show u = _ from hframe] <;> exact rfl
  · rintro e info t (⟨-, -, -, -, hframe⟩ | ⟨-, v, u, -, -, -, hframe, rfl⟩)
    · rw [show t = _ from hframe]
      exact rfl
    · rw [show u = _ from hframe]
      exact rfl

theorem symdec_writes (p : Params) (s : State) : Ends (symdec p s) (Writes .symdec s) := by
  refine all_mono (symdec_all p s) ?_ ?_ (fun _ _ => trivial) (fun _ _ => trivial)
  · rintro _ t ⟨r, u, -, hframe, -, rfl⟩
    rw [show u = _ from hframe, takeRank_frame]
    exact rfl
  · rintro e info t ⟨-, -, -, -, hframe⟩
    rw [show t = _ from hframe]
    exact rfl

theorem ibwt_writes (p : Params) (s : State) : Ends (ibwt p s) (Writes .ibwt s) := by
  refine all_mono (ibwt_all p s) ?_ ?_ (fun _ _ => trivial) (fun _ _ => trivial)
  · rintro _ t ⟨-, -, -, rfl, -⟩
    exact rfl
  · rintro e info t ⟨-, ⟨-, rfl⟩ | ⟨-, rfl⟩ | ⟨-, rfl⟩⟩ <;> exact rfl

theorem ends_of_engineOp {r : Res Unit} {P Q : State → Prop} (h : EngineOp s r P) (hQ : ∀ t, EngineFrame s t → Q t) :
    Ends r Q :=
  all_mono h (fun _ _ h => hQ _ h.1) (fun _ _ _ h => hQ _ h.2) (fun _ _ => trivial) (fun _ _ => trivial)

theorem perform_writes {i : Instr} (s : State) (hsreset : i ≠ .sreset) : Ends (perform i s) (Writes i s) := by
  cases i with
  | nop => exact rfl
  | sreset => exact absurd rfl hsreset
  | dinit =>
    refine all_mono (dinit_all params s) (fun _ t ⟨ht, _⟩ => ?_) (fun e info t hr => ?_) (fun _ h => h.elim)
      (fun _ _ => trivial)
    · rw [ht]
      exact rfl
    · rw [show t = _ from raisesTruncated_frame hr]
      exact rfl
  | preload => exact preload_writes params s
  | zpraw => exact storeRes_writes rfl (bitValue_coderOp _ s (zpraw_coderOp params s))
  | zpctx c => exact storeRes_writes rfl (bitValue_coderOp _ s (zpctx_coderOp params s _))
  | rawn n => exact storeRes_writes rfl (rawn_coderOp params s _)
  | binn nb base => exact storeRes_writes rfl (binn_coderOp params s _ _)
  | blkhdr => exact blkhdr_writes params s
  | symdec => exact symdec_writes params s
  | ibwt => exact ibwt_writes params s
  | emit =>
    refine all_mono (emit_all s) (fun _ t ⟨_, _, ht⟩ => ?_) (fun _ _ _ h => h.elim) (fun _ _ => trivial)
      (fun _ _ => trivial)
    rw [ht]
    exact rfl
  | block => exact ends_of_engineOp (block_engineOp params s) fun _ h => h
  | run => exact ends_of_engineOp (run_engineOp params s) fun _ h => h

/-- What is performed to its end does not end in `FAULT`. -/
theorem perform_ne_fault {i : Instr} (hsreset : i ≠ .sreset) (hst : s.st ≠ .fault) (hr : perform i s = .ok () t) :
    t.st ≠ .fault := by
  have of_frame (h : CoderFrame s t) : t.st ≠ .fault := coderFrame_st h ▸ hst
  have of_storeRes {r : Res Nat} {P : Nat → State → Prop} (h : CoderOp params s r P) (hr : storeRes r = .ok () t) :
      t.st ≠ .fault := by
    rw [(all_ok (storeRes_all params s h) hr).1]
    exact hst
  have of_st {x : SeqState} (h : t.st = x) (hx : x ≠ .fault) : t.st ≠ .fault := h ▸ hx
  cases i with
  | nop => cases hr; exact hst
  | sreset => exact absurd rfl hsreset
  | dinit => exact of_st (all_ok (dinit_engineOp params s) hr).2 SeqState.noConfusion
  | preload => exact of_frame (all_ok (preload_coderOp params s) hr).1
  | zpraw => exact of_storeRes (bitValue_coderOp _ s (zpraw_coderOp params s)) hr
  | zpctx c => exact of_storeRes (bitValue_coderOp _ s (zpctx_coderOp params s _)) hr
  | rawn n => exact of_storeRes (rawn_coderOp params s _) hr
  | binn nb base => exact of_storeRes (binn_coderOp params s _ _) hr
  | blkhdr =>
    exact (all_ok (blkhdr_engineOp params s) hr).2.elim (fun h => of_st h SeqState.noConfusion)
      fun h => of_st h SeqState.noConfusion
  | symdec =>
    obtain ⟨r, u, -, -, -, rfl⟩ := all_ok (symdec_all params s) hr
    rw [setSt_st]
    split
    · exact SeqState.noConfusion
    · exact hst
  | ibwt => exact of_st (all_ok (ibwt_engineOp params s) hr).2 SeqState.noConfusion
  | emit => exact of_st (all_ok (emit_engineOp s) hr).2 SeqState.noConfusion
  | block =>
    exact (all_ok (block_engineOp params s) hr).2.elim (fun h => of_st h SeqState.noConfusion)
      fun h => of_st h SeqState.noConfusion
  | run =>
    exact (all_ok (run_engineOp params s) hr).2.elim (fun h => of_st h SeqState.noConfusion)
      fun h => of_st h SeqState.noConfusion

end Operations

/-- A command other than `SRESET` and the state `u` its own effect ends in: fault entry, where there is one, is all that
follows. -/
theorem exec_writes {i : Instr} {s t : State} (hsreset : i ≠ .sreset) (hexec : exec i s = .next t) :
    ∃ u, Writes i s u ∧ CommandFrame s u ∧
      (t = u ∧ (t.st ≠ .fault ∨ t = s) ∨ ∃ e info, t = faultEntry e info u) := by
  have hwrites := perform_writes s hsreset
  have hop := perform_commandOp s hsreset
  rcases exec_next hsreset hexec with ⟨-, rfl⟩ | ⟨-, -, rfl⟩ | ⟨-, -, -, rfl⟩ |
    ⟨hterm, -, -, hperf | ⟨e, info, u, hperf, rfl⟩⟩
  · exact ⟨t, writes_refl t hsreset, commandFrame_refl t, .inl ⟨rfl, .inr rfl⟩⟩
  · exact ⟨s, writes_refl s hsreset, commandFrame_refl s, .inr ⟨_, _, rfl⟩⟩
  · exact ⟨s, writes_refl s hsreset, commandFrame_refl s, .inr ⟨_, _, rfl⟩⟩
  · refine ⟨t, all_ok (P := fun _ t => Writes i s t) hwrites hperf, commandOp_ok hop hperf, .inl ⟨rfl, .inl ?_⟩⟩
    refine perform_ne_fault hsreset ?_ hperf
    intro hst
    rw [hst] at hterm
    cases hterm
  · exact ⟨u, all_raise hwrites hperf, (commandOp_raise hop hperf).2, .inr ⟨e, info, rfl⟩⟩

/-- The block registers a command may write (R34 to R42), and the registers of the coder `PRELOAD` may write (R112). -/
theorem writes_parts {i : Instr} {s t : State} (h : Writes i s t) :
    (i = .preload → t.coder = { s.coder with
      buf := t.coder.buf, scount := t.coder.scount, delay := t.coder.delay, rp := t.coder.rp }) ∧
    (appendsOutput i = false → t.omem = s.omem) ∧
    (writesBlock i = false → t.blk = s.blk) ∧
    (i = .blkhdr → t.blk = { s.blk with
      size := t.blk.size, fshift := t.blk.fshift, fadd := t.blk.fadd, freq := t.blk.freq, mtf := t.blk.mtf,
      mtfno := t.blk.mtfno, markerpos := t.blk.markerpos, mcount := t.blk.mcount, i := t.blk.i }) ∧
    (i = .symdec → t.blk = { s.blk with
      fadd := t.blk.fadd, freq := t.blk.freq, mtf := t.blk.mtf, mtfno := t.blk.mtfno,
      markerpos := t.blk.markerpos, mcount := t.blk.mcount, i := t.blk.i, data := t.blk.data }) ∧
    (i = .ibwt → t.blk = { s.blk with
      data := t.blk.data, posn := t.blk.posn, count := t.blk.count, last := t.blk.last, ptr := t.blk.ptr }) := by
  refine ⟨?_, writes_omem h, writes_blk h, ?_, ?_, ?_⟩ <;> rintro rfl <;> rw [show t = _ from h]

/-- Settles O13: fault entry writes no register but the four, so the frame is that of the command's own effect. -/
theorem registersHaveTheirWriters : Obligations.RegistersHaveTheirWriters := by
  intro i s t hexec
  by_cases hsreset : i = .sreset
  · subst hsreset
    cases hexec
    exact ⟨rfl, rfl, rfl, rfl, rfl, fun h => absurd rfl h⟩
  obtain ⟨u, hw, hframe, hend⟩ := exec_writes hsreset hexec
  have himem := commandFrame_imem hframe
  have hlen := commandFrame_len hframe
  have hrdata := commandFrame_rdata hframe
  have hpend := commandFrame_pend hframe
  have hboot := commandFrame_bootCount hframe
  have hiaddr := commandFrame_iaddr hframe
  have hoaddr := commandFrame_oaddr hframe
  have hreset := commandFrame_resetCount hframe
  have hres := writes_res hw
  have hcoder := writes_coder hw
  have hparts := writes_parts hw
  rcases hend with ⟨rfl, hst⟩ | ⟨e, info, rfl⟩
  · exact ⟨himem, hlen, hrdata, hpend, hboot, fun _ => ⟨hiaddr, hoaddr, hreset,
      fun _ => ⟨commandFrame_err hframe, commandFrame_einfo hframe⟩,
      fun hfault => .inl (hst.resolve_left fun h => h hfault), fun _ => writes_olen hw, hres, hcoder, hparts⟩⟩
  · exact ⟨himem, hlen, hrdata, hpend, hboot, fun _ => ⟨hiaddr, hoaddr, hreset,
      fun h => absurd rfl h, fun _ => .inr rfl, fun h => absurd rfl h, hres, hcoder, hparts⟩⟩

section Output

/-- Bytes already output are kept and none is taken back (R44, R62). -/
def Appended (s t : State) : Prop :=
  (∀ k < s.olen.toNat, t.omemRead k = s.omemRead k) ∧ s.olen.toNat ≤ t.olen.toNat

variable {s t : State}

theorem appended_refl (s : State) : Appended s s := ⟨fun _ _ => rfl, le_refl _⟩

theorem appended_trans {u : State} (h : Appended s t) (k : Appended t u) : Appended s u := by
  obtain ⟨hread, hle⟩ := h
  obtain ⟨hread', hle'⟩ := k
  exact ⟨fun j hj => (hread' j (by omega)).trans (hread j hj), hle.trans hle'⟩

/-- A command that writes neither the output memory nor its length. -/
theorem appended_of_writes {i : Instr} (h : Writes i s t) (hframe : CommandFrame s t) (homem : appendsOutput i = false)
    (holen : writesOlen i = false) : Appended s t := by
  refine ⟨fun k _ => ?_, (congrArg BitVec.toNat (writes_olen h holen)).ge⟩
  rw [State.omemRead, State.omemRead, commandFrame_resetCount hframe, writes_omem h homem]

theorem ends_appended_bind {α β : Type} {r : Res α} {k : α → State → Res β} (h : Ends r (Appended s))
    (hk : ∀ v t, Ends (k v t) (Appended t)) : Ends (r.bind k) (Appended s) :=
  ends_bind h fun v t ht => ends_mono (hk v t) fun _ hu => appended_trans ht hu

/-- The operations of a block before `EMIT` do not touch the output. -/
theorem ends_appended_of_writes {i : Instr} {r : Res Unit} (hop : CommandOp s r) (h : Ends r (Writes i s))
    (homem : appendsOutput i = false) (holen : writesOlen i = false) : Ends r (Appended s) := by
  cases r with
  | ok v t => exact appended_of_writes (show Writes i s t from h) hop homem holen
  | raise e info u => exact appended_of_writes (show Writes i s u from h) hop.2 homem holen
  | stop f => trivial
  | refuse f => trivial

theorem read_appendBytes (f : Nat → Byte) (n o : Nat) (m : Memory 8) (sp : Space) (ep k : Nat) :
    Memory.read sp ep (appendBytes f n o m) k = if o ≤ k ∧ k < o + n then f (k - o) else Memory.read sp ep m k := by
  unfold Memory.read
  rw [lookup_appendBytes]
  by_cases h : o ≤ k ∧ k < o + n
  · rw [if_pos h, if_pos h]
  · rw [if_neg h, if_neg h]

theorem emit_appended (s : State) : Ends (emit s) (Appended s) := by
  refine all_mono (emit_all s) ?_ (fun _ _ _ h => h.elim) (fun _ _ => trivial) (fun _ _ => trivial)
  rintro _ t ⟨-, hlen, rfl⟩
  refine ⟨fun k hk => (read_appendBytes _ _ _ _ _ _ _).trans (if_neg (by omega)), ?_⟩
  show s.olen.toNat ≤ (BitVec.ofNat 32 (s.olen.toNat + (s.blk.size.toNat - 1))).toNat
  rw [BitVec.toNat_ofNat, Nat.mod_eq_of_lt hlen]
  exact Nat.le_add_right _ _

theorem symdecLoop_appended (n : Nat) (s : State) : Ends (symdecLoop params n s) (Appended s) := by
  induction n generalizing s with
  | zero => exact appended_refl s
  | succ n ih =>
    rw [symdecLoop]
    split
    · exact ends_appended_bind (ends_appended_of_writes (commandOp_of_engineOp (symdec_engineOp params s))
        (symdec_writes params s) rfl rfl) fun _ t => ih t
    · exact appended_refl s

theorem block_appended (s : State) : Ends (block params s) (Appended s) := by
  refine ends_appended_bind (ends_appended_of_writes (commandOp_of_engineOp (blkhdr_engineOp params s))
    (blkhdr_writes params s) rfl rfl) fun _ t => ?_
  split
  · exact appended_refl t
  · exact ends_appended_bind (symdecLoop_appended _ t) fun _ u => ends_appended_bind
      (ends_appended_of_writes (commandOp_of_engineOp (ibwt_engineOp params u)) (ibwt_writes params u) rfl rfl)
      fun _ v => emit_appended v

theorem perform_appended {i : Instr} (s : State) (hsreset : i ≠ .sreset) (hrun : i ≠ .run) (hdinit : i ≠ .dinit) :
    Ends (perform i s) (Appended s) := by
  cases i with
  | sreset => exact absurd rfl hsreset
  | run => exact absurd rfl hrun
  | dinit => exact absurd rfl hdinit
  | emit => exact emit_appended s
  | block => exact block_appended s
  | _ => exact ends_appended_of_writes (perform_commandOp s hsreset) (perform_writes s hsreset) rfl rfl

end Output

/-- Settles O42: `DINIT` keeps the output memory and drops its length; every other command appends. -/
theorem outputIsAppendOnly : Obligations.OutputIsAppendOnly := by
  intro i s t hsreset hrun hexec
  by_cases hdinit : i = .dinit
  · subst hdinit
    obtain ⟨u, hw, hframe, hend⟩ := exec_writes hsreset hexec
    have hread (k : Nat) : u.omemRead k = s.omemRead k := by
      rw [State.omemRead, State.omemRead, commandFrame_resetCount hframe, writes_omem hw rfl]
    rcases hend with ⟨rfl, -⟩ | ⟨e, info, rfl⟩
    · exact ⟨fun k _ => hread k, fun h => absurd rfl h⟩
    · exact ⟨fun k _ => hread k, fun h => absurd rfl h⟩
  · have hends := perform_appended s hsreset hrun hdinit
    rcases exec_next hsreset hexec with ⟨-, rfl⟩ | ⟨-, -, rfl⟩ | ⟨-, -, -, rfl⟩ |
      ⟨-, -, -, hperf | ⟨e, info, u, hperf, rfl⟩⟩
    · exact ⟨fun _ _ => rfl, fun _ _ => le_refl _⟩
    · exact ⟨fun _ _ => rfl, fun _ h => absurd rfl h⟩
    · exact ⟨fun _ _ => rfl, fun _ h => absurd rfl h⟩
    · obtain ⟨hread, hle⟩ := all_ok (P := fun _ t => Appended s t) hends hperf
      exact ⟨hread, fun _ _ => hle⟩
    · obtain ⟨hread, -⟩ := all_raise hends hperf
      exact ⟨hread, fun _ h => absurd rfl h⟩

/-- Settles O41. -/
theorem emitAppendsTheBlock : Obligations.EmitAppendsTheBlock := by
  intro s hst hsize hlen
  have hemit : emit s = .ok () { s with
      omem := appendBytes s.dataRead (s.blk.size.toNat - 1) s.olen.toNat s.omem
      olen := BitVec.ofNat 32 (s.olen.toNat + (s.blk.size.toNat - 1))
      st := .ready } := by
    rw [emit, if_neg (Nat.not_lt.mpr hsize), if_neg (Nat.not_le.mpr hlen)]
  refine ⟨_, (exec_emit hst).trans (congrArg finish hemit), rfl, Nat.mod_eq_of_lt hlen, fun k hk => ?_, fun k hk => ?_⟩
  · refine (read_appendBytes _ _ _ _ _ _ _).trans ?_
    rw [if_pos (by omega), Nat.add_sub_cancel_left]
  · exact (read_appendBytes _ _ _ _ _ _ _).trans (if_neg (by omega))

/-- Settles O37. -/
theorem ibwtChecksTheMarkerFirst : Obligations.IbwtChecksTheMarkerFirst := by
  intro s hst
  rw [exec_ibwt hst, ibwt]
  refine ⟨fun hcount => ?_, fun hcount hplace => ?_⟩
  · have hbad : markerCountBad params s.blk = true := by
      have hne : s.blk.mcount ≠ 1 := fun h => hcount (by rw [h]; rfl)
      simpa [markerCountBad, params] using hne
    rw [if_pos hbad]
    rfl
  · have hgood : markerCountBad params s.blk = false := by
      have heq : s.blk.mcount = 1 := BitVec.eq_of_toNat_eq hcount
      simp [markerCountBad, heq]
    have hbad : markerPlaceBad s.blk = true := decide_eq_true hplace
    rw [if_neg (by rw [hgood]; exact Bool.false_ne_true), if_pos hbad]
    rfl

end Sys2Proof.Machine
end

section
/-! A stream that goes on in ones, as one that has ended does (R87, R111): each raw decision returns 0 and leaves the coder
as it was but for the valid bits and the countdown, so the next header is the terminator. -/

namespace Sys2Proof.Machine

/-- The coder at the end of the input, all ones, with `c.1` valid bits and the countdown at `c.2`. -/
def endedCoder (c : Nat × Nat) (rp : Word32) : Coder :=
  { a := 0, code := 0xFFFF, fence := 0x7FFF, buf := 0xFFFFFFFF, scount := BitVec.ofNat 6 c.1,
    delay := BitVec.ofNat 8 c.2, rp := rp }

def ended (c : Nat × Nat) (s : State) : State := s.setCoder (endedCoder c s.len)

/-- The valid bits and the countdown after a raw decision there: a refill takes two phantom bytes (R113). -/
def endedStep (c : Nat × Nat) : Nat × Nat := if c.1 = 16 then (31, c.2 - 2) else (c.1 - 1, c.2)

/-- The valid bits and the countdown before `n` raw decisions that do not run short. -/
structure Lasts (n : Nat) (c : Nat × Nat) : Prop where
  low : 16 ≤ c.1
  high : c.1 ≤ 32
  delay : c.2 < 256
  bits : 33 + n ≤ 8 * (c.2 - 1) + c.1

theorem lasts_step {n : Nat} {c : Nat × Nat} (h : Lasts (n + 1) c) : Lasts n (endedStep c) := by
  obtain ⟨hlow, hhigh, hdelay, hbits⟩ := h
  unfold endedStep
  split <;> constructor <;> dsimp only <;> omega

section Decision

variable {n : Nat} {c : Nat × Nat} (h : Lasts n c) (s : State)
include h

theorem endedCoder_scount : (endedCoder c s.len).scount.toNat = c.1 :=
  Nat.mod_eq_of_lt (lt_of_le_of_lt h.high (by decide))

theorem endedCoder_delay : (endedCoder c s.len).delay.toNat = c.2 := Nat.mod_eq_of_lt h.delay

theorem ended_coderInv : CoderInv (ended c s) := by
  have hscount := endedCoder_scount h s
  have hdelay := endedCoder_delay h s
  obtain ⟨hlow, hhigh, -, hbits⟩ := h
  refine ⟨(by decide : (0 : Word16).toNat < 0x8000), (by decide : (0x7FFF : Word16).toNat = min (0xFFFF : Word16).toNat 0x7FFF),
    hscount.symm ▸ hlow, hscount.symm ▸ hhigh, le_refl _, ?_⟩
  show 1 ≤ (endedCoder c s.len).delay.toNat
  omega

theorem bitsLeft_ended : bitsLeft (ended c s) = 8 * (c.2 - 1) + c.1 := by
  have hscount := endedCoder_scount h s
  have hdelay := endedCoder_delay h s
  rw [bitsLeft, deliverable, ended, setCoder_coder, hscount, hdelay]
  show 8 * (s.len.toNat - s.len.toNat + _) + _ = _
  omega

end Decision

/-- Ones enter the lookahead buffer. -/
theorem shiftedIn_ones (n : Nat) : shiftedIn 0xFFFFFFFF (fun _ => 0xFF) n = 0xFFFFFFFF := by
  induction n with
  | zero => rfl
  | succ n ih =>
    rw [shiftedIn_succ, ih]
    decide

/-- A one enters the code. -/
theorem shifted_ones_code {k : Nat} (hlow : 15 ≤ k) (hhigh : k < 32) :
    BitVec.ofNat 16 (0xFFFF * 2 ^ 1 + (0xFFFFFFFF : Word32).toNat / 2 ^ k % 2 ^ 1) = 0xFFFF := by
  interval_cases k <;> decide

section Renormalisation

variable {n : Nat} {c : Nat × Nat} (h : Lasts (n + 1) c) (s : State)
include h

/-- One bit shifted out, before the refill. -/
theorem shifted_ended : shifted (endedCoder c s.len) 0x8000 (endedCoder c s.len).code.toNat 1 =
    endedCoder (c.1 - 1, c.2) s.len := by
  have hscount := endedCoder_scount h s
  obtain ⟨hlow, hhigh, -, -⟩ := h
  have hcode := shifted_ones_code (k := c.1 - 1) (by omega) (by omega)
  unfold shifted
  rw [hscount]
  exact congrArg (fun x => Coder.mk 0 x 0x7FFF 0xFFFFFFFF (BitVec.ofNat 6 (c.1 - 1)) (BitVec.ofNat 8 c.2) s.len) hcode

theorem shifted_ended_scount : (endedCoder (c.1 - 1, c.2) s.len).scount.toNat = c.1 - 1 := by
  obtain ⟨-, hhigh, -, -⟩ := h
  exact Nat.mod_eq_of_lt (by omega)

/-- At the end of the input a refill pulls phantom bytes alone (R111). -/
theorem pulled_ended (k : Nat) : pulled (ended c s) (endedCoder (c.1 - 1, c.2) s.len) k =
    endedCoder (c.1 - 1 + 8 * k, c.2 - k) s.len := by
  have hdelay : (endedCoder (c.1 - 1, c.2) s.len).delay.toNat = c.2 := Nat.mod_eq_of_lt h.delay
  have hbuf : shiftedIn 0xFFFFFFFF (fun j => streamByte (ended c s) (s.len.toNat + j)) k = 0xFFFFFFFF := by
    refine (shiftedIn_congr _ fun j _ => if_neg ?_).trans (shiftedIn_ones k)
    show ¬ s.len.toNat + j < s.len.toNat
    omega
  have hreal : min k ((ended c s).len.toNat - s.len.toNat) = 0 := by
    show min k (s.len.toNat - s.len.toNat) = 0
    omega
  have hrp : BitVec.ofNat 32 (s.len.toNat + 0) = s.len := by rw [Nat.add_zero, BitVec.ofNat_toNat, BitVec.setWidth_eq]
  unfold pulled
  rw [shifted_ended_scount h s, hdelay]
  show Coder.mk 0 0xFFFF 0x7FFF (shiftedIn 0xFFFFFFFF (fun j => streamByte (ended c s) (s.len.toNat + j)) k) _
    (BitVec.ofNat 8 (c.2 - (k - min k ((ended c s).len.toNat - s.len.toNat))))
    (BitVec.ofNat 32 (s.len.toNat + min k ((ended c s).len.toNat - s.len.toNat))) = _
  rw [hbuf, hreal, hrp]
  rfl

theorem settled_ended :
    settled (ended c s) (endedCoder (c.1 - 1, c.2) s.len) = endedCoder (endedStep c) s.len := by
  have hscount := shifted_ended_scount h s
  have hlow := h.low
  have hsettle : settleBytes (endedCoder (c.1 - 1, c.2) s.len) = if c.1 = 16 then 2 else 0 := by
    unfold settleBytes
    rw [hscount]
    split
    next => rw [if_pos (by omega), show c.1 - 1 = 15 by omega]; rfl
    next => rw [if_neg (by omega)]
  have hfence : BitVec.ofNat 16 (min (0xFFFF : Word16).toNat 0x7FFF) = (0x7FFF : Word16) := by decide
  rw [settled_eq, pulled_ended h s, hsettle]
  show { endedCoder _ s.len with fence := BitVec.ofNat 16 (min (0xFFFF : Word16).toNat 0x7FFF) } = _
  rw [hfence, endedStep]
  split
  next h16 => rw [h16]; rfl
  next => rfl

/-- What a renormalisation by one bit makes of such a coder. -/
theorem mpsState_ended : mpsState (ended c s) 0x8000 = ended (endedStep c) s := by
  show (ended c s).setCoder (settled (ended c s)
    (shifted (endedCoder c s.len) 0x8000 (endedCoder c s.len).code.toNat 1)) = _
  rw [shifted_ended h s, settled_ended h s]
  rfl

end Renormalisation

section Loop

variable {n : Nat} {c : Nat × Nat} {s : State} (hcap : s.len.toNat ≤ params.inCap.toNat)
include hcap

theorem zpraw_ended (h : Lasts (n + 1) c) : zpraw params (ended c s) = .ok false (ended (endedStep c) s) := by
  have hbits := bitsLeft_ended h s
  have henough := h.bits
  have hinv := ended_coderInv h s
  obtain ⟨b, t, hr, -, -, -, hd⟩ := streamOp_returns (zpraw_streamOp params hinv) hcap (by
    rintro (⟨-, hshort, -⟩ | ⟨hmax, -⟩)
    · omega
    · exact absurd hmax (by decide : (0 : Word16).toNat ≠ 0x7FFF))
  cases b with
  | true => exact absurd hd.1 (by decide : ¬ (0xFFFF : Word16).toNat < 0x8000 + (0 : Word16).toNat / 2)
  | false =>
    have hsplit : rawSplit (ended c s) = 0x8000 := (by decide : 0x8000 + (0 : Word16).toNat / 2 = 0x8000)
    rw [hr, hd.2.1, hsplit, mpsState_ended h s]

theorem rawLoop_ended (v : Nat) (h : Lasts n c) :
    rawLoop params n v (ended c s) = .ok (v * 2 ^ n) (ended (endedStep^[n] c) s) := by
  induction n generalizing c v with
  | zero => rw [rawLoop, pow_zero, Nat.mul_one]; rfl
  | succ n ih =>
    rw [rawLoop, zpraw_ended hcap h, bind_ok, ih _ (lasts_step h), pow_succ', Function.iterate_succ_apply]
    congr 1
    show (2 * v + 0) * 2 ^ n = _
    ring

/-- `BLOCK` on the terminator (R223). -/
theorem block_ended (h : Lasts 24 c) :
    block params (ended c s) = .ok () ((sized 0 (ended (endedStep^[24] c) s)).setSt .done) := by
  have hrawn : rawn params 24 (ended c s) = .ok 0 (ended (endedStep^[24] c) s) := by
    rw [rawn, rawLoop_ended hcap 1 h]
    rfl
  rw [block, blkhdr_eq, hrawn, bind_ok, headerRest_zero, bind_ok]
  exact if_pos rfl

end Loop

/-- Settles O44. -/
theorem blockReadsTheTerminator : Obligations.BlockReadsTheTerminator := by
  intro s hst ha hcode hfence hbuf hlow hhigh hrp hcap hdelay
  have hlasts : Lasts 24 (s.coder.scount.toNat, s.coder.delay.toNat) :=
    ⟨hlow, hhigh, s.coder.delay.isLt, by dsimp only; omega⟩
  have hs : s = ended (s.coder.scount.toNat, s.coder.delay.toNat) s := by
    have hcoder : s.coder = endedCoder (s.coder.scount.toNat, s.coder.delay.toNat) s.len := by
      unfold endedCoder
      rw [← ha, ← hcode, ← hfence, ← hbuf, ← hrp, BitVec.ofNat_toNat, BitVec.ofNat_toNat, BitVec.setWidth_eq,
        BitVec.setWidth_eq]
    rw [ended, ← hcoder]
    rfl
  have hblock := block_ended hcap hlasts
  rw [← hs] at hblock
  exact ⟨_, (exec_block hst).trans (congrArg finish hblock), rfl, rfl, rfl, rfl, rfl⟩

/-- The coder `DINIT` leaves on the empty input (R239). -/
theorem launched_empty {s : State} (hlen : s.len = 0) : launched s = ended (32, 21) (launched s) := by
  have hbyte (k : Nat) : streamByte s k = 0xFF := by
    rw [streamByte, hlen]
    exact if_neg (Nat.not_lt_zero k)
  have hcoder : primedCoder s = endedCoder (32, 21) s.len := by
    simp only [primedCoder, endedCoder, hbyte, hlen, Coder.mk.injEq]
    refine ⟨trivial, ?_, ?_, ?_, ?_, ?_, ?_⟩ <;> decide
  show launched s = (launched s).setCoder (endedCoder (32, 21) s.len)
  rw [← hcoder]
  rfl

/-- Settles O48. -/
theorem runOfAnEmptyInput : Obligations.RunOfAnEmptyInput := by
  intro s hst hlen
  have hcap : s.len.toNat ≤ params.inCap.toNat := by rw [hlen]; exact Nat.zero_le _
  have hblock := block_ended (s := launched s) hcap (c := (32, 21)) ⟨by decide, by decide, by decide, by decide⟩
  rw [← launched_empty hlen, show endedStep^[24] (32, 21) = (24, 19) from rfl] at hblock
  rw [exec_run hst, run_eq hcap, blockBound, blockLoop, if_pos (show (launched s).st = .ready from rfl), hblock, bind_ok,
    blockLoop_of_ne_ready _ SeqState.noConfusion, finish, ended]
  show Host.Outcome.next (State.mk .done s.err s.einfo s.res s.len s.iaddr s.oaddr 0 (endedCoder (24, 19) s.len) _ _ _ _ _ _ _ _) = _
  rw [hlen]
  rfl

end Sys2Proof.Machine
end

section
/-! The undo walk as counting (R203 to R207): how many positions hold a smaller byte, or the same byte earlier. -/

namespace Sys2Proof.Machine

section Counting

variable (m : Nat) (q : Nat → Bool)

theorem countPositions_succ (n : Nat) :
    countPositions m (n + 1) q = countPositions m n q + if n ≠ m ∧ q n = true then 1 else 0 := by
  unfold countPositions
  rw [List.range_succ, List.countP_append, List.countP_singleton]
  simp only [Bool.and_eq_true, decide_eq_true_eq]

theorem countPositions_eq_card (n : Nat) :
    countPositions m n q = ((Finset.range n).filter fun k => k ≠ m ∧ q k = true).card := by
  induction n with
  | zero => rfl
  | succ n ih =>
    rw [countPositions_succ, ih, Finset.range_add_one, Finset.filter_insert]
    split
    · rw [Finset.card_insert_of_notMem]
      exact fun h => Finset.notMem_range_self (Finset.mem_of_mem_filter n h)
    · rfl

theorem countPositions_le (n : Nat) : countPositions m n q ≤ n := by
  unfold countPositions
  exact List.countP_le_length.trans_eq List.length_range

theorem countPositions_false (n : Nat) : countPositions m n (fun _ => false) = 0 := by
  rw [countPositions_eq_card]
  simp

theorem countPositions_congr {n : Nat} {r : Nat → Bool} (h : ∀ k < n, q k = r k) :
    countPositions m n q = countPositions m n r := by
  induction n with
  | zero => rfl
  | succ n ih => rw [countPositions_succ, countPositions_succ, ih fun k hk => h k (by omega), h n (by omega)]

end Counting

section Walk

variable (f : Nat → Byte) (m n : Nat)

/-- The positions, other than the marker's, whose byte is smaller, or the same and earlier (R205). -/
def walkBefore (k : Nat) : Finset Nat :=
  (Finset.range n).filter fun j => j ≠ m ∧ ((f j).toNat < (f k).toNat ∨ (f j = f k ∧ j < k))

variable {m n} {k : Nat}

theorem walkNext_eq_card (hk : k < n) (hkm : k ≠ m) : walkNext f m n k = (walkBefore f m n k).card + 1 := by
  rw [walkNext, if_neg hkm, countPositions_eq_card, countPositions_eq_card, Nat.add_assoc, Nat.add_comm 1,
    ← Finset.card_union_of_disjoint]
  · congr 2
    ext j
    simp only [walkBefore, Finset.mem_union, Finset.mem_filter, Finset.mem_range, decide_eq_true_eq]
    constructor
    · rintro (⟨hj, hjm, hlt⟩ | ⟨hj, hjm, heq⟩)
      · exact ⟨hj, hjm, .inl hlt⟩
      · exact ⟨by omega, hjm, .inr ⟨heq, hj⟩⟩
    · rintro ⟨hj, hjm, hlt | ⟨heq, hlt⟩⟩
      · exact .inl ⟨hj, hjm, hlt⟩
      · exact .inr ⟨hlt, hjm, heq⟩
  · refine Finset.disjoint_left.mpr fun j hlt heq => ?_
    have hlt : (f j).toNat < (f k).toNat := of_decide_eq_true (Finset.mem_filter.mp hlt).2.2
    have heq : f j = f k := of_decide_eq_true (Finset.mem_filter.mp heq).2.2
    rw [heq] at hlt
    exact absurd hlt (Nat.lt_irrefl _)

/-- Neither the marker's position nor the position itself is before it. -/
theorem card_walkBefore_lt (hm : m < n) (hk : k < n) (hkm : k ≠ m) : (walkBefore f m n k).card + 1 < n := by
  have hsub : walkBefore f m n k ⊆ ((Finset.range n).erase m).erase k := by
    intro j hj
    obtain ⟨hj, hjm, hbefore⟩ := Finset.mem_filter.mp hj
    refine Finset.mem_erase.mpr ⟨?_, Finset.mem_erase.mpr ⟨hjm, hj⟩⟩
    rintro rfl
    rcases hbefore with h | ⟨-, h⟩ <;> exact absurd h (Nat.lt_irrefl _)
  have hcard : (((Finset.range n).erase m).erase k).card = n - 1 - 1 := by
    rw [Finset.card_erase_of_mem (Finset.mem_erase.mpr ⟨hkm, Finset.mem_range.mpr hk⟩),
      Finset.card_erase_of_mem (Finset.mem_range.mpr hm), Finset.card_range]
  have hle := Finset.card_le_card hsub
  omega

theorem walkNext_lt (hpos : 1 ≤ m) (hm : m < n) (hk : k < n) : walkNext f m n k < n := by
  by_cases hkm : k = m
  · rw [walkNext, if_pos hkm]
    omega
  · rw [walkNext_eq_card f hk hkm]
    exact card_walkBefore_lt f hm hk hkm

theorem walkAt_lt (hpos : 1 ≤ m) (hm : m < n) (j : Nat) : walkAt f m n j < n := by
  induction j with
  | zero => rw [walkAt]; omega
  | succ j ih => exact walkNext_lt f hpos hm ih

end Walk

/-- Settles O56. -/
theorem indicesStayInTheirSpaces : Obligations.IndicesStayInTheirSpaces := by
  refine ⟨fun nb base n hwf hpos hn => ?_, fun cid r s t hcid hr => ?_, fun s n hpos hm => walkAt_lt _ hpos hm n⟩
  · simp only [Instr.wf, wfTreeBits, wfTreeBase, NCTX, Bool.and_eq_true, decide_eq_true_eq] at hwf
    unfold treeContext
    omega
  · obtain ⟨hle, hpath⟩ := rankdec_eq_ok_iff.mp hr
    exact ⟨hle, hpath, fun e he => rankPath_context_le hcid hle he⟩

end Sys2Proof.Machine
end

section
/-! The passes of `IBWT` (R203 to R206) in terms of counts over the data alone. -/

namespace Sys2Proof.Machine

section Count

variable (f : Nat → Byte) (m : Nat)

/-- How many earlier positions hold the byte of position `k` (R203). -/
def sameBefore (k : Nat) : Nat := countPositions m k fun j => decide (f j = f k)

/-- How many of the first `n` positions hold a byte below `c`, or `c` itself (R204). -/
def smaller (n c : Nat) : Nat := countPositions m n fun j => decide ((f j).toNat < c)

def equal (n c : Nat) : Nat := countPositions m n fun j => decide ((f j).toNat = c)

theorem smaller_zero (n : Nat) : smaller f m n 0 = 0 :=
  (countPositions_congr m _ fun _ _ => decide_eq_false (Nat.not_lt_zero _)).trans (countPositions_false m n)

theorem smaller_succ (n c : Nat) : smaller f m n (c + 1) = smaller f m n c + equal f m n c := by
  unfold smaller equal
  induction n with
  | zero => rfl
  | succ n ih =>
    simp only [countPositions_succ, decide_eq_true_eq]
    rw [ih]
    split_ifs <;> omega

theorem sameBefore_eq (k : Nat) : sameBefore f m k = equal f m k (f k).toNat :=
  countPositions_congr m _ fun _ _ => decide_eq_decide.mpr BitVec.toNat_inj.symm

theorem equal_succ (n c : Nat) :
    equal f m (n + 1) c = equal f m n c + if n ≠ m ∧ (f n).toNat = c then 1 else 0 := by
  unfold equal
  simp only [countPositions_succ, decide_eq_true_eq]

/-- Pass 2 (R203): the byte and the running count of every position but the marker's, and the counts so far. -/
theorem countPass_spec (n : Nat) (posn : Memory 32) :
    (∀ k, (countPass f m n (posn, Vector.replicate 256 0)).1.lookup k =
      if k < n ∧ k ≠ m then some (packed (f k) (BitVec.ofNat 32 (sameBefore f m k))) else posn.lookup k) ∧
    (∀ c < 256, tableGet (countPass f m n (posn, Vector.replicate 256 0)).2 c = BitVec.ofNat 32 (equal f m n c)) := by
  induction n with
  | zero => exact ⟨fun k => (if_neg (by omega)).symm, fun c hc => tableGet_replicate 0 hc⟩
  | succ n ih =>
    obtain ⟨hposn, hcount⟩ := ih
    rw [countPass, countPosition]
    by_cases hnm : n = m
    · rw [if_pos hnm]
      refine ⟨fun k => (hposn k).trans (if_congr (by omega) rfl rfl), fun c hc => ?_⟩
      rw [equal_succ, if_neg (by simp [hnm])]
      exact hcount c hc
    · have hfn : (f n).toNat < 256 := (f n).isLt
      rw [if_neg hnm]
      dsimp only
      rw [hcount _ hfn, ← sameBefore_eq]
      refine ⟨fun k => ?_, fun c hc => ?_⟩
      · rw [lookup_write, hposn]
        by_cases hk : n = k
        · subst hk
          rw [if_pos rfl, if_pos ⟨Nat.lt_succ_self _, hnm⟩]
        · rw [if_neg hk]
          exact if_congr (by omega) rfl rfl
      · rw [tableGet_put, hcount c hc, equal_succ]
        by_cases hcn : (f n).toNat = c
        · rw [if_pos ⟨hcn, hfn⟩, if_pos ⟨hnm, hcn⟩, sameBefore_eq, hcn, BitVec.ofNat_add]
          rfl
        · rw [if_neg fun h => hcn h.1, if_neg fun h => hcn h.2, Nat.add_zero]

variable {f m}

/-- Pass 3 (R204) on the counts of `n` positions: each entry becomes the number of positions with a smaller byte, and
one for the marker. -/
theorem prefixPass_spec {n : Nat} (hn : n < 2 ^ 32) {t : Vector Word32 256}
    (ht : ∀ c < 256, tableGet t c = BitVec.ofNat 32 (equal f m n c)) {b : Nat} (hb : b ≤ 256) :
    (prefixPass b (t, 1)).2 = 1 + smaller f m n b ∧ ∀ c < 256, tableGet (prefixPass b (t, 1)).1 c =
      if c < b then BitVec.ofNat 32 (1 + smaller f m n c) else tableGet t c := by
  induction b with
  | zero => exact ⟨by rw [smaller_zero]; rfl, fun c _ => (if_neg (Nat.not_lt_zero c)).symm⟩
  | succ b ih =>
    obtain ⟨hlast, htable⟩ := ih (by omega)
    have hle : equal f m n b ≤ n := countPositions_le _ _ _
    have hget : (tableGet (prefixPass b (t, 1)).1 b).toNat = equal f m n b := by
      rw [htable b (by omega), if_neg (Nat.lt_irrefl b), ht b (by omega)]
      exact Nat.mod_eq_of_lt (by omega)
    rw [prefixPass]
    dsimp only
    refine ⟨by rw [hlast, hget, smaller_succ]; omega, fun c hc => ?_⟩
    rw [tableGet_put, htable c hc, hlast]
    by_cases hbc : b = c
    · subst hbc
      rw [if_pos ⟨rfl, hc⟩, if_pos (Nat.lt_succ_self b)]
      rfl
    · rw [if_neg fun h => hbc h.1]
      exact if_congr (by omega) rfl rfl

end Count

section Packed

theorem packed_toNat (c : Byte) {r : Nat} (hr : r < 2 ^ 24) :
    (packed c (BitVec.ofNat 32 r)).toNat = c.toNat * 2 ^ 24 + r := by
  have hc := c.isLt
  unfold packed trunc32
  rw [BitVec.toNat_ofNat, BitVec.toNat_ofNat]
  omega

theorem packedByte_packed (c : Byte) {r : Nat} (hr : r < 2 ^ 24) : packedByte (packed c (BitVec.ofNat 32 r)) = c := by
  have hc := c.isLt
  apply BitVec.eq_of_toNat_eq
  rw [packedByte, BitVec.extractLsb'_toNat, packed_toNat c hr, Nat.shiftRight_eq_div_pow]
  omega

theorem packedCount_packed (c : Byte) {r : Nat} (hr : r < 2 ^ 24) : packedCount (packed c (BitVec.ofNat 32 r)) = r := by
  rw [packedCount, packed_toNat c hr]
  omega

end Packed

section Undo

variable {f : Nat → Byte} {m n : Nat} {packedAt : Nat → Word32} {base : Vector Word32 256}

/-- Pass 4 (R205) over packed values and offsets that give the walk of the data alone. -/
theorem undoWalk_spec (hpos : 1 ≤ m) (hm : m < n)
    (hbyte : ∀ k < n, packedByte (packedAt k) = walkByte f m k)
    (hnext : ∀ k < n, (tableGet base (packedByte (packedAt k)).toNat).toNat + packedCount (packedAt k) = walkNext f m n k)
    (last j : Nat) (data : Memory 8) :
    (undoWalk packedAt base last (walkAt f m n j) data).1 = walkAt f m n (j + last) ∧
    ∀ k, Memory.lookup (w := 8) (undoWalk packedAt base last (walkAt f m n j) data).2 k =
      if k < last then some (walkByte f m (walkAt f m n (j + (last - 1 - k)))) else data.lookup k := by
  induction last generalizing j data with
  | zero => exact ⟨rfl, fun k => (if_neg (Nat.not_lt_zero k)).symm⟩
  | succ last ih =>
    have hlt := walkAt_lt f hpos hm j
    rw [undoWalk, hnext _ hlt, hbyte _ hlt]
    obtain ⟨hptr, hdata⟩ := ih (j + 1) (data.write last (walkByte f m (walkAt f m n j)))
    refine ⟨hptr.trans (by rw [Nat.add_right_comm]; rfl), fun k => (hdata k).trans ?_⟩
    rw [lookup_write]
    rcases Nat.lt_trichotomy k last with hk | hk | hk
    · rw [if_pos hk, if_pos (by omega), show j + 1 + (last - 1 - k) = j + (last + 1 - 1 - k) by omega]
    · rw [if_neg (by omega), if_pos hk.symm, if_pos (by omega), show j + (last + 1 - 1 - k) = j by omega]
    · rw [if_neg (by omega), if_neg (by omega), if_neg (by omega)]

end Undo

section Reconstruct

variable {s : State}

/-- The marker's place and the size of a block that passes the checks of `IBWT` (R202). -/
structure Placed (s : State) : Prop where
  marker_pos : 1 ≤ s.blk.markerpos.toNat
  marker_lt : s.blk.markerpos.toNat < s.blk.size.toNat
  size_le : s.blk.size.toNat ≤ MAXSIZE

/-- The tables pass 2 leaves (R203). -/
def countTables (s : State) : Memory 32 × Vector Word32 256 :=
  countPass s.dataRead s.blk.markerpos.toNat s.blk.size.toNat
    (zeroFill s.blk.size.toNat s.blk.posn, Vector.replicate 256 0)

/-- The base offsets pass 3 leaves (R204). -/
def baseTable (s : State) : Vector Word32 256 := (prefixPass 256 ((countTables s).2, 1)).1

variable (h : Placed s)
include h

theorem sameBefore_lt {k : Nat} (hk : k < s.blk.size.toNat) (m : Nat) : sameBefore s.dataRead m k < 2 ^ 24 := by
  have hsize : s.blk.size.toNat ≤ 4194304 := h.size_le
  have hle : sameBefore s.dataRead m k ≤ k := countPositions_le _ _ _
  omega

/-- The packed values (R203). -/
theorem read_countTables (k : Nat) : Memory.read .posn s.resetCount (countTables s).1 k =
    if k = s.blk.markerpos.toNat then 0
    else if k < s.blk.size.toNat then
      packed (s.dataRead k) (BitVec.ofNat 32 (sameBefore s.dataRead s.blk.markerpos.toNat k))
    else s.posnRead k := by
  have hlookup := (countPass_spec s.dataRead s.blk.markerpos.toNat s.blk.size.toNat
    (zeroFill s.blk.size.toNat s.blk.posn)).1 k
  rw [lookup_zeroFill] at hlookup
  have hm := h.marker_lt
  unfold Memory.read countTables
  rw [hlookup]
  by_cases hkm : k = s.blk.markerpos.toNat
  · rw [if_pos hkm, if_neg fun hk => hk.2 hkm, if_pos (by omega)]
  · rw [if_neg hkm]
    by_cases hk : k < s.blk.size.toNat
    · rw [if_pos ⟨hk, hkm⟩, if_pos hk]
    · rw [if_neg fun h => hk h.1, if_neg hk, if_neg hk]
      rfl

/-- The base offsets (R204). -/
theorem baseTable_toNat {c : Nat} (hc : c < 256) : (tableGet (baseTable s) c).toNat =
    1 + smaller s.dataRead s.blk.markerpos.toNat s.blk.size.toNat c := by
  have hsize : s.blk.size.toNat ≤ 4194304 := h.size_le
  have hcount : ∀ c < 256, tableGet (countTables s).2 c =
      BitVec.ofNat 32 (equal s.dataRead s.blk.markerpos.toNat s.blk.size.toNat c) := (countPass_spec _ _ _ _).2
  have hle : smaller s.dataRead s.blk.markerpos.toNat s.blk.size.toNat c ≤ s.blk.size.toNat := countPositions_le _ _ _
  rw [baseTable, (prefixPass_spec (by omega) hcount (le_refl 256)).2 c hc, if_pos hc]
  exact Nat.mod_eq_of_lt (by omega)

/-- The undo walk of the machine is the walk of the data alone (R205). -/
theorem undoWalk_reconstruct :
    let u := undoWalk (Memory.read .posn s.resetCount (countTables s).1) (baseTable s) (s.blk.size.toNat - 1) 0 s.blk.data
    u.1 = walkAt s.dataRead s.blk.markerpos.toNat s.blk.size.toNat (s.blk.size.toNat - 1) ∧
    ∀ k, Memory.lookup (w := 8) u.2 k = if k < s.blk.size.toNat - 1 then
      some (walkByte s.dataRead s.blk.markerpos.toNat
        (walkAt s.dataRead s.blk.markerpos.toNat s.blk.size.toNat (s.blk.size.toNat - 2 - k)))
      else Memory.lookup (w := 8) s.blk.data k := by
  have hread := read_countTables h
  have hbyte : ∀ k < s.blk.size.toNat, packedByte (Memory.read .posn s.resetCount (countTables s).1 k) =
      walkByte s.dataRead s.blk.markerpos.toNat k := by
    intro k hk
    rw [hread, walkByte]
    by_cases hkm : k = s.blk.markerpos.toNat
    · rw [if_pos hkm, if_pos hkm]
      rfl
    · rw [if_neg hkm, if_neg hkm, if_pos hk, packedByte_packed _ (sameBefore_lt h hk _)]
  have hnext : ∀ k < s.blk.size.toNat,
      (tableGet (baseTable s) (packedByte (Memory.read .posn s.resetCount (countTables s).1 k)).toNat).toNat +
        packedCount (Memory.read .posn s.resetCount (countTables s).1 k) =
      walkNext s.dataRead s.blk.markerpos.toNat s.blk.size.toNat k := by
    intro k hk
    rw [hbyte k hk, baseTable_toNat h (BitVec.isLt _), hread, walkByte, walkNext]
    by_cases hkm : k = s.blk.markerpos.toNat
    · rw [if_pos hkm, if_pos hkm, if_pos hkm]
      show 1 + smaller _ _ _ 0 + 0 = 1
      rw [smaller_zero]
    · rw [if_neg hkm, if_neg hkm, if_neg hkm, if_pos hk, packedCount_packed _ (sameBefore_lt h hk _)]
      rfl
  obtain ⟨hptr, hdata⟩ := undoWalk_spec h.marker_pos h.marker_lt hbyte hnext (s.blk.size.toNat - 1) 0 s.blk.data
  refine ⟨hptr.trans (by rw [Nat.zero_add]), fun k => (hdata k).trans ?_⟩
  rw [Nat.zero_add, Nat.sub_sub _ 1 1]

/-- What passes 2 to 4 leave (R203 to R205). -/
theorem reconstruct_ptr : (reconstruct s).blk.ptr.toNat =
    walkAt s.dataRead s.blk.markerpos.toNat s.blk.size.toNat (s.blk.size.toNat - 1) := by
  have hsize : s.blk.size.toNat ≤ 4194304 := h.size_le
  have hlt := walkAt_lt s.dataRead h.marker_pos h.marker_lt (s.blk.size.toNat - 1)
  have hptr : (reconstruct s).blk.ptr = BitVec.ofNat 23 (undoWalk (Memory.read .posn s.resetCount (countTables s).1)
      (baseTable s) (s.blk.size.toNat - 1) 0 s.blk.data).1 := rfl
  rw [hptr, (undoWalk_reconstruct h).1]
  exact Nat.mod_eq_of_lt (by omega)

theorem reconstruct_dataRead (k : Nat) : (reconstruct s).dataRead k =
    if k < s.blk.size.toNat - 1 then walkByte s.dataRead s.blk.markerpos.toNat
      (walkAt s.dataRead s.blk.markerpos.toNat s.blk.size.toNat (s.blk.size.toNat - 2 - k)) else s.dataRead k := by
  have hlookup := (undoWalk_reconstruct h).2 k
  have hread : (reconstruct s).dataRead k = Memory.read .data s.resetCount
      (undoWalk (Memory.read .posn s.resetCount (countTables s).1) (baseTable s) (s.blk.size.toNat - 1) 0 s.blk.data).2 k :=
    rfl
  rw [hread, Memory.read, hlookup]
  by_cases hk : k < s.blk.size.toNat - 1
  · rw [if_pos hk, if_pos hk]
  · rw [if_neg hk, if_neg hk]
    rfl

theorem reconstruct_posnRead (k : Nat) : ((reconstruct s).posnRead k).toNat =
    if k = s.blk.markerpos.toNat then 0
    else if k < s.blk.size.toNat then (s.dataRead k).toNat * 2 ^ 24 +
      countPositions s.blk.markerpos.toNat k (fun j => decide (s.dataRead j = s.dataRead k))
    else (s.posnRead k).toNat := by
  have hread : (reconstruct s).posnRead k = Memory.read .posn s.resetCount (countTables s).1 k := rfl
  rw [hread, read_countTables h]
  split
  · rfl
  · split
    next hk => exact packed_toNat _ (sameBefore_lt h hk _)
    next => rfl

theorem reconstruct_count {c : Nat} (hc : c < 256) : (tableGet (reconstruct s).blk.count c).toNat =
    1 + countPositions s.blk.markerpos.toNat s.blk.size.toNat (fun j => decide ((s.dataRead j).toNat < c)) :=
  baseTable_toNat h hc

theorem ibwt_eq (hcount : s.blk.mcount.toNat = 1) : ibwt params s =
    if walkAt s.dataRead s.blk.markerpos.toNat s.blk.size.toNat (s.blk.size.toNat - 1) = s.blk.markerpos.toNat then
      .ok () ((reconstruct s).setSt .recon)
    else .raise .corruptBlock 3 (reconstruct s) := by
  have hmc : s.blk.mcount = 1 := BitVec.eq_of_toNat_eq hcount
  have hgood : markerCountBad params s.blk = false := by simp [markerCountBad, hmc]
  have hplace : markerPlaceBad s.blk = false := decide_eq_false (by have := h.marker_pos; have := h.marker_lt; omega)
  have hmarker : (reconstruct s).blk.markerpos = s.blk.markerpos := rfl
  have hptr : (reconstruct s).blk.ptr = (reconstruct s).blk.markerpos ↔
      walkAt s.dataRead s.blk.markerpos.toNat s.blk.size.toNat (s.blk.size.toNat - 1) = s.blk.markerpos.toNat := by
    rw [← BitVec.toNat_inj, reconstruct_ptr h, hmarker]
  rw [ibwt, if_neg (by rw [hgood]; exact Bool.false_ne_true), if_neg (by rw [hplace]; exact Bool.false_ne_true),
    if_neg (Nat.not_lt.mpr h.size_le)]
  dsimp only
  by_cases hend : (reconstruct s).blk.ptr = (reconstruct s).blk.markerpos
  · rw [if_neg (by simpa using hend), if_pos (hptr.mp hend)]
  · rw [if_pos (by simpa using hend), if_neg (mt hptr.mpr hend)]

end Reconstruct

/-- Settles O38. -/
theorem ibwtIsTheStableWalk : Obligations.IbwtIsTheStableWalk := by
  intro s hst hcount hpos hlt hsize
  have h : Placed s := ⟨hpos, hlt, hsize⟩
  dsimp only
  rw [exec_ibwt hst, ibwt_eq h hcount]
  by_cases hend : walkAt s.dataRead s.blk.markerpos.toNat s.blk.size.toNat (s.blk.size.toNat - 1) =
      s.blk.markerpos.toNat
  · simp only [if_pos hend]
    exact ⟨_, rfl, rfl, reconstruct_ptr h, reconstruct_dataRead h, reconstruct_posnRead h,
      fun c hc => reconstruct_count h hc⟩
  · simp only [if_neg hend]
    exact ⟨_, rfl, rfl, reconstruct_ptr h, reconstruct_dataRead h, reconstruct_posnRead h,
      fun c hc => reconstruct_count h hc⟩

end Sys2Proof.Machine
end

section
/-! The undo walk inverts the transform (R210): from the row of a suffix it goes to the row of the suffix one byte longer,
because the rows before that one are the rows the walk counts. -/

namespace Sys2Proof.Machine

section Suffixes

variable (x : List Byte)

/-- The order of the suffixes of `x` by their bytes (R210), by where they begin. -/
def SuffixLt (p q : Nat) : Prop := List.Lex (fun u v : Byte => u.toNat < v.toNat) (x.drop p) (x.drop q)

variable {x} {p q : Nat}

theorem suffixLt_asymm (h : SuffixLt x p q) : ¬ SuffixLt x q p := by
  have : Std.Asymm fun u v : Byte => u.toNat < v.toNat := ⟨fun _ _ h => Nat.lt_asymm h⟩
  exact asymm_of (List.Lex fun u v : Byte => u.toNat < v.toNat) h

theorem drop_eq_cons (hp : p < x.length) : x.drop p = x.getD p 0 :: x.drop (p + 1) := by
  rw [List.drop_eq_getElem_cons hp, List.getD_eq_getElem _ _ hp]

/-- The empty suffix comes first. -/
theorem suffixLt_empty (hp : p < x.length) : SuffixLt x x.length p := by
  rw [SuffixLt, List.drop_length, drop_eq_cons hp]
  exact .nil

theorem not_suffixLt_empty : ¬ SuffixLt x q x.length := by
  rw [SuffixLt, List.drop_length]
  generalize x.drop q = u
  intro h
  cases h

/-- Two suffixes that are not empty are ordered by their first byte, then by the rest. -/
theorem suffixLt_iff (hp : p < x.length) (hq : q < x.length) : SuffixLt x p q ↔
    (x.getD p 0).toNat < (x.getD q 0).toNat ∨ (x.getD p 0 = x.getD q 0 ∧ SuffixLt x (p + 1) (q + 1)) := by
  unfold SuffixLt
  rw [drop_eq_cons hp, drop_eq_cons hq]
  constructor
  · intro h
    generalize x.getD p 0 = u at h ⊢
    generalize x.getD q 0 = v at h ⊢
    cases h with
    | rel h => exact .inl h
    | cons h => exact .inr ⟨rfl, h⟩
  · rintro (h | ⟨heq, h⟩)
    · exact .rel h
    · rw [heq]
      exact .cons h

end Suffixes

/-- The rows of a transform, with where the suffix of each begins (R210). -/
structure Rows (x : List Byte) (f : Nat → Byte) (m : Nat) (start : Nat → Nat) : Prop where
  le : ∀ k ≤ x.length, start k ≤ x.length
  sorted : ∀ j ≤ x.length, ∀ k ≤ x.length, j < k → SuffixLt x (start j) (start k)
  marker_le : m ≤ x.length
  marker_start : start m = 0
  byte : ∀ k ≤ x.length, k ≠ m → f k = x.getD (start k - 1) 0

section Rows

variable {x : List Byte} {f : Nat → Byte} {m : Nat} {start : Nat → Nat} (h : Rows x f m start)
include h

theorem rows_lt_iff {j k : Nat} (hj : j ≤ x.length) (hk : k ≤ x.length) : SuffixLt x (start j) (start k) ↔ j < k := by
  refine ⟨fun hlt => ?_, h.sorted j hj k hk⟩
  rcases Nat.lt_trichotomy j k with hjk | rfl | hkj
  · exact hjk
  · exact absurd hlt (suffixLt_asymm hlt)
  · exact absurd hlt (suffixLt_asymm (h.sorted k hk j hj hkj))

theorem rows_injective {j k : Nat} (hj : j ≤ x.length) (hk : k ≤ x.length) (heq : start j = start k) : j = k := by
  have hirrefl : ¬ SuffixLt x (start k) (start k) := fun hlt => suffixLt_asymm hlt hlt
  rcases Nat.lt_trichotomy j k with hjk | hjk | hkj
  · exact absurd (heq ▸ h.sorted j hj k hk hjk) hirrefl
  · exact hjk
  · exact absurd (heq ▸ h.sorted k hk j hj hkj) hirrefl

theorem rows_surjective {q : Nat} (hq : q ≤ x.length) : ∃ j ≤ x.length, start j = q := by
  have hinj : Set.InjOn start (Finset.range (x.length + 1)) := fun j hj k hk heq =>
    rows_injective h (Nat.lt_succ_iff.mp (Finset.mem_range.mp hj)) (Nat.lt_succ_iff.mp (Finset.mem_range.mp hk)) heq
  have hsub : (Finset.range (x.length + 1)).image start ⊆ Finset.range (x.length + 1) := by
    intro q hq
    obtain ⟨j, hj, rfl⟩ := Finset.mem_image.mp hq
    exact Finset.mem_range.mpr (Nat.lt_succ_of_le (h.le j (Nat.lt_succ_iff.mp (Finset.mem_range.mp hj))))
  have himage := Finset.eq_of_subset_of_card_le hsub (Finset.card_image_of_injOn hinj).ge
  obtain ⟨j, hj, hjq⟩ := Finset.mem_image.mp (himage.symm ▸ Finset.mem_range.mpr (Nat.lt_succ_of_le hq))
  exact ⟨j, Nat.lt_succ_iff.mp (Finset.mem_range.mp hj), hjq⟩

theorem rows_start_pos {k : Nat} (hk : k ≤ x.length) (hkm : k ≠ m) : 1 ≤ start k := by
  refine Nat.one_le_iff_ne_zero.mpr fun h0 => hkm (rows_injective h hk h.marker_le ?_)
  rw [h0, h.marker_start]

/-- The first row is that of the empty suffix. -/
theorem rows_zero : start 0 = x.length := by
  obtain ⟨j, hj, hjq⟩ := rows_surjective h (le_refl x.length)
  rcases Nat.eq_zero_or_pos j with rfl | hpos
  · exact hjq
  · exact absurd (hjq ▸ h.sorted 0 (Nat.zero_le _) j hj hpos) not_suffixLt_empty

/-- The rows before row `r`, by where their suffixes begin. -/
theorem mem_image_range {q r : Nat} (hq : q ≤ x.length) (hr : r ≤ x.length) :
    q ∈ (Finset.range r).image start ↔ SuffixLt x q (start r) := by
  rw [Finset.mem_image]
  constructor
  · rintro ⟨j, hj, rfl⟩
    have hj := Finset.mem_range.mp hj
    exact h.sorted j (by omega) r hr hj
  · intro hlt
    obtain ⟨j, hj, rfl⟩ := rows_surjective h hq
    exact ⟨j, Finset.mem_range.mpr ((rows_lt_iff h hj hr).mp hlt), rfl⟩

variable {k : Nat} (hk : k ≤ x.length) (hkm : k ≠ m)
include hk hkm

/-- A row is counted by the walk exactly where its suffix, one byte longer, comes before that of row `k`. -/
theorem mem_walkBefore_iff {j : Nat} (hj : j ≤ x.length) (hjm : j ≠ m) :
    j ∈ walkBefore f m (x.length + 1) k ↔ SuffixLt x (start j - 1) (start k - 1) := by
  have hjpos := rows_start_pos h hj hjm
  have hkpos := rows_start_pos h hk hkm
  have hjle := h.le j hj
  have hkle := h.le k hk
  rw [suffixLt_iff (by omega) (by omega), ← h.byte j hj hjm, ← h.byte k hk hkm, Nat.sub_add_cancel hjpos,
    Nat.sub_add_cancel hkpos, rows_lt_iff h hj hk, walkBefore, Finset.mem_filter, Finset.mem_range]
  exact ⟨fun hmem => hmem.2.2, fun hbefore => ⟨by omega, hjm, hbefore⟩⟩

/-- The rows before the one the walk goes to: that of the empty suffix, and those the walk counts. -/
theorem image_range_eq {r : Nat} (hr : r ≤ x.length) (hstart : start r = start k - 1) :
    (Finset.range r).image start =
      insert x.length ((walkBefore f m (x.length + 1) k).image fun j => start j - 1) := by
  have hkpos := rows_start_pos h hk hkm
  have hkle := h.le k hk
  ext q
  rw [Finset.mem_insert]
  constructor
  · intro hq
    have hqle : q ≤ x.length := by
      obtain ⟨j, hj, rfl⟩ := Finset.mem_image.mp hq
      exact h.le j (by have := Finset.mem_range.mp hj; omega)
    rcases Nat.eq_or_lt_of_le hqle with rfl | hqlt
    · exact .inl rfl
    · obtain ⟨j, hj, hjq⟩ := rows_surjective h (Nat.succ_le_of_lt hqlt)
      have hjm : j ≠ m := by
        rintro rfl
        rw [h.marker_start] at hjq
        omega
      have hsub : start j - 1 = q := by omega
      refine .inr (Finset.mem_image.mpr ⟨j, (mem_walkBefore_iff h hk hkm hj hjm).mpr ?_, hsub⟩)
      rw [hsub, ← hstart]
      exact (mem_image_range h hqle hr).mp hq
  · rintro (rfl | hq)
    · refine (mem_image_range h (le_refl _) hr).mpr ?_
      rw [hstart]
      exact suffixLt_empty (by omega)
    · obtain ⟨j, hj, rfl⟩ := Finset.mem_image.mp hq
      obtain ⟨hjrange, hjm, -⟩ := Finset.mem_filter.mp hj
      have hjle : j ≤ x.length := Nat.lt_succ_iff.mp (Finset.mem_range.mp hjrange)
      have := h.le j hjle
      refine (mem_image_range h (by omega) hr).mpr ?_
      rw [hstart]
      exact (mem_walkBefore_iff h hk hkm hjle hjm).mp hj

/-- The walk goes to the row of the suffix one byte longer (R205, R210). -/
theorem start_walkNext : walkNext f m (x.length + 1) k ≤ x.length ∧ start (walkNext f m (x.length + 1) k) = start k - 1 := by
  have hkle := h.le k hk
  obtain ⟨r, hr, hstart⟩ := rows_surjective h (q := start k - 1) (by omega)
  have hcounted : ∀ j ∈ walkBefore f m (x.length + 1) k, j ≤ x.length ∧ j ≠ m := fun j hj =>
    ⟨Nat.lt_succ_iff.mp (Finset.mem_range.mp (Finset.mem_filter.mp hj).1), (Finset.mem_filter.mp hj).2.1⟩
  have hleft : ((Finset.range r).image start).card = r := by
    rw [Finset.card_image_of_injOn, Finset.card_range]
    intro i hi j hj heq
    have hi := Finset.mem_range.mp hi
    have hj := Finset.mem_range.mp hj
    exact rows_injective h (by omega) (by omega) heq
  have hinner : ((walkBefore f m (x.length + 1) k).image fun j => start j - 1).card =
      (walkBefore f m (x.length + 1) k).card := by
    refine Finset.card_image_of_injOn fun i hi j hj heq => ?_
    obtain ⟨hile, him⟩ := hcounted i hi
    obtain ⟨hjle, hjm⟩ := hcounted j hj
    have hipos := rows_start_pos h hile him
    have hjpos := rows_start_pos h hjle hjm
    have heq : start i - 1 = start j - 1 := heq
    exact rows_injective h hile hjle (by omega)
  have hnew : x.length ∉ (walkBefore f m (x.length + 1) k).image fun j => start j - 1 := by
    intro hmem
    obtain ⟨j, hj, hjq⟩ := Finset.mem_image.mp hmem
    obtain ⟨hjle, hjm⟩ := hcounted j hj
    have := rows_start_pos h hjle hjm
    have := h.le j hjle
    omega
  have hnext : walkNext f m (x.length + 1) k = r := by
    rw [walkNext_eq_card f (Nat.lt_succ_of_le hk) hkm, ← hinner, ← Finset.card_insert_of_notMem hnew,
      ← image_range_eq h hk hkm hr hstart, hleft]
  rw [hnext]
  exact ⟨hr, hstart⟩

omit hk hkm

/-- After `n` steps the walk is at the row of the suffix of length `n`. -/
theorem start_walkAt {n : Nat} (hn : n ≤ x.length) :
    walkAt f m (x.length + 1) n ≤ x.length ∧ start (walkAt f m (x.length + 1) n) = x.length - n := by
  induction n with
  | zero => exact ⟨Nat.zero_le _, rows_zero h⟩
  | succ n ih =>
    obtain ⟨hle, hstart⟩ := ih (by omega)
    have hne : walkAt f m (x.length + 1) n ≠ m := by
      intro heq
      rw [heq, h.marker_start] at hstart
      omega
    obtain ⟨hle', hstart'⟩ := start_walkNext h hle hne
    exact ⟨hle', hstart'.trans (by omega)⟩

theorem walkAt_length : walkAt f m (x.length + 1) x.length = m := by
  obtain ⟨hle, hstart⟩ := start_walkAt h (le_refl x.length)
  exact rows_injective h hle h.marker_le (by rw [hstart, h.marker_start, Nat.sub_self])

/-- The byte the walk emits at the row of a suffix is the one before it. -/
theorem walkByte_walkAt {j : Nat} (hj : j < x.length) :
    walkByte f m (walkAt f m (x.length + 1) (x.length - 1 - j)) = x.getD j 0 := by
  obtain ⟨hle, hstart⟩ := start_walkAt h (n := x.length - 1 - j) (by omega)
  have hne : walkAt f m (x.length + 1) (x.length - 1 - j) ≠ m := by
    intro heq
    rw [heq, h.marker_start] at hstart
    omega
  rw [walkByte, if_neg hne, h.byte _ hle hne, hstart, show x.length - (x.length - 1 - j) - 1 = j by omega]

end Rows

/-- Settles O39. -/
theorem ibwtInvertsTheTransform : Obligations.IbwtInvertsTheTransform := by
  intro s x hst hcount hpos hsize hmax ⟨start, hle, hsorted, hmarker, hmarkerStart, hbyte⟩
  have h : Rows x s.dataRead s.blk.markerpos.toNat start := ⟨hle, hsorted, hmarker, hmarkerStart, hbyte⟩
  have hmpos : 1 ≤ s.blk.markerpos.toNat := by
    refine Nat.one_le_iff_ne_zero.mpr fun h0 => ?_
    have hstart := h.marker_start
    rw [h0, rows_zero h] at hstart
    omega
  have hplaced : Placed s := ⟨hmpos, by omega, hmax⟩
  have hend : walkAt s.dataRead s.blk.markerpos.toNat s.blk.size.toNat (s.blk.size.toNat - 1) = s.blk.markerpos.toNat := by
    rw [hsize]
    exact walkAt_length h
  refine ⟨(reconstruct s).setSt .recon, ?_, rfl, fun k hk => ?_⟩
  · rw [exec_ibwt hst, ibwt_eq hplaced hcount, if_pos hend]
    rfl
  · refine (reconstruct_dataRead hplaced k).trans ?_
    rw [hsize, if_pos (by omega), show x.length + 1 - 2 - k = x.length - 1 - k by omega]
    exact walkByte_walkAt h hk

end Sys2Proof.Machine
end

section
/-! `RUN` depends on the input alone (R240, R282): two sessions that agree on the input, the coder, the contexts and the
output agree after every operation, because what an operation reads of the block was written in the block. -/

namespace Sys2Proof.Machine

/-- Two states agree on what a session's outcome shows, and on the input. -/
structure Agree (s u : State) : Prop where
  st : s.st = u.st
  err : s.err = u.err
  einfo : s.einfo = u.einfo
  len : s.len = u.len
  olen : s.olen = u.olen
  coder : s.coder = u.coder
  ctx : s.ctx = u.ctx
  input : ∀ k < s.len.toNat, s.imemRead k = u.imemRead k
  output : ∀ k < s.olen.toNat, s.omemRead k = u.omemRead k

/-- The block registers a position reads or writes (R22, R34 to R38), the memories and the registers of `IBWT` left out. -/
def registers (b : Block) : Block :=
  { b with data := [], posn := [], count := Vector.replicate 256 0, last := 0, ptr := 0 }

/-- Two states agree on a block being decoded: on its registers, and on the positions decoded so far. -/
structure AgreeBlock (s u : State) : Prop extends Agree s u where
  regs : registers s.blk = registers u.blk
  data : ∀ k < s.blk.i.toNat, s.dataRead k = u.dataRead k

/-- Two states agree on a block that has been reconstructed: on its size and its plaintext. -/
structure AgreePlain (s u : State) : Prop extends Agree s u where
  size : s.blk.size = u.blk.size
  data : ∀ k < s.blk.size.toNat - 1, s.dataRead k = u.dataRead k

theorem streamRel_agree : StreamRel Agree where
  coder h := h.coder
  ctx h := h.ctx
  len h := h.len
  input h := h.input
  setCoder _ h := { h with coder := rfl }
  setCtx _ _ h := { h with ctx := congrArg (fun t => tablePut t _ _) h.ctx }

theorem streamRel_agreeBlock : StreamRel AgreeBlock where
  coder h := h.coder
  ctx h := h.ctx
  len h := h.len
  input h := h.input
  setCoder c h := ⟨streamRel_agree.setCoder c h.toAgree, h.regs, h.data⟩
  setCtx c v h := ⟨streamRel_agree.setCtx c v h.toAgree, h.regs, h.data⟩

/-- `call` after an operation whose outcome in `s` is known. -/
theorem related_bind_eq {α β : Type} {R Q : State → State → Prop} {r q : Res α} {k l : α → State → Res β}
    (hraise : ∀ s u, R s u → Q s u) (h : Related R r q)
    (hk : ∀ v s u, r = .ok v s → R s u → Related Q (k v s) (l v u)) : Related Q (r.bind k) (q.bind l) := by
  cases h with
  | ok v h => exact hk v _ _ rfl h
  | raise e info h => exact .raise e info (hraise _ _ h)
  | stop f => exact .stop f
  | refuse f => exact .refuse f

section Positions

variable {s u : State}

theorem agreeBlock_register {α : Type} (h : AgreeBlock s u) (field : Block → α)
    (hfield : ∀ b, field (registers b) = field b) : field s.blk = field u.blk := by
  rw [← hfield s.blk, h.regs, hfield]

theorem takeRank_registers (r : Nat) (b : Block) :
    registers (takeRank params r b) = registers (takeRank params r (registers b)) := by
  unfold takeRank
  by_cases h : r = 256
  · simp only [if_pos h]
    rfl
  · simp only [if_neg h]
    rfl

/-- One position decoded in both. -/
theorem takeRank_agree {r : Nat} (h : AgreeBlock s u) (hi : s.blk.i.toNat < MAXSIZE) :
    AgreeBlock (s.setBlk (takeRank params r s.blk)) (u.setBlk (takeRank params r u.blk)) := by
  have hii : s.blk.i = u.blk.i := agreeBlock_register h Block.i fun _ => rfl
  have hmtf : s.blk.mtf = u.blk.mtf := agreeBlock_register h Block.mtf fun _ => rfl
  have hread (v : State) (k : Nat) : (v.setBlk (takeRank params r v.blk)).dataRead k =
      if v.blk.i.toNat = k then tableGet v.blk.mtf (if r = 256 then 0 else r) else v.dataRead k := by
    show Memory.read .data v.resetCount (takeRank params r v.blk).data k = _
    rw [takeRank_frame]
    exact read_write _ _ _ _ _ _
  refine ⟨{ h.toAgree with }, ?_, fun k hk => ?_⟩
  · show registers (takeRank params r s.blk) = registers (takeRank params r u.blk)
    rw [takeRank_registers, h.regs, ← takeRank_registers]
  · have hnext : (takeRank params r s.blk).i.toNat = s.blk.i.toNat + 1 := by
      rw [takeRank_frame]
      show (s.blk.i + 1).toNat = _
      rw [BitVec.toNat_add]
      unfold MAXSIZE at hi
      exact Nat.mod_eq_of_lt (by show _ + 1 < 2 ^ 23; omega)
    have hk : k < (takeRank params r s.blk).i.toNat := hk
    rw [hread, hread, ← hii, ← hmtf]
    by_cases hik : s.blk.i.toNat = k
    · rw [if_pos hik, if_pos hik]
    · rw [if_neg hik, if_neg hik]
      exact h.data k (by omega)

theorem symdec_related (h : AgreeBlock s u) : Related AgreeBlock (symdec params s) (symdec params u) := by
  have hcid : contextId params s = contextId params u := by
    unfold contextId
    rw [agreeBlock_register h Block.mtfno fun _ => rfl]
  unfold symdec
  rw [← hcid]
  refine related_call (rankdec_related streamRel_agreeBlock params h _) fun r t v htv => ?_
  have hi : t.blk.i = v.blk.i := agreeBlock_register htv Block.i fun _ => rfl
  refine related_ite (by rw [hi]) (fun _ => .stop _) fun hle => ?_
  have hrank := takeRank_agree (r := r) htv (Nat.lt_of_not_le hle)
  have hi' : (takeRank params r t.blk).i = (takeRank params r v.blk).i := agreeBlock_register hrank Block.i fun _ => rfl
  have hsize : (takeRank params r t.blk).size = (takeRank params r v.blk).size :=
    agreeBlock_register hrank Block.size fun _ => rfl
  dsimp only
  rw [← hi', ← hsize, ← htv.st]
  exact .ok _ ⟨{ hrank.toAgree with st := rfl }, hrank.regs, hrank.data⟩

theorem symdecLoop_related (n : Nat) (h : AgreeBlock s u) :
    Related AgreeBlock (symdecLoop params n s) (symdecLoop params n u) := by
  induction n generalizing s u with
  | zero => exact .ok _ h
  | succ n ih =>
    unfold symdecLoop
    exact related_ite (by rw [h.st]) (fun _ => related_call (symdec_related h) fun _ _ _ h' => ih h') fun _ => .ok _ h

/-- Where the positions of a block end. -/
theorem symdecLoop_position {n : Nat} {t : State} (hst : s.st = .block) (hi : s.blk.i.toNat < s.blk.size.toNat)
    (hn : s.blk.i.toNat + n = s.blk.size.toNat) (hsize : s.blk.size.toNat ≤ MAXSIZE)
    (hr : symdecLoop params n s = .ok () t) : t.blk.i.toNat = t.blk.size.toNat := by
  induction n generalizing s with
  | zero => omega
  | succ n ih =>
    rw [symdecLoop, if_pos hst] at hr
    obtain ⟨_, v, hv, hrest⟩ := bind_eq_ok.mp hr
    obtain ⟨hvs, hvi, hvst⟩ := symdec_position hst hi hsize hv
    split at hvst
    next hlast =>
      obtain rfl : n = 0 := by omega
      cases hrest
      rw [hvs, hvi, hlast]
    next => exact ih hvst (by rw [hvs]; omega) (by rw [hvs]; omega) (by rw [hvs]; exact hsize) hrest

end Positions

section Reconstruction

theorem walkNext_congr {f g : Nat → Byte} {m n k : Nat} (h : ∀ j < n, f j = g j) (hk : k < n) :
    walkNext f m n k = walkNext g m n k := by
  unfold walkNext
  rw [h k hk, countPositions_congr m _ fun j hj => by rw [h j hj],
    countPositions_congr (n := k) m _ fun j hj => by rw [h j (by omega)]]

theorem walkAt_congr {f g : Nat → Byte} {m n : Nat} (h : ∀ j < n, f j = g j) (hpos : 1 ≤ m) (hm : m < n) (i : Nat) :
    walkAt f m n i = walkAt g m n i := by
  induction i with
  | zero => rfl
  | succ i ih => rw [walkAt, walkAt, ← ih, walkNext_congr h (walkAt_lt f hpos hm i)]

theorem walkByte_congr {f g : Nat → Byte} {m n k : Nat} (h : ∀ j < n, f j = g j) (hk : k < n) :
    walkByte f m k = walkByte g m k := by
  unfold walkByte
  rw [h k hk]

variable {s u : State}

theorem reconstruct_agree (h : Placed s) (k : Placed u) (hagree : Agree s u) (hm : s.blk.markerpos = u.blk.markerpos)
    (hsize : s.blk.size = u.blk.size) (hdata : ∀ k < s.blk.size.toNat, s.dataRead k = u.dataRead k) :
    AgreePlain (reconstruct s) (reconstruct u) := by
  refine ⟨{ hagree with }, hsize, fun j hj => ?_⟩
  have hj : j < s.blk.size.toNat - 1 := hj
  rw [reconstruct_dataRead h, reconstruct_dataRead k, ← hm, ← hsize, if_pos hj, if_pos hj,
    ← walkAt_congr hdata h.marker_pos h.marker_lt]
  exact walkByte_congr hdata (walkAt_lt _ h.marker_pos h.marker_lt _)

theorem ibwt_related (h : AgreeBlock s u) (hi : s.blk.i.toNat = s.blk.size.toNat) :
    Related AgreePlain (ibwt params s) (ibwt params u) := by
  have hm : s.blk.markerpos = u.blk.markerpos := agreeBlock_register h Block.markerpos fun _ => rfl
  have hsize : s.blk.size = u.blk.size := agreeBlock_register h Block.size fun _ => rfl
  have hmcount : s.blk.mcount = u.blk.mcount := agreeBlock_register h Block.mcount fun _ => rfl
  have hdata : ∀ k < s.blk.size.toNat, s.dataRead k = u.dataRead k := fun k hk => h.data k (hi ▸ hk)
  have hplain : AgreePlain s u := ⟨h.toAgree, hsize, fun k hk => hdata k (by omega)⟩
  have hcountBad : markerCountBad params s.blk = markerCountBad params u.blk := by rw [markerCountBad, hmcount]; rfl
  have hplaceBad : markerPlaceBad s.blk = markerPlaceBad u.blk := by rw [markerPlaceBad, hm, hsize]; rfl
  by_cases hplaced : Placed s ∧ s.blk.mcount.toNat = 1
  · obtain ⟨hs, hcount⟩ := hplaced
    have hu : Placed u := ⟨hm ▸ hs.marker_pos, hm ▸ hsize ▸ hs.marker_lt, hsize ▸ hs.size_le⟩
    have hrec := reconstruct_agree hs hu h.toAgree hm hsize hdata
    rw [ibwt_eq hs hcount, ibwt_eq hu (hmcount ▸ hcount), ← hm, ← hsize,
      ← walkAt_congr hdata hs.marker_pos hs.marker_lt]
    exact related_ite Iff.rfl (fun _ => .ok _ ⟨{ hrec.toAgree with st := rfl }, hrec.size, hrec.data⟩)
      fun _ => .raise _ _ hrec
  · unfold ibwt
    refine related_ite (by rw [hcountBad]) (fun _ => .raise _ _ hplain) fun hgood =>
      related_ite (by rw [hplaceBad]) (fun _ => .raise _ _ hplain) fun hplace =>
        related_ite (by rw [hsize]) (fun _ => .stop _) fun hle => absurd ?_ hplaced
    have hcount : s.blk.mcount = 1 := by simpa [markerCountBad, params] using hgood
    have hplace := of_decide_eq_false (Bool.eq_false_iff.mpr hplace)
    exact ⟨⟨by omega, by omega, Nat.le_of_not_lt hle⟩, by rw [hcount]; rfl⟩

theorem emit_related (h : AgreePlain s u) : Related Agree (emit s) (emit u) := by
  unfold emit
  dsimp only
  rw [← h.size, ← h.olen]
  refine related_ite Iff.rfl (fun _ => .stop _) fun _ => related_ite Iff.rfl (fun _ => .refuse _) fun hfits =>
    .ok _ { h.toAgree with st := rfl, olen := rfl, output := fun k hk => ?_ }
  have hlen : (BitVec.ofNat 32 (s.olen.toNat + (s.blk.size.toNat - 1))).toNat = s.olen.toNat + (s.blk.size.toNat - 1) :=
    Nat.mod_eq_of_lt (Nat.lt_of_not_le hfits)
  have hk : k < s.olen.toNat + (s.blk.size.toNat - 1) := hlen ▸ hk
  refine (read_appendBytes _ _ _ _ _ _ _).trans (Eq.trans ?_ (read_appendBytes _ _ _ _ _ _ _).symm)
  by_cases hold : s.olen.toNat ≤ k ∧ k < s.olen.toNat + (s.blk.size.toNat - 1)
  · rw [if_pos hold, if_pos hold]
    exact h.data _ (by omega)
  · rw [if_neg hold, if_neg hold]
    exact h.output k (by omega)

end Reconstruction

section Blocks

variable {s u : State}

/-- The positions of a block, its reconstruction and its output. -/
theorem blockRest_related (h : AgreeBlock s u) (hst : s.st = .block) (hi : s.blk.i = 0)
    (hpos : 0 < s.blk.size.toNat) (hle : s.blk.size.toNat ≤ MAXSIZE) :
    Related Agree
      ((symdecLoop params s.blk.size.toNat s).bind fun _ s => (ibwt params s).bind fun _ s => emit s)
      ((symdecLoop params u.blk.size.toNat u).bind fun _ s => (ibwt params s).bind fun _ s => emit s) := by
  have hzero : s.blk.i.toNat = 0 := by rw [hi]; rfl
  have hsize : s.blk.size = u.blk.size := agreeBlock_register h Block.size fun _ => rfl
  rw [← hsize]
  refine related_bind_eq (fun _ _ h => h.toAgree) (symdecLoop_related _ h) fun _ t v hr htv => ?_
  refine related_bind (fun _ _ h => h.toAgree) (ibwt_related htv ?_) fun _ _ _ h => emit_related h
  exact symdecLoop_position hst (by omega) (by omega) hle hr

/-- A header leaves the same block registers, whatever they held before. -/
theorem freshBlock_agree (h : Agree s u) (hsize : s.blk.size = u.blk.size) (f : Nat) :
    AgreeBlock ((s.setBlk (freshBlock params f s.blk)).setSt .block) ((u.setBlk (freshBlock params f u.blk)).setSt .block) := by
  refine ⟨{ h with st := rfl }, ?_, fun k hk => absurd hk (Nat.not_lt_zero k)⟩
  show registers (freshBlock params f s.blk) = registers (freshBlock params f u.blk)
  unfold registers freshBlock
  rw [hsize]

/-- Two states that agree, and on the size of the block whose header is being read. -/
structure AgreeSized (v : Nat) (s u : State) : Prop extends Agree s u where
  left : s.blk.size = BitVec.ofNat 24 v
  right : u.blk.size = BitVec.ofNat 24 v

theorem streamRel_agreeSized (v : Nat) : StreamRel (AgreeSized v) where
  coder h := h.coder
  ctx h := h.ctx
  len h := h.len
  input h := h.input
  setCoder c h := ⟨streamRel_agree.setCoder c h.toAgree, h.left, h.right⟩
  setCtx c x h := ⟨streamRel_agree.setCtx c x h.toAgree, h.left, h.right⟩

theorem block_related (h : Agree s u) : Related Agree (block params s) (block params u) := by
  unfold block
  rw [blkhdr_eq, blkhdr_eq, bind_assoc, bind_assoc]
  refine related_call (rawn_related streamRel_agree params h 24) fun v t w htw => ?_
  have hsized : AgreeSized v (sized v t) (sized v w) := ⟨{ htw with }, rfl, rfl⟩
  rcases Nat.eq_zero_or_pos v with rfl | hpos
  · rw [headerRest_zero, headerRest_zero, bind_ok, bind_ok]
    exact related_ite Iff.rfl (fun _ => .ok _ { hsized.toAgree with st := rfl }) fun hne => absurd rfl hne
  · by_cases hle : v ≤ MAXSIZE
    · rw [headerRest_block params t hpos hle, headerRest_block params w hpos hle, bind_assoc, bind_assoc]
      refine related_bind (fun _ _ h => h.toAgree) (fshiftField_related (streamRel_agreeSized v) params hsized)
        fun f x y hxy => ?_
      have hsize : x.blk.size.toNat = v := by
        rw [hxy.left]
        exact Nat.mod_eq_of_lt (by unfold MAXSIZE at hle; omega)
      rw [bind_ok, bind_ok]
      refine related_ite Iff.rfl (fun hdone => nomatch hdone) fun _ => ?_
      exact blockRest_related (freshBlock_agree hxy.toAgree (hxy.left.trans hxy.right.symm) f) rfl rfl
        (hsize.symm ▸ hpos) (hsize.symm ▸ hle)
    · rw [headerRest_tooLarge params t (by omega), headerRest_tooLarge params w (by omega)]
      exact .raise _ _ hsized.toAgree

theorem blockLoop_related (n : Nat) (h : Agree s u) :
    Related Agree (blockLoop params n s) (blockLoop params n u) := by
  induction n generalizing s u with
  | zero => exact .ok _ h
  | succ n ih =>
    unfold blockLoop
    exact related_ite (by rw [h.st]) (fun _ => related_call (block_related h) fun _ _ _ h' => ih h') fun _ => .ok _ h

end Blocks

section Runs

variable {s u : State} (hlen : s.len = u.len) (hinput : ∀ k < s.len.toNat, s.imemRead k = u.imemRead k)
include hlen hinput

theorem streamByte_agree : streamByte s = streamByte u := by
  funext k
  unfold streamByte
  rw [← hlen]
  split
  next hk => exact hinput k hk
  next => rfl

theorem launched_agree (herr : s.err = u.err) (heinfo : s.einfo = u.einfo) : Agree (launched s) (launched u) where
  st := rfl
  err := herr
  einfo := heinfo
  len := hlen
  olen := rfl
  coder := by
    show primedCoder s = primedCoder u
    rw [primedCoder, streamByte_agree hlen hinput, hlen]
    rfl
  ctx := rfl
  input := hinput
  output k hk := absurd hk (Nat.not_lt_zero k)

theorem run_related (herr : s.err = u.err) (heinfo : s.einfo = u.einfo) :
    Related Agree (run params s) (run params u) := by
  by_cases hcap : s.len.toNat ≤ params.inCap.toNat
  · have hbound : blockBound params (launched s) = blockBound params (launched u) := by
      unfold blockBound
      rw [show (launched s).len = (launched u).len from hlen]
    rw [run_eq hcap, run_eq (hlen ▸ hcap), hbound]
    exact blockLoop_related _ (launched_agree hlen hinput herr heinfo)
  · rw [run, run, dinit, dinit, if_pos (Nat.lt_of_not_le hcap), if_pos (Nat.lt_of_not_le (hlen ▸ hcap))]
    exact .refuse _

end Runs

/-- Settles O49. -/
theorem runDependsOnTheInputAlone : Obligations.RunDependsOnTheInputAlone := by
  intro s u hs hu hlen hinput herr heinfo
  have hrun := run_related hlen hinput herr heinfo
  rw [exec_run hs, exec_run hu]
  generalize run params s = r at hrun ⊢
  generalize run params u = q at hrun ⊢
  cases hrun with
  | ok v h => exact ⟨_, rfl, h.st, h.err, h.einfo, h.olen, h.coder, h.ctx, h.output⟩
  | raise e info h => exact ⟨_, rfl, rfl, rfl, rfl, rfl, h.coder, h.ctx, fun k hk => absurd hk (Nat.not_lt_zero k)⟩
  | stop f => exact rfl
  | refuse r => exact rfl

end Sys2Proof.Machine
end
